-- ==== Sys2Proof/Word.lean ====
section
/-! DEFINITION. The widths of 00_scope.md R11 and R14: every value is an unsigned number of a stated width. -/

namespace Sys2Proof

/-- A result register, STATUS, a bus address, a bus value, a command word (R11 `XLEN`, `ADDR_BITS`; R130). -/
abbrev Word := BitVec 32

/-- A 16-bit value: an immediate, a timer count, the pin port (R131, R50, R51). -/
abbrev Half := BitVec 16

/-- A byte of the serial line, a selector, a field index (R52, R45, R131). -/
abbrev Byte := BitVec 8

/-- The number of a result register X0 to X15 (R31, R135). -/
abbrev RegIx := BitVec 4

end Sys2Proof
end

