-- ==== Sys2Proof/Syntax.lean ====
section
/-! DEFINITION. The commands of 30_encoding.md R137, one constructor per row of the opcode map. Operand names follow
R131; `d` is a destination result register, `v` a value register, `b` an address register. -/

namespace Sys2Proof

/-- A command of the RFE. -/
inductive Instr where
  /-- R170 -/
  | li (d : RegIx) (imm : Half)
  /-- R171 -/
  | lih (d : RegIx) (imm : Half)
  /-- R172 -/
  | gets (d : RegIx)
  /-- R181; `wc` is the width code of R134 -/
  | ldv (d b : RegIx) (wc : BitVec 2)
  /-- R182 -/
  | stv (v b : RegIx) (wc : BitVec 2)
  /-- R210 -/
  | rread (d : RegIx) (sel : Byte)
  /-- R211 -/
  | rfield (d : RegIx) (sel fld : Byte)
  /-- R212 -/
  | dbegin (sel : Byte)
  /-- R213 -/
  | dset (v : RegIx) (fld : Byte)
  /-- R214 -/
  | dseti (fld : Byte) (imm : Half)
  /-- R215 -/
  | dxor (v : RegIx) (fld : Byte)
  /-- R216 -/
  | dbits (v : RegIx)
  /-- R217 -/
  | write
  /-- R218 -/
  | modify
  /-- R261 -/
  | tstart (v : RegIx)
  /-- R262 -/
  | tstarti (imm : Half)
  /-- R263 -/
  | tpoll
  /-- R264 -/
  | tack
  /-- R265 -/
  | delay (v : RegIx)
  /-- R266 -/
  | delayi (imm : Half)
  /-- R291 -/
  | pon (imm : Half)
  /-- R292 -/
  | poff (imm : Half)
  /-- R312 -/
  | usend (v : RegIx)
  /-- R313 -/
  | usendi (imm8 : Byte)
  /-- R314 -/
  | urecv (d : RegIx)
  /-- R315 -/
  | uline (d : RegIx)
  /-- R316 -/
  | lrev
  /-- R317 -/
  | usendl
  deriving DecidableEq, Repr

end Sys2Proof
end

