-- ==== Sys2Proof/WellFormed.lean ====
section
/-! DEFINITION. Which terms of `Instr` are commands. Every operand's width is in its type; the one check left is the
width code of LDV and STV, which must not be 3 (30_encoding.md R134, R138). -/

namespace Sys2Proof

/-- The command has an encoding (R138). -/
def Instr.wellFormed : Instr → Bool
  | .ldv _ _ wc => wc != 3#2
  | .stv _ _ wc => wc != 3#2
  | .li _ _ | .lih _ _ | .gets _ => true
  | .rread _ _ | .rfield _ _ _ | .dbegin _ | .dset _ _ | .dseti _ _ | .dxor _ _ | .dbits _ | .write | .modify => true
  | .tstart _ | .tstarti _ | .tpoll | .tack | .delay _ | .delayi _ => true
  | .pon _ | .poff _ => true
  | .usend _ | .usendi _ | .urecv _ | .uline _ | .lrev | .usendl => true

end Sys2Proof
end

