-- ==== Sys2Proof/Decode.lean ====
section
/-! DEFINITION. Decoding a command word (30_encoding.md R130 to R139, R143), its serialisation (R142), and the encoder
written from the same formats (R132). -/

namespace Sys2Proof

/-- Why a word is illegal (R138). -/
inductive DecodeError where
  /-- the opcode is not in the map of R137 -/
  | unknownOpcode
  /-- a must-be-zero bit of the format (R132) is 1 -/
  | mustBeZero
  /-- LDV or STV with `wc = 3` (R134) -/
  | badWidthCode
  /-- fewer than four bytes were given (R142) -/
  | truncated
  deriving DecidableEq, Repr

/-- Field `op` (R131). -/
def opOf (w : Word) : Byte := w.extractLsb' 24 8

/-- Field `a` (R131). -/
def aOf (w : Word) : RegIx := w.extractLsb' 20 4

/-- Field `b` (R131). -/
def bOf (w : Word) : RegIx := w.extractLsb' 16 4

/-- Field `dfld` (R131). -/
def dfldOf (w : Word) : Byte := w.extractLsb' 16 8

/-- Field `imm` (R131). -/
def immOf (w : Word) : Half := w.extractLsb' 0 16

/-- Field `imm8` (R131). -/
def imm8Of (w : Word) : Byte := w.extractLsb' 0 8

/-- Field `sel` (R131). -/
def selOf (w : Word) : Byte := w.extractLsb' 8 8

/-- Field `fld` (R131). -/
def fldOf (w : Word) : Byte := w.extractLsb' 0 8

/-- Field `wc` (R131). -/
def wcOf (w : Word) : BitVec 2 := w.extractLsb' 0 2

/-- The command `i`, if every bit of `w` in `mbz`, the must-be-zero bits of its format (R132), is 0. -/
def fixedBits (w mbz : Word) (i : Instr) : Except DecodeError Instr :=
  if w &&& mbz = 0#32 then .ok i else .error .mustBeZero

/-- Format M (R132): also refuses width code 3 (R134). -/
def widthForm (w : Word) (i : Instr) : Except DecodeError Instr :=
  if w &&& 0x0000FFFC#32 = 0#32 then
    if wcOf w = 3#2 then .error .badWidthCode else .ok i
  else .error .mustBeZero

/-- The command of a word, or why it is illegal (R137, R138, R143). The masks are the must-be-zero bits of the row's
format (R132). -/
def decode (w : Word) : Except DecodeError Instr :=
  match opOf w with
  | 0x01#8 => fixedBits w 0x000F0000#32 (.li (aOf w) (immOf w))
  | 0x02#8 => fixedBits w 0x000F0000#32 (.lih (aOf w) (immOf w))
  | 0x03#8 => fixedBits w 0x000FFFFF#32 (.gets (aOf w))
  | 0x10#8 => widthForm w (.ldv (aOf w) (bOf w) (wcOf w))
  | 0x11#8 => widthForm w (.stv (aOf w) (bOf w) (wcOf w))
  | 0x20#8 => fixedBits w 0x000F00FF#32 (.rread (aOf w) (selOf w))
  | 0x21#8 => fixedBits w 0x000F0000#32 (.rfield (aOf w) (selOf w) (fldOf w))
  | 0x22#8 => fixedBits w 0x00FF00FF#32 (.dbegin (selOf w))
  | 0x23#8 => fixedBits w 0x000FFF00#32 (.dset (aOf w) (fldOf w))
  | 0x24#8 => fixedBits w 0x00000000#32 (.dseti (dfldOf w) (immOf w))
  | 0x25#8 => fixedBits w 0x000FFF00#32 (.dxor (aOf w) (fldOf w))
  | 0x26#8 => fixedBits w 0x000FFFFF#32 (.dbits (aOf w))
  | 0x27#8 => fixedBits w 0x00FFFFFF#32 .write
  | 0x28#8 => fixedBits w 0x00FFFFFF#32 .modify
  | 0x30#8 => fixedBits w 0x000FFFFF#32 (.tstart (aOf w))
  | 0x31#8 => fixedBits w 0x00FF0000#32 (.tstarti (immOf w))
  | 0x32#8 => fixedBits w 0x00FFFFFF#32 .tpoll
  | 0x33#8 => fixedBits w 0x00FFFFFF#32 .tack
  | 0x34#8 => fixedBits w 0x000FFFFF#32 (.delay (aOf w))
  | 0x35#8 => fixedBits w 0x00FF0000#32 (.delayi (immOf w))
  | 0x40#8 => fixedBits w 0x00FF0000#32 (.pon (immOf w))
  | 0x41#8 => fixedBits w 0x00FF0000#32 (.poff (immOf w))
  | 0x50#8 => fixedBits w 0x000FFFFF#32 (.usend (aOf w))
  | 0x51#8 => fixedBits w 0x00FFFF00#32 (.usendi (imm8Of w))
  | 0x52#8 => fixedBits w 0x000FFFFF#32 (.urecv (aOf w))
  | 0x53#8 => fixedBits w 0x000FFFFF#32 (.uline (aOf w))
  | 0x54#8 => fixedBits w 0x00FFFFFF#32 .lrev
  | 0x55#8 => fixedBits w 0x00FFFFFF#32 .usendl
  | _ => .error .unknownOpcode

/-- The word of four bytes, least significant byte first (R142). -/
def wordOfBytes (b0 b1 b2 b3 : Byte) : Word := b3 ++ b2 ++ b1 ++ b0

/-- The first command of a byte string and the bytes after it (R142, R143). -/
def decodeBytes : List Byte → Except DecodeError (Instr × List Byte)
  | b0 :: b1 :: b2 :: b3 :: rest =>
    match decode (wordOfBytes b0 b1 b2 b3) with
    | .ok i => .ok (i, rest)
    | .error e => .error e
  | [] | [_] | [_, _] | [_, _, _] => .error .truncated

/-- The word of a command: opcode in bits 31..24 (R137), operands where its format puts them, every other bit 0 (R132). -/
def encode : Instr → Word
  | .li d imm => 0x01#8 ++ d ++ 0#4 ++ imm
  | .lih d imm => 0x02#8 ++ d ++ 0#4 ++ imm
  | .gets d => 0x03#8 ++ d ++ 0#20
  | .ldv d b wc => 0x10#8 ++ d ++ b ++ 0#14 ++ wc
  | .stv v b wc => 0x11#8 ++ v ++ b ++ 0#14 ++ wc
  | .rread d sel => 0x20#8 ++ d ++ 0#4 ++ sel ++ 0#8
  | .rfield d sel fld => 0x21#8 ++ d ++ 0#4 ++ sel ++ fld
  | .dbegin sel => 0x22#8 ++ 0#8 ++ sel ++ 0#8
  | .dset v fld => 0x23#8 ++ v ++ 0#12 ++ fld
  | .dseti fld imm => 0x24#8 ++ fld ++ imm
  | .dxor v fld => 0x25#8 ++ v ++ 0#12 ++ fld
  | .dbits v => 0x26#8 ++ v ++ 0#20
  | .write => 0x27#8 ++ 0#24
  | .modify => 0x28#8 ++ 0#24
  | .tstart v => 0x30#8 ++ v ++ 0#20
  | .tstarti imm => 0x31#8 ++ 0#8 ++ imm
  | .tpoll => 0x32#8 ++ 0#24
  | .tack => 0x33#8 ++ 0#24
  | .delay v => 0x34#8 ++ v ++ 0#20
  | .delayi imm => 0x35#8 ++ 0#8 ++ imm
  | .pon imm => 0x40#8 ++ 0#8 ++ imm
  | .poff imm => 0x41#8 ++ 0#8 ++ imm
  | .usend v => 0x50#8 ++ v ++ 0#20
  | .usendi imm8 => 0x51#8 ++ 0#16 ++ imm8
  | .urecv d => 0x52#8 ++ d ++ 0#20
  | .uline d => 0x53#8 ++ d ++ 0#20
  | .lrev => 0x54#8 ++ 0#24
  | .usendl => 0x55#8 ++ 0#24

/-- The bytes of a command, least significant first (R142). -/
def encodeBytes (i : Instr) : List Byte :=
  [(encode i).extractLsb' 0 8, (encode i).extractLsb' 8 8, (encode i).extractLsb' 16 8, (encode i).extractLsb' 24 8]

/-- The word whose low `nbits` bits are `w`'s, every bit above them 0. -/
def tableWord (nbits w : Nat) : Word := BitVec.ofNat 32 (w % 2 ^ nbits)

/-- What the decoder reads from the word `w` of a row of the opcode table, through its four bytes (R142). -/
def decodeTableWord (nbits w : Nat) : Option Instr :=
  let v := tableWord nbits w
  match decodeBytes [v.extractLsb' 0 8, v.extractLsb' 8 8, v.extractLsb' 16 8, v.extractLsb' 24 8] with
  | .ok (i, []) => some i
  | .ok (_, _ :: _) => none
  | .error _ => none

end Sys2Proof
end

