-- ==== Sys2Proof/Config.lean ====
section
/-! DEFINITION. What is fixed for a run (00_scope.md R11, R12): the shape of a register table (10_state.md R42), the
default profile (R45 to R49), the parameters, and the free values of 00_scope.md R17 (`draw()`) and R9 (which agent
steps next). -/

namespace Sys2Proof.Config

/-- Permission of a register or a field (R42). -/
inductive Perm where
  | ro | wo | rw
  deriving DecidableEq, Repr

/-- A size of 1, 2 or 4 bytes: of a bus transaction (R84), of LDV and STV (R134), of a register (R42 `W`). -/
inductive Width where
  | byte | half | word
  deriving DecidableEq, Repr

/-- n, in bytes (R84). -/
def Width.bytes : Width → Nat
  | .byte => 1
  | .half => 2
  | .word => 4

/-- W or 8n, in bits (R42, R84). -/
def Width.bits : Width → Nat
  | .byte => 8
  | .half => 16
  | .word => 32

/-- The name of a block (R42): those of R45, or another. -/
inductive BlockName where
  | tim | gpio | uart
  | other (label : String)
  deriving DecidableEq, Repr

/-- The name of a register, block and register together: the nine device registers of R46 to R49, or another. -/
inductive RegName where
  | timCr1 | timSr | timPsc | timArr
  | gpioOdr | gpioBsrr
  | uartIsr | uartRdr | uartTdr
  | other (label : String)
  deriving DecidableEq, Repr

/-- The block a register's name puts it in; none for a register that is no device register. -/
def RegName.block : RegName → Option BlockName
  | .timCr1 | .timSr | .timPsc | .timArr => some .tim
  | .gpioOdr | .gpioBsrr => some .gpio
  | .uartIsr | .uartRdr | .uartTdr => some .uart
  | .other _ => none

/-- The name of a field: those of R46 to R49, or another. -/
inductive FieldName where
  | cen | udis | urs | opm | arpe | uifremap
  | uif
  | psc
  | arr
  | odr (pin : Nat)
  | bs (pin : Nat)
  | br (pin : Nat)
  | ore | rxne | tc | txe
  | rdr
  | tdr
  | other (label : String)
  deriving DecidableEq, Repr

/-- A field: a contiguous range of bits `lo..hi` with its own permission (R42). -/
structure Field where
  name : FieldName
  lo : Nat
  hi : Nat
  perm : Perm
  deriving DecidableEq, Repr

/-- A register of a block (R42). A field's index is its position in `fields`. -/
structure RegDecl where
  idx : BitVec 4
  name : RegName
  offset : Word
  width : Width
  perm : Perm
  wdef : Word
  fields : List Field
  deriving DecidableEq, Repr

/-- A register block: registers at offsets from one base (R42). -/
structure Block where
  id : BitVec 4
  name : BlockName
  base : Word
  regs : List RegDecl
  deriving DecidableEq, Repr

/-- A register of the table at its place: the declaration and its block's base (R42, 90_conflicts.md C10). -/
structure Reg where
  base : Word
  decl : RegDecl
  deriving DecidableEq, Repr

/-- The register table REGTAB (R42). -/
abbrev RegTab := List Block

/-- Addresses `base` to `base + len - 1`. -/
structure AddrRange where
  base : Nat
  len : Nat
  deriving DecidableEq, Repr

/-- What a set/reset store does to a pin it both sets and resets (R11 `BSRR_BOTH`, R97). -/
inductive BsrrBoth where
  | setWins | resetWins
  deriving DecidableEq, Repr

/-- The parameters of R11 that have more than one value. `backed` lists the addresses where `BACKED` holds. -/
structure Params where
  regtab : RegTab
  capacity : Nat
  bsrrBoth : BsrrBoth
  pinErrorPossible : Bool
  rxPaced : Bool
  backed : List AddrRange
  deriving DecidableEq, Repr

/-- The line terminator TERM (R11). -/
def term : Byte := 0x0A#8

/-- A one-bit field. -/
def bitField (n : FieldName) (i : Nat) (p : Perm) : Field := ⟨n, i, i, p⟩

/-- TIM CR1 (R46). -/
def timCr1 : RegDecl :=
  ⟨0#4, .timCr1, 0x00#32, .word, .rw, 0#32,
    [bitField .cen 0 .rw, bitField .udis 1 .rw, bitField .urs 2 .rw, bitField .opm 3 .rw,
     bitField .arpe 7 .rw, bitField .uifremap 11 .rw]⟩

/-- TIM SR (R46). -/
def timSr : RegDecl := ⟨1#4, .timSr, 0x10#32, .word, .rw, 0#32, [bitField .uif 0 .rw]⟩

/-- TIM PSC (R46). -/
def timPsc : RegDecl := ⟨2#4, .timPsc, 0x28#32, .word, .rw, 0#32, [⟨.psc, 0, 15, .rw⟩]⟩

/-- TIM ARR, write-default 0xFFFF (R46). -/
def timArr : RegDecl := ⟨3#4, .timArr, 0x2C#32, .word, .rw, 0xFFFF#32, [⟨.arr, 0, 15, .rw⟩]⟩

/-- GPIO ODR (R47). -/
def gpioOdr : RegDecl :=
  ⟨0#4, .gpioOdr, 0x14#32, .word, .rw, 0#32, (List.range 16).map fun i => bitField (.odr i) i .rw⟩

/-- GPIO BSRR: fields 0 to 15 set pins, fields 16 to 31 reset them (R48). -/
def gpioBsrr : RegDecl :=
  ⟨1#4, .gpioBsrr, 0x18#32, .word, .wo, 0#32,
    ((List.range 16).map fun i => bitField (.bs i) i .wo) ++
    ((List.range 16).map fun i => bitField (.br i) (16 + i) .wo)⟩

/-- UART ISR (R49). -/
def uartIsr : RegDecl :=
  ⟨0#4, .uartIsr, 0x1C#32, .word, .ro, 0#32,
    [bitField .ore 3 .ro, bitField .rxne 5 .ro, bitField .tc 6 .ro, bitField .txe 7 .ro]⟩

/-- UART RDR (R49). -/
def uartRdr : RegDecl := ⟨1#4, .uartRdr, 0x24#32, .word, .ro, 0#32, [⟨.rdr, 0, 8, .ro⟩]⟩

/-- UART TDR, declared write-only (R49, 92_eei_decisions.md D26). -/
def uartTdr : RegDecl := ⟨2#4, .uartTdr, 0x28#32, .word, .wo, 0#32, [⟨.tdr, 0, 8, .wo⟩]⟩

/-- GPIO_BASE (R11, R82). -/
def gpioBase : Word := 0x48001000#32

/-- The default profile: TIM is block 0, GPIO block 1, UART block 2 (R45). -/
def profile (timBase uartBase : Word) : RegTab :=
  [⟨0#4, .tim, timBase, [timCr1, timSr, timPsc, timArr]⟩,
   ⟨1#4, .gpio, gpioBase, [gpioOdr, gpioBsrr]⟩,
   ⟨2#4, .uart, uartBase, [uartIsr, uartRdr, uartTdr]⟩]

/-- Default TIM_BASE (R11). -/
def timBaseDefault : Word := 0x40001000#32

/-- Default UART_BASE (R11). -/
def uartBaseDefault : Word := 0x40013800#32

/-- The parameters at their default values (R11). DESIGN CHOICE (log entry 5): `BACKED`, which has no default, holds at
the bytes of the profile's registers and nowhere else. -/
def defaultParams : Params where
  regtab := profile timBaseDefault uartBaseDefault
  capacity := 32
  bsrrBoth := .setWins
  pinErrorPossible := true
  rxPaced := false
  backed :=
    [⟨0x40001000, 4⟩, ⟨0x40001010, 4⟩, ⟨0x40001028, 8⟩, ⟨0x48001014, 8⟩,
     ⟨0x4001381C, 4⟩, ⟨0x40013824, 8⟩]

/-- The agents of R9. -/
inductive Agent where
  | engine | timer | uartTx | uartRx
  deriving DecidableEq, Repr, Inhabited

/-- FREE VALUE (log entry 4): the k-th `draw()` of a run (R17). Nothing constrains it. -/
opaque draw : Nat → Word

/-- FREE VALUE (log entry 3): the agent offered the k-th step when State's `turns` is empty (R9). Nothing constrains it. -/
opaque freeTurn : Nat → Agent

end Sys2Proof.Config
end

