-- ==== Sys2Proof/Machine/State.lean ====
section
/-! DEFINITION. The state of the machine: the ENGINE's (10_state.md R30 to R40), the devices' (R50 to R52), the
configuration of the run (00_scope.md R12), and three fields of the model's own that carry the schedule and the draws. -/

namespace Sys2Proof.Machine

open Sys2Proof.Config

/-- Direction of a bus transaction (20_memory.md R88). -/
inductive Dir where
  | load | store
  deriving DecidableEq, Repr

/-- A TRACE event (R40): one per completed transaction. `v` is below 2^(8n). -/
inductive BusEvent where
  | load (addr : Word) (n : Width) (v : Word)
  | store (addr : Word) (n : Width) (v : Word)
  deriving DecidableEq, Repr

/-- A REPORTS event (R37). -/
inductive Report where
  | overflow (b : Byte)
  deriving DecidableEq, Repr

/-- TST, the timer driver's software-observed state (R38). -/
inductive TimerPhase where
  | idle | counting | expired
  deriving DecidableEq, Repr

/-- The causes of InvalidFieldError (R34). -/
inductive Cause where
  | unknownRegister | permissionDenied | unknownField | reservedBit | valueTooWide | pinOutOfRange
  deriving DecidableEq, Repr

/-- A staged operation of a descriptor group (R35, R206). -/
inductive StagedOp where
  | set (f : Field) (v : Word)
  | xor (f : Field) (v : Word)
  | bits (v : Word)
  deriving DecidableEq, Repr

/-- DESC (R35). `reg = none` is the spec's `unknown`; `poison = none` is no error so far. -/
inductive Desc where
  | none
  | opened (reg : Option Reg) (ops : List StagedOp) (poison : Option Cause)
  deriving DecidableEq, Repr

/-- What follows the two transactions of a modify: the end of MODIFY (R218), the rest of a start, alone or inside a
delay (R260), or the end of an acknowledge (R260). -/
inductive AfterModify where
  | group
  | started (delay : Bool)
  | acknowledged
  deriving DecidableEq, Repr

/-- What a received byte is for: URECV's result (R314), or ULINE's line with the bytes dropped so far (R315). -/
inductive Receive where
  | byte (d : RegIx)
  | line (d : RegIx) (dropped : Nat)
  deriving DecidableEq, Repr

/-- CONT: the transaction a multi-step command makes next, with its local values (R39). -/
inductive Cont where
  /-- between commands -/
  | none
  /-- a modify has read `v` and stores next (R207, R218, R260) -/
  | modifyStore (r : Reg) (ops : List StagedOp) (v : Word) (next : AfterModify)
  /-- a start has stored the period and loads CR1 next (R260) -/
  | startModify (delay : Bool)
  /-- a poll of UIF goes on (R260) -/
  | pollUif (delay : Bool)
  /-- a delay has seen UIF and loads SR next, for its acknowledge (R260, R265) -/
  | ackModify
  /-- a send of `b`, then of `rest`, polls TXE next (R310, R317) -/
  | sendPoll (b : Byte) (rest : List Byte)
  /-- a send of `b`, then of `rest`, stores to TDR next (R310, R317) -/
  | sendStore (b : Byte) (rest : List Byte)
  /-- a receive polls RXNE next (R311); `kept` is the byte of the line received before and not yet in LB (R315,
  00_scope.md R18) -/
  | recvPoll (r : Receive) (kept : Option Byte)
  /-- a receive loads RDR next (R311) -/
  | recvLoad (r : Receive)
  deriving DecidableEq, Repr

/-- The fault kinds with their info (60_exceptions.md R357). -/
inductive FaultKind where
  /-- kind 1 (R85, R89) -/
  | hardFault (addr : Word) (n : Width) (dir : Dir) (misaligned : Bool)
  /-- kind 2 (R87, R91, R99) -/
  | unmodelledAccess (addr : Word) (n : Width) (dir : Dir)
  /-- kind 3 (R91) -/
  | reservedWrite (addr : Word) (v : Word)
  /-- kind 4, a store (R93, R98) -/
  | unmodelledDeviceMode (reg : RegName) (v : Word)
  /-- kind 4, a tick with `cnt >= arr` (R370) -/
  | timerOverrunPeriod (cnt arr : Half)
  /-- kind 5 (R98) -/
  | txOverwrite (v : Word)
  /-- kind 6 (R373) -/
  | uartOverrun (b : Byte)
  /-- kind 7 (R31) -/
  | unwrittenRegister (i : RegIx)
  /-- kind 8 (R138) -/
  | illegalCommand (w : Word)
  /-- kind 9 (R219); `none` is the spec's `end` -/
  | illFormedGroup (w : Option Word)
  deriving DecidableEq, Repr

/-- The contents of FAULT: kind, info and the pc that R356 adds. -/
structure FaultRecord where
  kind : FaultKind
  pc : Nat
  deriving DecidableEq, Repr

/-- The timer (R50). -/
structure Timer where
  cen : Bool
  udis : Bool
  urs : Bool
  opm : Bool
  arpe : Bool
  uifremap : Bool
  uif : Bool
  psc : Half
  arr : Half
  cnt : Half
  deriving DecidableEq, Repr

/-- The UART (R52). `input` is IN, `output` is OUT. -/
structure Uart where
  txe : Bool
  tdr : Byte
  rxne : Bool
  rdr : BitVec 9
  ore : Bool
  input : List Byte
  output : List Byte
  deriving DecidableEq, Repr

/-- The state of the machine. -/
structure State where
  /-- the parameters of the run (R11, R12); no step changes them -/
  cfg : Params
  /-- the command store (R81); no step changes it -/
  prog : List Word
  /-- R32 -/
  pc : Nat
  /-- R31; `none` is a register that holds no value -/
  x : Vector (Option Word) 16
  /-- R33 -/
  status : Word
  /-- R35 -/
  desc : Desc
  /-- R36 -/
  lb : List Byte
  /-- R37 -/
  reports : List Report
  /-- R38 -/
  tst : TimerPhase
  /-- R39 -/
  cont : Cont
  /-- R40 -/
  trace : List BusEvent
  /-- R40, R356 -/
  fault : Option FaultRecord
  /-- R50 -/
  tim : Timer
  /-- R51 -/
  odr : Half
  /-- R52 -/
  uart : Uart
  /-- model's own: the agents offered the next steps, in order (log entry 3) -/
  turns : List Agent
  /-- model's own: counts steps, the argument of `Config.freeTurn` (log entry 3) -/
  choices : Nat
  /-- model's own: counts draws, the argument of `Config.draw` (log entry 4) -/
  draws : Nat
  deriving DecidableEq, Repr

/-- Why the machine takes no step. Neither stops an instruction: a fault of the spec (R357) is a NEXT state whose
`fault` is set. -/
inductive Fault where
  /-- raised by `step`: FAULT is set, so no agent has an enabled step (R356). Safe: the spec's machine stops there. -/
  | halted
  /-- raised by `step`: the run has ended (R381), so no later step is part of it. Safe: the spec's run has no step
  there. -/
  | ended
  /-- raised by an agent asked to step that has no step (R350, R370 to R373). Safe: the spec's machine has no such step;
  `step` itself never asks one. -/
  | noAgentEnabled
  deriving DecidableEq, Repr

/-- What the model gives no meaning. -/
inductive Refusal where
  /-- raised by `exec` for a command with no meaning yet. Safe. -/
  | notModelled (mnemonic : String)
  /-- raised by a transaction at a declared register that is none of the nine device registers, and by a store to ISR or RDR
  where a table declares them writable: the spec gives them no device effect (R8, R92, R99, log entry 12). Safe. Never with
  the default profile. -/
  | unknownDevice (name : RegName)
  /-- raised by a driver command when REGTAB lacks a register it needs (R260, R290, R310, log entry 13). Safe. Never with
  the default profile. -/
  | missingRegister (name : RegName)
  /-- raised by a driver command when a register of REGTAB lacks a field it needs (R260, R310, log entry 13). Safe. Never
  with the default profile. -/
  | missingField (name : FieldName)
  deriving DecidableEq, Repr

/-- The timer at reset: R401, with opm, psc and arr, launch inputs, at the family's power-on values (R402). PRESUMED
(log entry 6). -/
def Timer.reset : Timer :=
  ⟨false, false, false, false, false, false, false, 0#16, 0xFFFF#16, 0#16⟩

/-- The UART at reset: R401, with tdr and rdr, launch inputs, at the family's power-on values (R402). PRESUMED
(log entry 6). IN, the host's input, is empty. DESIGN CHOICE (log entry 5). -/
def Uart.reset : Uart := ⟨true, 0#8, false, 0#9, false, [], []⟩

/-- The machine at the start of a run (R54, R401): the ENGINE reset, nothing in flight on a device, an empty command
store (log entries 5 and 7). -/
def State.reset : State where
  cfg := defaultParams
  prog := []
  pc := 0
  x := Vector.replicate 16 none
  status := 0#32
  desc := .none
  lb := []
  reports := []
  tst := .idle
  cont := .none
  trace := []
  fault := none
  tim := Timer.reset
  odr := 0#16
  uart := Uart.reset
  turns := []
  choices := 0
  draws := 0

end Sys2Proof.Machine
end

