-- ==== Sys2Proof/Machine/Flags.lean ====
section
/-! DEFINITION. The outcome of a command and the STATUS word it writes (10_state.md R33, R34; 60_exceptions.md R351,
R352), the codes of the fault kinds (R357), and the values that show the device flags to a load (20_memory.md R92). -/

namespace Sys2Proof.Machine

open Sys2Proof.Config

/-- The outcome of a completed command (R351). -/
inductive Result where
  | ok
  | invalidField (c : Cause)
  | bufferOverflow (dropped : Nat)
  | pinOperation
  deriving DecidableEq, Repr

/-- CAUSE (R34). -/
def causeCode : Cause → Byte
  | .unknownRegister => 1#8
  | .permissionDenied => 2#8
  | .unknownField => 3#8
  | .reservedBit => 4#8
  | .valueTooWide => 5#8
  | .pinOutOfRange => 6#8

/-- KIND of an outcome (R34). -/
def kindField : Result → Byte
  | .ok => 0#8
  | .invalidField _ => 1#8
  | .bufferOverflow _ => 2#8
  | .pinOperation => 3#8

/-- CAUSE of an outcome (R34). -/
def causeField : Result → Byte
  | .invalidField c => causeCode c
  | .ok | .bufferOverflow _ | .pinOperation => 0#8

/-- COUNT of an outcome, saturated at 0xFFFF (R34, 92_eei_decisions.md D48). -/
def countField : Result → Half
  | .bufferOverflow k => BitVec.ofNat 16 (min k 0xFFFF)
  | .ok | .invalidField _ | .pinOperation => 0#16

/-- The STATUS word of an outcome (R33, R352). -/
def statusWord (o : Result) : Word := countField o ++ causeField o ++ kindField o

/-- The code of a fault kind (R357). -/
def faultCode : FaultKind → Nat
  | .hardFault _ _ _ _ => 1
  | .unmodelledAccess _ _ _ => 2
  | .reservedWrite _ _ => 3
  | .unmodelledDeviceMode _ _ => 4
  | .timerOverrunPeriod _ _ => 4
  | .txOverwrite _ => 5
  | .uartOverrun _ => 6
  | .unwrittenRegister _ => 7
  | .illegalCommand _ => 8
  | .illFormedGroup _ => 9

/-- A flag at bit `i` of a word. -/
def flagAt (b : Bool) (i : Nat) : Word := if b then 1#32 <<< i else 0#32

/-- What a load of TIM CR1 returns (R92). -/
def cr1Value (t : Timer) : Word :=
  flagAt t.cen 0 ||| flagAt t.udis 1 ||| flagAt t.urs 2 ||| flagAt t.opm 3 ||| flagAt t.arpe 7 ||| flagAt t.uifremap 11

/-- What a load of TIM SR returns (R92). -/
def srValue (t : Timer) : Word := flagAt t.uif 0

/-- What a load of UART ISR returns when the draw is `d`: ORE, RXNE and TXE are the device's, every other bit is the
draw's (R92). DESIGN CHOICE (log entry 28): these are R92's bits 3, 5 and 7 in every table; R310 accepts a table whose TXE
or RXNE field is another bit, and the drivers' polls then read a bit of the draw. -/
def isrValue (u : Uart) (d : Word) : Word :=
  (d &&& 0xFFFFFF57#32) ||| flagAt u.ore 3 ||| flagAt u.rxne 5 ||| flagAt u.txe 7

/-- What a store of `v` to TIM CR1 leaves (R93). -/
def storeCr1 (t : Timer) (v : Word) : Timer := { t with cen := v.getLsbD 0, opm := v.getLsbD 3 }

/-- What a store of `v` to TIM SR leaves: writing 0 clears UIF, writing 1 keeps it (R94). -/
def storeSr (t : Timer) (v : Word) : Timer := { t with uif := t.uif && v.getLsbD 0 }

/-- What a set/reset store of `v` makes of the pins (R97). -/
def bsrrPins (both : BsrrBoth) (odr : Half) (v : Word) : Half :=
  let s : Half := v.extractLsb' 0 16
  let c : Half := v.extractLsb' 16 16
  match both with
  | .setWins => (odr &&& ~~~c) ||| s
  | .resetWins => (odr ||| s) &&& ~~~c

end Sys2Proof.Machine
end

