-- ==== Sys2Proof/Machine/Operands.lean ====
section
/-! DEFINITION. The bitfield engine (42_register_field.md R200), the derived masks (10_state.md R44), resolution and
permissions (R201, R202), the staged operations (R206), and the validation of a register table (10_state.md R43). -/

namespace Sys2Proof.Machine

open Sys2Proof.Config

/-- `ones(n)` (00_scope.md R15). -/
def ones (n : Nat) : Word := BitVec.ofNat 32 (2 ^ n - 1)

/-- The size of width code `wc`, none for 3 (30_encoding.md R134). -/
def widthOfCode (wc : BitVec 2) : Option Width :=
  match wc with
  | 0#2 => some .byte
  | 1#2 => some .half
  | 2#2 => some .word
  | _ => none

/-- RO or RW (R202). -/
def readable : Perm → Bool
  | .ro | .rw => true
  | .wo => false

/-- WO or RW (R202). -/
def writable : Perm → Bool
  | .wo | .rw => true
  | .ro => false

/-- `len(f)` (R200). -/
def fieldLen (f : Field) : Nat := f.hi - f.lo + 1

/-- `fieldMask(f)` (R44, R200). -/
def fieldMask (f : Field) : Word := ones (fieldLen f) <<< f.lo

/-- `extract(v, f)` (R200). -/
def extract (v : Word) (f : Field) : Word := (v >>> f.lo) &&& ones (fieldLen f)

/-- `fits(x, f)` (R200). -/
def fits (x : Word) (f : Field) : Bool := x.toNat < 2 ^ fieldLen f

/-- `insert(v, f, x)` (R200). -/
def insertField (v : Word) (f : Field) (x : Word) : Word := (v &&& ~~~fieldMask f) ||| (x <<< f.lo)

/-- The or of the masks of some fields. -/
def maskOf : List Field → Word
  | [] => 0#32
  | f :: fs => fieldMask f ||| maskOf fs

/-- `addr(r)` (R42): base plus offset, two 32-bit numbers. DESIGN CHOICE (log entry 10): the spec does not say what becomes
of a register with base + offset of 2^32 or more; the model accepts no table that has one (`addressFits`), so in an
accepted table the sum here never wraps. -/
def addrOf (r : Reg) : Word := r.base + r.decl.offset

/-- All W bits of a register. -/
def widthMask (r : Reg) : Word := ones r.decl.width.bits

/-- `declaredMask(r)` (R44). -/
def declaredMask (r : Reg) : Word := maskOf r.decl.fields

/-- `reservedMask(r)`: the W bits no field covers (R44). -/
def reservedMask (r : Reg) : Word := widthMask r &&& ~~~declaredMask r

/-- `writableMask(r)` (R44). -/
def writableMask (r : Reg) : Word := maskOf (r.decl.fields.filter fun f => writable f.perm)

/-- `readableMask(r)` (R44). -/
def readableMask (r : Reg) : Word := maskOf (r.decl.fields.filter fun f => readable f.perm)

/-- `woMask(r)` (R44). -/
def woMask (r : Reg) : Word := maskOf (r.decl.fields.filter fun f => f.perm = .wo)

/-- `roMask(r)` (R44). -/
def roMask (r : Reg) : Word := maskOf (r.decl.fields.filter fun f => f.perm = .ro)

/-- `canRead(r)` (R202). -/
def canRead (r : Reg) : Bool := readable r.decl.perm

/-- `canWrite(r)` (R202). -/
def canWrite (r : Reg) : Bool := writable r.decl.perm

/-- The registers of a table, in its order. -/
def regsOf (t : RegTab) : List Reg := t.flatMap fun b => b.regs.map fun d => ⟨b.base, d⟩

/-- The register of block `b` that selector `sel` names: block id in bits 7..4, register index in bits 3..0 (R45). -/
def resolveIn (sel : Byte) (b : Block) : Option Reg :=
  if b.id = sel.extractLsb' 4 4 then
    (b.regs.find? fun d => d.idx = sel.extractLsb' 0 4).map fun d => ⟨b.base, d⟩
  else none

/-- `resolve(sel)` (R45, R201): the register of the table that `sel` names, none only if no block has one. DESIGN CHOICE
(log entry 21): where a table gives two registers one block id and index, the first in table order. -/
def resolve (t : RegTab) (sel : Byte) : Option Reg := t.findSome? (resolveIn sel)

/-- `field(r, i)` (R201). -/
def fieldAt (r : Reg) (i : Byte) : Option Field := r.decl.fields[i.toNat]?

/-- The register of the table with a given name (R260, R290, R310); the first, where a table gives two registers one name
(DESIGN CHOICE, log entry 21). -/
def regNamed (t : RegTab) (n : RegName) : Option Reg := (regsOf t).find? fun r => r.decl.name = n

/-- The field of a register with a given name. -/
def fieldNamed (r : Reg) (n : FieldName) : Option Field := r.decl.fields.find? fun f => f.name = n

/-- One staged operation on a value of register `r` (R206). -/
def applyOp (r : Reg) (v : Word) : StagedOp → Word
  | .set f x => insertField v f x
  | .xor f x => v ^^^ (x <<< f.lo)
  | .bits x => (v &&& ~~~writableMask r) ||| x

/-- `apply(ops, v)`, in staging order (R206). -/
def applyOps (r : Reg) : List StagedOp → Word → Word
  | [], v => v
  | o :: rest, v => applyOps r rest (applyOp r v o)

/-- The base value of a modify that read `v` (R207, R218). -/
def modifyBase (r : Reg) (v : Word) : Word := (v &&& readableMask r) ||| (r.decl.wdef &&& woMask r)

/-- `BACKED(addr)` (R11, R88). -/
def backedAt (c : Params) (addr : Word) : Bool :=
  c.backed.any fun a => decide (a.base ≤ addr.toNat) && decide (addr.toNat < a.base + a.len)

/-- The byte ranges `[a, a + n)` and `[b, b + m)` share an address (R43, R88). -/
def rangesMeet (a n b m : Nat) : Bool := decide (a < b + m) && decide (b < a + n)

/-- The declared register that a transaction of `n` bytes at `addr` overlaps (R88). -/
def overlapped (t : RegTab) (addr : Word) (n : Width) : Option Reg :=
  (regsOf t).find? fun r => rangesMeet addr.toNat n.bytes (addrOf r).toNat r.decl.width.bytes

/-- A permission contains another: RW contains all three (R43 (e)). -/
def permContains : Perm → Perm → Bool
  | .rw, _ => true
  | .ro, p => p = .ro
  | .wo, p => p = .wo

/-- Every two elements of a list, the earlier first, satisfy `p`. -/
def pairwise {α : Type} (p : α → α → Bool) : List α → Bool
  | [] => true
  | a :: l => l.all (p a) && pairwise p l

/-- Two fields share no bit (R43 (d)). -/
def fieldsDisjoint (f g : Field) : Bool := decide (f.hi < g.lo) || decide (g.hi < f.lo)

/-- Two registers' byte ranges do not overlap (R43 (b)). -/
def regsDisjoint (r q : Reg) : Bool :=
  !rangesMeet (addrOf r).toNat r.decl.width.bytes (addrOf q).toNat q.decl.width.bytes

/-- R43 (a): the address is a multiple of W/8. -/
def alignedReg (r : Reg) : Bool := decide ((addrOf r).toNat % r.decl.width.bytes = 0)

/-- The address is a 32-bit number (00_scope.md R11 ADDR_BITS, R14; DESIGN CHOICE, log entry 10). -/
def addressFits (r : Reg) : Bool := decide (r.base.toNat + r.decl.offset.toNat < 2 ^ 32)

/-- R42 `lo <= hi` and R43 (c) `hi < W`. -/
def fieldsInRange (r : Reg) : Bool :=
  r.decl.fields.all fun f => decide (f.lo ≤ f.hi) && decide (f.hi < r.decl.width.bits)

/-- R43 (d). -/
def fieldsApart (r : Reg) : Bool := pairwise fieldsDisjoint r.decl.fields

/-- R43 (e). -/
def fieldPermsContained (r : Reg) : Bool := r.decl.fields.all fun f => permContains r.decl.perm f.perm

/-- R42: the write-default is a W-bit value; R43 (f): it sets no reserved bit. -/
def wdefLegal (r : Reg) : Bool :=
  decide (r.decl.wdef &&& ~~~widthMask r = 0#32) && decide (r.decl.wdef &&& reservedMask r = 0#32)

/-- R43 (a), (c), (d), (e), (f) for one register. -/
def regLegal (r : Reg) : Bool :=
  alignedReg r && fieldsInRange r && fieldsApart r && fieldPermsContained r && wdefLegal r

/-- R42: at most 16 blocks of at most 16 registers. -/
def tableSizeLegal (t : RegTab) : Bool :=
  decide (t.length ≤ 16) && t.all fun b => decide (b.regs.length ≤ 16)

/-- R42: a block's device registers carry the block's own name (log entry 12). -/
def namesAgree (b : Block) : Bool :=
  b.regs.all fun d =>
    match d.name.block with
    | some n => decide (n = b.name)
    | none => true

/-- What R42 asks of a table as a whole: its size, its names, and addresses of 32 bits (log entry 10). -/
def tableShapeLegal (t : RegTab) : Bool := tableSizeLegal t && t.all namesAgree && (regsOf t).all addressFits

/-- A model accepts these parameters (R42, R43 (a) to (g), and R11's range of `C`). -/
def accepted (c : Params) : Bool :=
  tableShapeLegal c.regtab && (regsOf c.regtab).all regLegal && pairwise regsDisjoint (regsOf c.regtab) &&
  ((regsOf c.regtab).all fun r => backedAt c (addrOf r)) &&
  (decide (1 ≤ c.capacity) && decide (c.capacity ≤ 65535))

/-- The table has register `n`, and `p` holds of it. -/
def hasReg (t : RegTab) (n : RegName) (p : Reg → Bool) : Bool :=
  match regNamed t n with
  | some r => p r
  | none => false

/-- Register `r` has field `n`, and `p` holds of it. -/
def hasField (r : Reg) (n : FieldName) (p : Field → Bool) : Bool :=
  match fieldNamed r n with
  | some f => p f
  | none => false

/-- What R260 asks of a table. -/
def timerTable (t : RegTab) : Bool :=
  hasReg t .timCr1 (fun r => hasField r .cen (fun f => f.perm = .rw) && hasField r .opm fun f => f.perm = .rw) &&
  hasReg t .timSr (fun r => hasField r .uif fun f => f.perm = .rw) &&
  hasReg t .timArr (fun r => hasField r .arr fun f => f.perm = .rw)

/-- What R290 asks of a table. -/
def gpioTable (t : RegTab) : Bool :=
  hasReg t .gpioBsrr fun r =>
    decide (r.decl.perm = .wo) &&
    (List.range 16).all fun i =>
      decide (r.decl.fields[i]? = some (bitField (.bs i) i .wo)) &&
      decide (r.decl.fields[16 + i]? = some (bitField (.br i) (16 + i) .wo))

/-- What R310 and R311 ask of a table. -/
def uartTable (t : RegTab) : Bool :=
  hasReg t .uartIsr (fun r =>
    canRead r && hasField r .txe (fun f => readable f.perm && decide (f.lo = f.hi)) &&
    hasField r .rxne fun f => readable f.perm && decide (f.lo = f.hi)) &&
  hasReg t .uartRdr (fun r =>
    canRead r && hasField r .rdr fun f => readable f.perm && decide (f.lo = 0) && decide (7 ≤ f.hi)) &&
  hasReg t .uartTdr (fun r =>
    canWrite r && hasField r .tdr fun f => writable f.perm && decide (f.lo = 0) && decide (7 ≤ f.hi))

end Sys2Proof.Machine
end

