-- ==== Sys2Proof/Machine/Ops.lean ====
section
/-! DEFINITION. The named operations every command is built from: result registers (10_state.md R31), raising a fault
(60_exceptions.md R356), completion (R352), the two bus primitives (20_memory.md R88 to R99), the group check
(42_register_field.md R219, 60_exceptions.md R350), and the field model's write and modify (42_register_field.md R207). -/

namespace Sys2Proof.Machine

open Sys2Proof.Config

/-- Why a step's computation stops before its end: it raises a fault (R356), or the model refuses it. -/
inductive Stop where
  | raise (k : FaultKind)
  | refuse (r : Refusal)
  deriving DecidableEq, Repr

/-- TAKING A FAULT (R356): FAULT records the kind, its info and the pc; nothing else of the state changes. -/
def State.raise (s : State) (k : FaultKind) : State := { s with fault := some ⟨k, s.pc⟩ }

/-- The end of a step that began in `s`: its result, or `s` with FAULT set, whatever the step computed before it stopped
(R356 "nothing else of that step happens"). -/
def commit (s : State) : Except Stop State → Host.Outcome State Fault Refusal
  | .ok t => .next t
  | .error (.raise k) => .next (s.raise k)
  | .error (.refuse r) => .refused r

/-- `x[i]` read: faults if Xi holds no value (R17, R31). -/
def getX (s : State) (i : RegIx) : Except Stop Word :=
  match s.x[i.toNat]'i.isLt with
  | some v => .ok v
  | none => .error (.raise (.unwrittenRegister i))

/-- `x[i] <- v` (R17). -/
def State.setX (s : State) (i : RegIx) (v : Word) : State := { s with x := s.x.set i.toNat (some v) i.isLt }

/-- `CONT <- none; pc <- pc + 1`: how the commands end that do not write STATUS (R352). -/
def State.advance (s : State) : State := { s with cont := .none, pc := s.pc + 1 }

/-- `complete(o)` (R352). -/
def State.complete (s : State) (o : Result) : State := { s with status := statusWord o, cont := .none, pc := s.pc + 1 }

/-- `report Err(InvalidFieldError, c)` (R352). -/
def State.report (s : State) (c : Cause) : State := s.complete (.invalidField c)

/-- The value of the next `draw()` (R17): a free value (log entry 4). -/
def State.nextDraw (s : State) : Word := draw s.draws

/-- The state after a `draw()`. -/
def State.drawn (s : State) : State := { s with draws := s.draws + 1 }

/-- `TRACE <- TRACE ++ [e]` (R90, R91). -/
def State.log (s : State) (e : BusEvent) : State := { s with trace := s.trace ++ [e] }

/-- Where a transaction goes: a declared register, or an undeclared backed address (`none`); or its fault (R88). -/
def classify (c : Params) (addr : Word) (n : Width) (dir : Dir) : Except Stop (Option Reg) :=
  if backedAt c addr = false then .error (.raise (.hardFault addr n dir false))
  else if addr.toNat % n.bytes ≠ 0 then .error (.raise (.hardFault addr n dir true))
  else
    match overlapped c.regtab addr n with
    | some r =>
      if addrOf r = addr ∧ r.decl.width = n then .ok (some r)
      else .error (.raise (.unmodelledAccess addr n dir))
    | none => .ok none

/-- The value `v` of R92, as register `r` of W bits shows it. A value that W bits do not hold, which only a table with a
narrower register than the profile's can ask for, is one the spec does not state: a free value of W bits (log entry 23). -/
def shown (s : State) (r : Reg) (v : Word) : Word × State :=
  if v &&& ~~~widthMask r = 0#32 then (v, s) else (s.nextDraw &&& widthMask r, s.drawn)

/-- `DeviceLoad(r)` (R92), as a value of W bits (R84). DESIGN CHOICE: the device goes by the register's name, so two
registers of one name, which R42 and R43 allow, show the one device (log entry 21), and it has its bits where R92 puts
them, wherever the table puts its fields (log entry 28). A register that is no device register is refused (log entry
12). -/
def deviceLoad (s : State) (r : Reg) : Except Stop (Word × State) :=
  match r.decl.name with
  | .timCr1 => .ok (shown s r (cr1Value s.tim))
  | .timSr => .ok (shown s r (srValue s.tim))
  | .timPsc => .ok (shown s r (s.tim.psc.setWidth 32))
  | .timArr => .ok (shown s r (s.tim.arr.setWidth 32))
  | .gpioOdr => .ok (shown s r (s.odr.setWidth 32))
  | .gpioBsrr => .ok (s.nextDraw &&& widthMask r, s.drawn)
  | .uartIsr => .ok (isrValue s.uart s.nextDraw &&& widthMask r, s.drawn)
  | .uartRdr => .ok (shown { s with uart := { s.uart with rxne := false } } r (s.uart.rdr.setWidth 32))
  | .uartTdr => .ok (s.nextDraw &&& widthMask r, s.drawn)
  | .other l => .error (.refuse (.unknownDevice (.other l)))

/-- The device guards and `DeviceStore(r, v)` (R93 to R98), by the register's name, whatever its width. DESIGN CHOICE (log
entry 25): at a register of W bits narrower than the slice a rule takes (`v[15:0]`, `v[31:16]`, `v[11]`, `v[8]`), the
spec does not say what the bits of `v` from W up are; the model takes them as 0. Two registers of one name store to the
one device (log entry 21), and the bits are those of R93 to R98, wherever the table puts its fields (log entry 28). A
register that is no device register, or is one the profile declares read-only, is refused (log entry 12). -/
def deviceStore (s : State) (r : Reg) (v : Word) : Except Stop State :=
  match r.decl.name with
  | .timCr1 =>
    if v.getLsbD 1 || v.getLsbD 2 || v.getLsbD 7 || v.getLsbD 11 then
      .error (.raise (.unmodelledDeviceMode .timCr1 v))
    else .ok { s with tim := storeCr1 s.tim v }
  | .timSr => .ok { s with tim := storeSr s.tim v }
  | .timPsc => .ok { s with tim := { s.tim with psc := v.extractLsb' 0 16 } }
  | .timArr => .ok { s with tim := { s.tim with arr := v.extractLsb' 0 16 } }
  | .gpioOdr => .ok { s with odr := v.extractLsb' 0 16 }
  | .gpioBsrr => .ok { s with odr := bsrrPins s.cfg.bsrrBoth s.odr v }
  | .uartTdr =>
    if s.uart.txe = false then .error (.raise (.txOverwrite v))
    else if v.getLsbD 8 then .error (.raise (.unmodelledDeviceMode .uartTdr v))
    else .ok { s with uart := { s.uart with tdr := v.extractLsb' 0 8, txe := false } }
  | .uartIsr => .error (.refuse (.unknownDevice .uartIsr))
  | .uartRdr => .error (.refuse (.unknownDevice .uartRdr))
  | .other l => .error (.refuse (.unknownDevice (.other l)))

/-- `MemRead(addr, n)` (R90): the value and the state after the transaction. -/
def memRead (s : State) (addr : Word) (n : Width) : Except Stop (Word × State) :=
  match classify s.cfg addr n .load with
  | .error e => .error e
  | .ok none =>
    .ok (s.nextDraw &&& ones n.bits, s.drawn.log (.load addr n (s.nextDraw &&& ones n.bits)))
  | .ok (some r) =>
    match deviceLoad s r with
    | .error e => .error e
    | .ok (v, t) => .ok (v, t.log (.load addr n v))

/-- `MemWrite(addr, n, v)` (R91, R99). -/
def memWrite (s : State) (addr : Word) (n : Width) (v : Word) : Except Stop State :=
  match classify s.cfg addr n .store with
  | .error e => .error e
  | .ok none => .error (.raise (.unmodelledAccess addr n .store))
  | .ok (some r) =>
    if r.decl.perm = .ro then .error (.raise (.unmodelledAccess addr n .store))
    else if v &&& reservedMask r ≠ 0#32 then .error (.raise (.reservedWrite addr v))
    else
      match deviceStore s r v with
      | .error e => .error e
      | .ok t => .ok (t.log (.store addr n v))

/-- A command that may not stand in a descriptor group: IllFormedGroup if DESC is open (R219, R350). -/
def outsideGroup (s : State) (i : Instr) (body : Except Stop State) : Host.Outcome State Fault Refusal :=
  match s.desc with
  | .none => commit s body
  | .opened _ _ _ => .next (s.raise (.illFormedGroup (some (encode i))))

/-- A staging command, WRITE or MODIFY: IllFormedGroup if DESC is none (R219, R350). -/
def insideGroup (s : State) (i : Instr)
    (body : Option Reg → List StagedOp → Option Cause → Except Stop State) : Host.Outcome State Fault Refusal :=
  match s.desc with
  | .none => .next (s.raise (.illFormedGroup (some (encode i))))
  | .opened r ops poison => commit s (body r ops poison)

/-- The register a driver command needs (R260, R290, R310); refused if the table has none (log entry 13). -/
def needReg (s : State) (n : RegName) : Except Stop Reg :=
  match regNamed s.cfg.regtab n with
  | some r => .ok r
  | none => .error (.refuse (.missingRegister n))

/-- The field a driver command needs (R260, R310); refused if the register has none (log entry 13). -/
def needField (r : Reg) (n : FieldName) : Except Stop Field :=
  match fieldNamed r n with
  | some f => .ok f
  | none => .error (.refuse (.missingField n))

/-- `write(r, ops)` (R207): one store. -/
def writeReg (s : State) (r : Reg) (ops : List StagedOp) : Except Stop State :=
  memWrite s (addrOf r) r.decl.width (applyOps r ops r.decl.wdef)

/-- The first step of `modify(r, ops)` (R207): one load. -/
def modifyLoad (s : State) (r : Reg) (ops : List StagedOp) (next : AfterModify) : Except Stop State := do
  let (v, t) ← memRead s (addrOf r) r.decl.width
  .ok { t with cont := .modifyStore r ops v next }

/-- What follows a modify's store (R218, R260): the command completes, or a delay goes on to its poll. TST changes with
the last transaction of the procedure when the command ends there (00_scope.md R18). -/
def afterModify (s : State) : AfterModify → State
  | .group => s.complete .ok
  | .started false => { s with tst := .counting }.complete .ok
  | .started true => { s with cont := .pollUif true }
  | .acknowledged => { s with tst := .idle }.complete .ok

/-- The second step of `modify(r, ops)` (R207): one store, of the value computed from the value read. -/
def modifyStore (s : State) (r : Reg) (ops : List StagedOp) (v : Word) (next : AfterModify) : Except Stop State := do
  let t ← memWrite s (addrOf r) r.decl.width (applyOps r ops (modifyBase r v))
  .ok (afterModify t next)

end Sys2Proof.Machine
end

