-- ==== Sys2Proof/Machine/Devices.lean ====
section
/-! DEFINITION. The device agents (60_exceptions.md R370, R372, R373). -/

namespace Sys2Proof.Machine

open Sys2Proof.Config

/-- TIMER has a step (R370). -/
def timerEnabled (s : State) : Bool := s.fault.isNone && s.tim.cen && s.tim.arr != 0#16

/-- UART_TX has a step (R372). -/
def uartTxEnabled (s : State) : Bool := s.fault.isNone && !s.uart.txe

/-- UART_RX has a step (R373). -/
def uartRxEnabled (s : State) : Bool :=
  s.fault.isNone && !s.uart.input.isEmpty && (!s.cfg.rxPaced || !s.uart.rxne)

/-- The timer after a tick that is no fault (R370). -/
def tickTimer (t : Timer) : Timer :=
  if t.cnt + 1#16 = t.arr then { t with uif := true, cnt := 0#16, cen := t.cen && !t.opm }
  else { t with cnt := t.cnt + 1#16 }

/-- A tick (R370). -/
def timerTick (s : State) : State :=
  if s.tim.arr.toNat ≤ s.tim.cnt.toNat then s.raise (.timerOverrunPeriod s.tim.cnt s.tim.arr)
  else { s with tim := tickTimer s.tim }

/-- The transmitter's step (R372). -/
def uartTxDrain (s : State) : State :=
  { s with uart := { s.uart with output := s.uart.output ++ [s.uart.tdr], txe := true } }

/-- The receiver's step (R373). -/
def uartRxArrive (s : State) : State :=
  match s.uart.input with
  | [] => s
  | b :: rest =>
    if s.uart.rxne then s.raise (.uartOverrun b)
    else { s with uart := { s.uart with input := rest, rdr := b.setWidth 9, rxne := true } }

end Sys2Proof.Machine
end

