-- ==== Sys2Proof/Machine/Fields.lean ====
section
/-! DEFINITION. The Register Field Model's commands (42_register_field.md R210 to R220). -/

namespace Sys2Proof.Machine

open Sys2Proof.Config

/-- RREAD (R210). -/
def execRread (d : RegIx) (sel : Byte) (s : State) : Host.Outcome State Fault Refusal :=
  outsideGroup s (.rread d sel) <|
    match resolve s.cfg.regtab sel with
    | none => .ok (s.report .unknownRegister)
    | some r =>
      if canRead r = false then .ok (s.report .permissionDenied)
      else do
        let (v, t) ← memRead s (addrOf r) r.decl.width
        .ok ((t.setX d v).complete .ok)

/-- RFIELD (R211). -/
def execRfield (d : RegIx) (sel fld : Byte) (s : State) : Host.Outcome State Fault Refusal :=
  outsideGroup s (.rfield d sel fld) <|
    match resolve s.cfg.regtab sel with
    | none => .ok (s.report .unknownRegister)
    | some r =>
      if canRead r = false then .ok (s.report .permissionDenied)
      else
        match fieldAt r fld with
        | none => .ok (s.report .unknownField)
        | some f =>
          if readable f.perm = false then .ok (s.report .permissionDenied)
          else do
            let (v, t) ← memRead s (addrOf r) r.decl.width
            .ok ((t.setX d (extract v f)).complete .ok)

/-- DBEGIN (R212). -/
def execDbegin (sel : Byte) (s : State) : Host.Outcome State Fault Refusal :=
  outsideGroup s (.dbegin sel) <|
    match resolve s.cfg.regtab sel with
    | none => .ok { s with desc := .opened none [] (some .unknownRegister) }.advance
    | some r => .ok { s with desc := .opened (some r) [] none }.advance

/-- DESC after the staging of `mk f t` for field index `i` (R213 to R215, R220). A group with an unknown register is
already poisoned (R212); were it not, it would be poisoned here. -/
def stageField (r : Option Reg) (ops : List StagedOp) (poison : Option Cause) (i : Byte) (t : Word)
    (mk : Field → Word → StagedOp) : Desc :=
  match poison, r with
  | some c, r => .opened r ops (some c)
  | none, none => .opened none ops (some .unknownRegister)
  | none, some r =>
    match fieldAt r i with
    | none => .opened (some r) ops (some .unknownField)
    | some f =>
      if writable f.perm = false then .opened (some r) ops (some .permissionDenied)
      else if fits t f = false then .opened (some r) ops (some .valueTooWide)
      else .opened (some r) (ops ++ [mk f t]) none

/-- DESC after the staging of `BITS(t)` (R216, R220). -/
def stageBits (r : Option Reg) (ops : List StagedOp) (poison : Option Cause) (t : Word) : Desc :=
  match poison, r with
  | some c, r => .opened r ops (some c)
  | none, none => .opened none ops (some .unknownRegister)
  | none, some r =>
    if t &&& declaredMask r &&& ~~~writableMask r ≠ 0#32 then .opened (some r) ops (some .permissionDenied)
    else if t &&& reservedMask r ≠ 0#32 then .opened (some r) ops (some .reservedBit)
    else if 2 ^ r.decl.width.bits ≤ t.toNat then .opened (some r) ops (some .valueTooWide)
    else .opened (some r) (ops ++ [.bits t]) none

/-- DSET (R213): the operand register is read even in a poisoned group. -/
def execDset (v : RegIx) (fld : Byte) (s : State) : Host.Outcome State Fault Refusal :=
  insideGroup s (.dset v fld) fun r ops poison => do
    let t ← getX s v
    .ok { s with desc := stageField r ops poison fld t .set }.advance

/-- DSETI (R214). -/
def execDseti (fld : Byte) (imm : Half) (s : State) : Host.Outcome State Fault Refusal :=
  insideGroup s (.dseti fld imm) fun r ops poison =>
    .ok { s with desc := stageField r ops poison fld (imm.setWidth 32) .set }.advance

/-- DXOR (R215). -/
def execDxor (v : RegIx) (fld : Byte) (s : State) : Host.Outcome State Fault Refusal :=
  insideGroup s (.dxor v fld) fun r ops poison => do
    let t ← getX s v
    .ok { s with desc := stageField r ops poison fld t .xor }.advance

/-- DBITS (R216). -/
def execDbits (v : RegIx) (s : State) : Host.Outcome State Fault Refusal :=
  insideGroup s (.dbits v) fun r ops poison => do
    let t ← getX s v
    .ok { s with desc := stageBits r ops poison t }.advance

/-- WRITE (R217). -/
def execWrite (s : State) : Host.Outcome State Fault Refusal :=
  insideGroup s .write fun r ops poison =>
    match r with
    | none => .ok ({ s with desc := .none }.report .unknownRegister)
    | some r =>
      if canWrite r = false then .ok ({ s with desc := .none }.report .permissionDenied)
      else
        match poison with
        | some c => .ok ({ s with desc := .none }.report c)
        | none => do
          let t ← writeReg { s with desc := .none } r ops
          .ok (t.complete .ok)

/-- The first step of MODIFY (R218); `modifyStore` is the second. -/
def execModify (s : State) : Host.Outcome State Fault Refusal :=
  insideGroup s .modify fun r ops poison =>
    match r with
    | none => .ok ({ s with desc := .none }.report .unknownRegister)
    | some r =>
      if (canRead r && canWrite r) = false then .ok ({ s with desc := .none }.report .permissionDenied)
      else
        match poison with
        | some c => .ok ({ s with desc := .none }.report c)
        | none => modifyLoad { s with desc := .none } r ops .group

end Sys2Proof.Machine
end

