-- ==== Sys2Proof/Machine/Gpio.lean ====
section
/-! DEFINITION. The GPIO Output Driver's commands PON and POFF (44_gpio.md R290 to R295). -/

namespace Sys2Proof.Machine

open Sys2Proof.Config

/-- The end of PON and POFF (R293): with PIN_ERROR_POSSIBLE the outcome is a draw between OK and PinOperationError (bit
0 of the draw decides, log entry 17), otherwise OK. -/
def completePin (s : State) : State :=
  if s.cfg.pinErrorPossible then
    s.drawn.complete (if s.nextDraw.getLsbD 0 then .pinOperation else .ok)
  else s.complete .ok

/-- PON and POFF for pin `p`: the one store sets bit `bit` of BSRR (R290 to R292). DESIGN CHOICE (log entry 27): the value
stored is `1 << bit` alone, as R291 and R292 write it; by R290's `write` and R207 it would hold BSRR's write-default too,
which is 0 in the profile and which no rule bounds in another table. -/
def pinStore (s : State) (p : Half) (bit : Nat) : Except Stop State :=
  if 16 ≤ p.toNat then .ok (s.report .pinOutOfRange)
  else do
    let r ← needReg s .gpioBsrr
    let t ← memWrite s (addrOf r) r.decl.width (1#32 <<< bit)
    .ok (completePin t)

/-- PON (R291). -/
def execPon (imm : Half) (s : State) : Host.Outcome State Fault Refusal :=
  outsideGroup s (.pon imm) (pinStore s imm imm.toNat)

/-- POFF (R292). -/
def execPoff (imm : Half) (s : State) : Host.Outcome State Fault Refusal :=
  outsideGroup s (.poff imm) (pinStore s imm (imm.toNat + 16))

end Sys2Proof.Machine
end

