-- ==== Sys2Proof/Machine/Immediate.lean ====
section
/-! DEFINITION. The operand commands LI, LIH and GETS (40_operand.md R170 to R172). -/

namespace Sys2Proof.Machine

/-- LI (R170). -/
def execLi (d : RegIx) (imm : Half) (s : State) : Host.Outcome State Fault Refusal :=
  outsideGroup s (.li d imm) (.ok ((s.setX d (imm.setWidth 32)).complete .ok))

/-- LIH (R171). -/
def execLih (d : RegIx) (imm : Half) (s : State) : Host.Outcome State Fault Refusal :=
  outsideGroup s (.lih d imm) do
    let t ← getX s d
    .ok ((s.setX d ((imm.setWidth 32 <<< 16) ||| (t.extractLsb' 0 16).setWidth 32)).complete .ok)

/-- GETS (R172): STATUS is read and not written. -/
def execGets (d : RegIx) (s : State) : Host.Outcome State Fault Refusal :=
  outsideGroup s (.gets d) (.ok (s.setX d s.status).advance)

end Sys2Proof.Machine
end

