-- ==== Sys2Proof/Machine/Serial.lean ====
section
/-! DEFINITION. The Serial Driver and its line framing (45_uart.md R310 to R319): its procedures, one step at a time, and
the commands USEND, USENDI, URECV, ULINE, LREV and USENDL. -/

namespace Sys2Proof.Machine

open Sys2Proof.Config

/-- One load of `send_byte(b)`'s poll of TXE (R310); `rest` is what is sent after `b` (R317). -/
def sendPoll (s : State) (b : Byte) (rest : List Byte) : Except Stop State := do
  let r ← needReg s .uartIsr
  let f ← needField r .txe
  let (v, t) ← memRead s (addrOf r) r.decl.width
  .ok { t with cont := if extract v f = 1#32 then .sendStore b rest else .sendPoll b rest }

/-- The store of `send_byte(b)` (R310); then the next byte's poll, or the command completes (R317). -/
def sendStore (s : State) (b : Byte) (rest : List Byte) : Except Stop State := do
  let r ← needReg s .uartTdr
  let f ← needField r .tdr
  let t ← writeReg s r [.set f (b.setWidth 32)]
  .ok (match rest with
    | [] => t.complete .ok
    | c :: cs => { t with cont := .sendPoll c cs })

/-- `LB <- LB ++ [b]`, if a byte has been received for the line (R315). -/
def keepByte (s : State) : Option Byte → State
  | none => s
  | some b => { s with lb := s.lb ++ [b] }

/-- One load of `receive_byte()`'s poll of RXNE (R311). It also carries ULINE's append of the byte received before, the
computation between that byte's RDR load and this load (00_scope.md R18, R315). -/
def recvPoll (s : State) (k : Receive) (kept : Option Byte) : Except Stop State := do
  let r ← needReg s .uartIsr
  let f ← needField r .rxne
  let (v, t) ← memRead (keepByte s kept) (addrOf r) r.decl.width
  .ok { t with cont := if extract v f = 1#32 then .recvLoad k else .recvPoll k none }

/-- The end of a line: the length to Xd, and OK or BufferOverflowError (R315). -/
def endLine (s : State) (d : RegIx) (dropped : Nat) : State :=
  (s.setX d (BitVec.ofNat 32 s.lb.length)).complete (if dropped = 0 then .ok else .bufferOverflow dropped)

/-- What a received byte does (R314, R315): it is URECV's result, or ends the line, or is reported as dropped, at this
step, that of the RDR load; a byte to be kept is appended at the next step (00_scope.md R18). -/
def received (s : State) (b : Byte) : Receive → State
  | .byte d => (s.setX d (b.setWidth 32)).complete .ok
  | .line d k =>
    if b = term then endLine s d k
    else if s.lb.length < s.cfg.capacity then { s with cont := .recvPoll (.line d k) (some b) }
    else { s with reports := s.reports ++ [.overflow b], cont := .recvPoll (.line d (k + 1)) none }

/-- The load of RDR (R311), which clears RXNE (20_memory.md R92), and what is done with its byte. -/
def recvLoad (s : State) (k : Receive) : Except Stop State := do
  let r ← needReg s .uartRdr
  let f ← needField r .rdr
  let (v, t) ← memRead s (addrOf r) r.decl.width
  .ok (received t ((extract v f).extractLsb' 0 8) k)

/-- USEND (R312). -/
def execUsend (v : RegIx) (s : State) : Host.Outcome State Fault Refusal :=
  outsideGroup s (.usend v) do
    let t ← getX s v
    if 0xFF < t.toNat then .ok (s.report .valueTooWide) else sendPoll s (t.extractLsb' 0 8) []

/-- USENDI (R313). -/
def execUsendi (imm8 : Byte) (s : State) : Host.Outcome State Fault Refusal :=
  outsideGroup s (.usendi imm8) (sendPoll s imm8 [])

/-- URECV (R314). -/
def execUrecv (d : RegIx) (s : State) : Host.Outcome State Fault Refusal :=
  outsideGroup s (.urecv d) (recvPoll s (.byte d) none)

/-- ULINE (R315): the line buffer is cleared at the start of each line. -/
def execUline (d : RegIx) (s : State) : Host.Outcome State Fault Refusal :=
  outsideGroup s (.uline d) (recvPoll { s with lb := [] } (.line d 0) none)

/-- LREV (R316). -/
def execLrev (s : State) : Host.Outcome State Fault Refusal :=
  outsideGroup s .lrev (.ok ({ s with lb := s.lb.reverse }.complete .ok))

/-- USENDL (R317). -/
def execUsendl (s : State) : Host.Outcome State Fault Refusal :=
  outsideGroup s .usendl <|
    match s.lb with
    | [] => .ok (s.complete .ok)
    | b :: rest => sendPoll s b rest

end Sys2Proof.Machine
end

