-- ==== Sys2Proof/Machine/Timer.lean ====
section
/-! DEFINITION. The Timer Delay Driver (43_timer.md R260 to R268): its procedures, one step at a time, and the commands
TSTART, TSTARTI, TPOLL, TACK, DELAY and DELAYI. A command's `exec` is its first step; `startModify`, `pollUif`,
`ackModify` and `modifyStore` (Ops) are the later ones. -/

namespace Sys2Proof.Machine

open Sys2Proof.Config

/-- The period `start(n)` puts into field `f`: `n`, if it fits. An `n` that does not, which only TSTARTI and DELAYI can
give and only in a table whose period field has fewer than 16 bits, is a case R262 takes to be none: the spec states no
stored value, and the model takes a free value of the field (DESIGN CHOICE, log entry 24). -/
def periodFor (s : State) (f : Field) (n : Word) : Word :=
  if fits n f then n else s.nextDraw &&& ones (fieldLen f)

/-- The first step of `start(n)` (R260): the period is stored to ARR. -/
def startTimer (s : State) (n : Word) (delay : Bool) : Except Stop State := do
  let r ← needReg s .timArr
  let f ← needField r .arr
  let t ← writeReg s r [.set f (periodFor s f n)]
  .ok { t with draws := if fits n f then t.draws else t.draws + 1, cont := .startModify delay }

/-- The second step of `start(n)` (R260): CR1 is loaded, to be stored with OPM and CEN set. -/
def startModify (s : State) (delay : Bool) : Except Stop State := do
  let r ← needReg s .timCr1
  let fo ← needField r .opm
  let fe ← needField r .cen
  modifyLoad s r [.set fo 1#32, .set fe 1#32] (.started delay)

/-- One load of `poll()` (R260). Inside a delay the poll's first step also carries `TST <- Counting`, the computation
between the start's last transaction and this one (00_scope.md R18, log entry 9). -/
def pollUif (s : State) (delay : Bool) : Except Stop State := do
  let r ← needReg s .timSr
  let f ← needField r .uif
  let (v, t) ← memRead (if delay then { s with tst := .counting } else s) (addrOf r) r.decl.width
  .ok (if extract v f = 1#32 then
      (if delay then { t with cont := .ackModify } else { t with tst := .expired }.complete .ok)
    else { t with cont := .pollUif delay })

/-- The first step of `acknowledge()` (R260): SR is loaded, to be stored with UIF clear. -/
def ackLoad (s : State) : Except Stop State := do
  let r ← needReg s .timSr
  let f ← needField r .uif
  modifyLoad s r [.set f 0#32] .acknowledged

/-- The first step of a delay's acknowledge; it also carries the poll's `TST <- Expired` (00_scope.md R18, log entry 9). -/
def ackModify (s : State) : Except Stop State := ackLoad { s with tst := .expired }

/-- TSTART's and DELAY's first step after the check that `n` fits the period field (R204, R261, R265). DESIGN CHOICE (log
entry 26): the check is the pseudocode's `fits(n, TIM.ARR.ARR)`; that it means `n > 0xFFFF`, as R261 and R265 also say,
holds of the profile's 16-bit field and of no wider one, which R260 accepts too. -/
def checkedStart (s : State) (n : Word) (delay : Bool) : Except Stop State := do
  let r ← needReg s .timArr
  let f ← needField r .arr
  if fits n f = false then .ok (s.report .valueTooWide)
  else if delay && n == 0#32 then .ok (s.complete .ok)
  else startTimer s n delay

/-- TSTART (R261). -/
def execTstart (v : RegIx) (s : State) : Host.Outcome State Fault Refusal :=
  outsideGroup s (.tstart v) do
    let n ← getX s v
    checkedStart s n false

/-- TSTARTI (R262): no width check; it always completes with OK (R353). -/
def execTstarti (imm : Half) (s : State) : Host.Outcome State Fault Refusal :=
  outsideGroup s (.tstarti imm) (startTimer s (imm.setWidth 32) false)

/-- TPOLL (R263). -/
def execTpoll (s : State) : Host.Outcome State Fault Refusal := outsideGroup s .tpoll (pollUif s false)

/-- TACK (R264). -/
def execTack (s : State) : Host.Outcome State Fault Refusal := outsideGroup s .tack (ackLoad s)

/-- DELAY (R265). -/
def execDelay (v : RegIx) (s : State) : Host.Outcome State Fault Refusal :=
  outsideGroup s (.delay v) do
    let n ← getX s v
    checkedStart s n true

/-- DELAYI (R266): no width check; it always completes with OK (R353). -/
def execDelayi (imm : Half) (s : State) : Host.Outcome State Fault Refusal :=
  outsideGroup s (.delayi imm)
    (if imm = 0#16 then .ok (s.complete .ok) else startTimer s (imm.setWidth 32) true)

end Sys2Proof.Machine
end

