-- ==== Sys2Proof/Machine/Volatile.lean ====
section
/-! DEFINITION. The Volatile Access Primitive's commands LDV and STV (41_volatile.md R180 to R183). -/

namespace Sys2Proof.Machine

/-- LDV (R181). Width code 3 is no command (30_encoding.md R138; log entry 14). -/
def execLdv (d b : RegIx) (wc : BitVec 2) (s : State) : Host.Outcome State Fault Refusal :=
  match widthOfCode wc with
  | none => .next (s.raise (.illegalCommand (encode (.ldv d b wc))))
  | some n =>
    outsideGroup s (.ldv d b wc) do
      let addr ← getX s b
      let (v, t) ← memRead s addr n
      .ok ((t.setX d v).complete .ok)

/-- STV (R182): the address register is read first; a value too wide for the width is reported, never truncated. -/
def execStv (v b : RegIx) (wc : BitVec 2) (s : State) : Host.Outcome State Fault Refusal :=
  match widthOfCode wc with
  | none => .next (s.raise (.illegalCommand (encode (.stv v b wc))))
  | some n =>
    outsideGroup s (.stv v b wc) do
      let addr ← getX s b
      let t ← getX s v
      if 2 ^ n.bits ≤ t.toNat then .ok (s.report .valueTooWide)
      else do
        let u ← memWrite s addr n t
        .ok (u.complete .ok)

end Sys2Proof.Machine
end

