-- ==== Sys2Proof/Machine/Dispatch.lean ====
section
/-! DEFINITION. The first ENGINE step of each command, its descriptor-group check included (60_exceptions.md R350). -/

namespace Sys2Proof.Machine

/-- The first step of command `i` (R350). -/
def exec (i : Instr) (s : State) : Host.Outcome State Fault Refusal :=
  match i with
  | .li d imm => Sys2Proof.Machine.execLi d imm s
  | .lih d imm => Sys2Proof.Machine.execLih d imm s
  | .gets d => Sys2Proof.Machine.execGets d s
  | .ldv d b wc => Sys2Proof.Machine.execLdv d b wc s
  | .stv v b wc => Sys2Proof.Machine.execStv v b wc s
  | .rread d sel => Sys2Proof.Machine.execRread d sel s
  | .rfield d sel fld => Sys2Proof.Machine.execRfield d sel fld s
  | .dbegin sel => Sys2Proof.Machine.execDbegin sel s
  | .dset v fld => Sys2Proof.Machine.execDset v fld s
  | .dseti fld imm => Sys2Proof.Machine.execDseti fld imm s
  | .dxor v fld => Sys2Proof.Machine.execDxor v fld s
  | .dbits v => Sys2Proof.Machine.execDbits v s
  | .write => Sys2Proof.Machine.execWrite s
  | .modify => Sys2Proof.Machine.execModify s
  | .tstart v => Sys2Proof.Machine.execTstart v s
  | .tstarti imm => Sys2Proof.Machine.execTstarti imm s
  | .tpoll => Sys2Proof.Machine.execTpoll s
  | .tack => Sys2Proof.Machine.execTack s
  | .delay v => Sys2Proof.Machine.execDelay v s
  | .delayi imm => Sys2Proof.Machine.execDelayi imm s
  | .pon imm => Sys2Proof.Machine.execPon imm s
  | .poff imm => Sys2Proof.Machine.execPoff imm s
  | .usend v => Sys2Proof.Machine.execUsend v s
  | .usendi imm8 => Sys2Proof.Machine.execUsendi imm8 s
  | .urecv d => Sys2Proof.Machine.execUrecv d s
  | .uline d => Sys2Proof.Machine.execUline d s
  | .lrev => Sys2Proof.Machine.execLrev s
  | .usendl => Sys2Proof.Machine.execUsendl s

end Sys2Proof.Machine
end

