-- ==== Sys2Proof/Machine/Engine.lean ====
section
/-! DEFINITION. The ENGINE step (60_exceptions.md R350) and the choice of the agent that steps (00_scope.md R9; log
entry 3). -/

namespace Sys2Proof.Machine

open Sys2Proof.Config

/-- The ENGINE is done (R350, R381): no command is part-way, the program has ended, no group is open. A pc past the end
counts as the end (log entry 11). -/
def engineDone (s : State) : Bool :=
  decide (s.cont = .none) && (s.prog[s.pc]?).isNone && decide (s.desc = .none)

/-- The ENGINE at a command's start: fetch, decode, then the command's first step; at the end of the program an open
group faults (R350). -/
def fetchStep (s : State) : Host.Outcome State Fault Refusal :=
  match s.prog[s.pc]? with
  | none =>
    match s.desc with
    | .none => .fault .noAgentEnabled
    | .opened _ _ _ => .next (s.raise (.illFormedGroup none))
  | some w =>
    match decode w with
    | .error _ => .next (s.raise (.illegalCommand w))
    | .ok i => exec i s

/-- One ENGINE step (R350): the next step of the command part-way, or a command's first. -/
def engineStep (s : State) : Host.Outcome State Fault Refusal :=
  match s.cont with
  | .none => fetchStep s
  | .modifyStore r ops v next => commit s (modifyStore s r ops v next)
  | .startModify delay => commit s (startModify s delay)
  | .pollUif delay => commit s (pollUif s delay)
  | .ackModify => commit s (ackModify s)
  | .sendPoll b rest => commit s (sendPoll s b rest)
  | .sendStore b rest => commit s (sendStore s b rest)
  | .recvPoll k kept => commit s (recvPoll s k kept)
  | .recvLoad k => commit s (recvLoad s k)

/-- The agent has a step (R350, R356, R370, R372, R373). -/
def enabled (s : State) : Agent → Bool
  | .engine => s.fault.isNone && !engineDone s
  | .timer => timerEnabled s
  | .uartTx => uartTxEnabled s
  | .uartRx => uartRxEnabled s

/-- A device agent has a step. -/
def deviceEnabled (s : State) : Bool := timerEnabled s || uartTxEnabled s || uartRxEnabled s

/-- The agent offered this step: the head of `turns`; when that is empty the ENGINE if no device agent is enabled,
otherwise a free value (log entry 3). -/
def offered (s : State) : Agent :=
  match s.turns with
  | a :: _ => a
  | [] => if deviceEnabled s then freeTurn s.choices else .engine

/-- The agent that steps: the one offered if it is enabled, otherwise the first that is (R9: any enabled agent may). -/
def nextAgent (s : State) : Option Agent :=
  if enabled s (offered s) then some (offered s)
  else [Agent.engine, Agent.timer, Agent.uartTx, Agent.uartRx].find? (enabled s)

/-- The schedule moves on by one step (log entry 3). -/
def takeTurn (s : State) : State := { s with turns := s.turns.tail, choices := s.choices + 1 }

/-- One step of an agent. -/
def agentStep (s : State) : Agent → Host.Outcome State Fault Refusal
  | .engine => engineStep s
  | .timer => .next (timerTick s)
  | .uartTx => .next (uartTxDrain s)
  | .uartRx => .next (uartRxArrive s)

/-- The run has ended: the ENGINE is done, nothing has faulted, and no byte waits to be sent (R381). -/
def ended (s : State) : Bool := s.fault.isNone && engineDone s && s.uart.txe

/-- One step of the machine: after a fault there is none (R356), nor after the end of the run (R381); otherwise the chosen
agent's. -/
def machineStep (s : State) : Host.Outcome State Fault Refusal :=
  match s.fault with
  | some _ => .fault .halted
  | none =>
    if ended s then .fault .ended
    else
      match nextAgent s with
      | none => .fault .noAgentEnabled
      | some a => agentStep (takeTurn s) a

/-- The command store with `w` at index `pc`, extended by zero words if it is shorter. -/
def placeWord (prog : List Word) (pc : Nat) (w : Word) : List Word :=
  (prog ++ List.replicate (pc + 1 - prog.length) 0#32).set pc w

end Sys2Proof.Machine
end

