-- ==== Sys2Proof/Machine/Step.lean ====
section
/-! DEFINITION. The step of the machine, and the state that runs a given word next. -/

namespace Sys2Proof.Machine

open Sys2Proof.Config

/-- One step (00_scope.md R9, R18; 60_exceptions.md R350, R356). -/
def step (s : State) : Host.Outcome State Fault Refusal := machineStep s

/-- `s` with the word `w` of a row of the opcode table where the ENGINE fetches next, no command part-way, no fault, and
the next step offered to the ENGINE (log entry 7). -/
def State.withFetchWord (s : State) (nbits w : Nat) : State :=
  { s with
    prog := placeWord s.prog s.pc (tableWord nbits w)
    cont := .none
    fault := none
    turns := .engine :: s.turns }

end Sys2Proof.Machine
end

