-- ==== Sys2Proof/Machine/Launch.lean ====
section
/-! DEFINITION. The launch (60_exceptions.md R380; 70_reset_and_hazards.md R400 to R405): what the host gives, which
launches have a run (10_state.md R43, R405 LP_REGTAB), and the state it starts in. -/

namespace Sys2Proof.Machine

open Sys2Proof.Config

/-- What the host gives at launch (R380, R405): the parameters and the register table, PROG, values for result registers,
IN, and the device state the launch premises leave free. The byte `rdr` is RDR with bit 8 clear (R401). -/
structure Launch where
  cfg : Params
  prog : List Word
  x : Vector (Option Word) 16
  input : List Byte
  opm : Bool
  psc : Half
  arr : Half
  odr : Half
  tdr : Byte
  rdr : Byte
  turns : List Agent
  deriving DecidableEq, Repr

/-- The table has the registers a command's family requires (R405 LP_REGTAB; R260, R290, R310, R311). -/
def tableServes (t : RegTab) : Instr → Bool
  | .tstart _ | .tstarti _ | .tpoll | .tack | .delay _ | .delayi _ => timerTable t
  | .pon _ | .poff _ => gpioTable t
  | .usend _ | .usendi _ | .urecv _ | .uline _ | .lrev | .usendl => uartTable t
  | .li _ _ | .lih _ _ | .gets _ | .ldv _ _ _ | .stv _ _ _ => true
  | .rread _ _ | .rfield _ _ _ | .dbegin _ | .dset _ _ | .dseti _ _ | .dxor _ _ | .dbits _ | .write | .modify => true

/-- The table serves every command of the program (R405 LP_REGTAB). -/
def tableServesProgram (t : RegTab) (prog : List Word) : Bool :=
  prog.all fun w =>
    match decode w with
    | .ok i => tableServes t i
    | .error _ => true

/-- The state a launch starts in (R54, R401). -/
def launched (l : Launch) : State :=
  { State.reset with
    cfg := l.cfg
    prog := l.prog
    x := l.x
    tim := { Timer.reset with opm := l.opm, psc := l.psc, arr := l.arr }
    odr := l.odr
    uart := { Uart.reset with tdr := l.tdr, rdr := l.rdr.setWidth 9, input := l.input }
    turns := l.turns }

/-- The start of the run of a launch; none if the register table or a parameter is rejected: such a launch has no run
(R43, R405). -/
def State.launch (l : Launch) : Option State :=
  if accepted l.cfg && tableServesProgram l.cfg.regtab l.prog then some (launched l) else none

end Sys2Proof.Machine
end

