-- ==== Sys2Proof/Machine/Pseudo.lean ====
section
/-! DEFINITION. The pseudo-instructions of the assembler and their expansions (30_encoding.md R141). -/

namespace Sys2Proof.Machine

/-- A pseudo-instruction (R141); a register or field is given by the number the assembler would use (R140). -/
inductive Pseudo where
  | la (d : RegIx) (imm : Word)
  | wrf (sel fld : Byte) (imm : Half)
  | modf (sel fld : Byte) (imm : Half)
  | echoline (d : RegIx)
  | usends (s : List Byte)
  deriving DecidableEq, Repr

/-- The commands a pseudo-instruction stands for (R141). -/
def expand : Pseudo → List Instr
  | .la d imm => [.li d (imm.extractLsb' 0 16), .lih d (imm.extractLsb' 16 16)]
  | .wrf sel fld imm => [.dbegin sel, .dseti fld imm, .write]
  | .modf sel fld imm => [.dbegin sel, .dseti fld imm, .modify]
  | .echoline d => [.uline d, .lrev, .usendl, .usendi 0x0A#8]
  | .usends s => s.map .usendi

end Sys2Proof.Machine
end

