-- ==== Sys2Proof/Safety.lean ====
section
/-! DEFINITION. The terms claims are stated in: the end of a run (60_exceptions.md R381), the launch premises
(70_reset_and_hazards.md R405), fairness (R374), runs in which the agents step in a given order, the layout of the default
profile, and what every reachable state satisfies. -/

namespace Sys2Proof.Machine

open Sys2Proof.Config

/-- The outcomes of a step. -/
abbrev Stepped := Host.Outcome State Fault Refusal

/-- The state has not faulted. -/
def Safe (s : State) : Prop := s.fault = none

/-- The conditions of R381 for the end of a run. -/
def Ended (s : State) : Prop :=
  s.fault = none ∧ s.pc = s.prog.length ∧ s.desc = .none ∧ s.cont = .none ∧ s.uart.txe = true

/-- The launch premises (R405) that a state can show: LP_ENGINE_RESET with any values of X, LP_NO_FAULT, LP_REGTAB,
LP_TIMER_CLEAN, LP_UART_CLEAN. LP_TICK and LP_PINS_OUTPUT are read by no rule. -/
def LaunchPremises (s : State) : Prop :=
  (s.pc = 0 ∧ s.status = 0#32 ∧ s.desc = .none ∧ s.lb = [] ∧ s.reports = [] ∧ s.tst = .idle ∧ s.cont = .none ∧
    s.trace = []) ∧
  s.fault = none ∧
  (accepted s.cfg = true ∧ tableServesProgram s.cfg.regtab s.prog = true) ∧
  (s.tim.cen = false ∧ s.tim.cnt = 0#16 ∧ s.tim.uif = false ∧ s.tim.udis = false ∧ s.tim.urs = false ∧
    s.tim.arpe = false ∧ s.tim.uifremap = false) ∧
  (s.uart.txe = true ∧ s.uart.rxne = false ∧ s.uart.ore = false ∧ s.uart.output = [])

/-- An infinite run: each state is the step of the one before, and stays where there is no step. -/
def IsRun (σ : Nat → State) : Prop :=
  ∀ k, step (σ k) = .next (σ (k + 1)) ∨ ((∀ t, step (σ k) ≠ .next t) ∧ σ (k + 1) = σ k)

/-- The run ends at its n-th state: the first that meets the conditions of R381. -/
def EndsAt (σ : Nat → State) (n : Nat) : Prop := Ended (σ n) ∧ ∀ m, m < n → ¬Ended (σ m)

/-- Weak fairness (R374): an agent enabled from some step on, in a run that does not end, eventually steps. -/
def WeaklyFair (σ : Nat → State) : Prop :=
  ∀ a k, (∀ j, k ≤ j → enabled (σ j) a = true ∧ ¬Ended (σ j)) → ∃ j, k ≤ j ∧ nextAgent (σ j) = some a

/-- After an outcome, one step of agent `a`, which must be enabled. -/
def thenStep (o : Stepped) (a : Agent) : Stepped :=
  match o with
  | .next s => if enabled s a then agentStep s a else .fault .noAgentEnabled
  | .fault f => .fault f
  | .refused r => .refused r

/-- After an outcome, the agents of a list step in order. -/
def runAgents (o : Stepped) : List Agent → Stepped
  | [] => o
  | a :: l => runAgents (thenStep o a) l

/-- After an outcome, the first steps of some commands in order. -/
def runCommands (o : Stepped) : List Instr → Stepped
  | [] => o
  | i :: l =>
    match o with
    | .next s => runCommands (exec i s) l
    | .fault f => .fault f
    | .refused r => .refused r

/-- The commands of a descriptor group, DBEGIN apart (R219, R350). -/
def inGroup : Instr → Bool
  | .dset _ _ | .dseti _ _ | .dxor _ _ | .dbits _ | .write | .modify => true
  | .li _ _ | .lih _ _ | .gets _ | .ldv _ _ _ | .stv _ _ _ | .rread _ _ | .rfield _ _ _ | .dbegin _ => false
  | .tstart _ | .tstarti _ | .tpoll | .tack | .delay _ | .delayi _ | .pon _ | .poff _ => false
  | .usend _ | .usendi _ | .urecv _ | .uline _ | .lrev | .usendl => false

/-- The commands whose completion does not write STATUS (R33). -/
def keepsStatus : Instr → Bool
  | .gets _ | .dbegin _ | .dset _ _ | .dseti _ _ | .dxor _ _ | .dbits _ => true
  | .li _ _ | .lih _ _ | .ldv _ _ _ | .stv _ _ _ | .rread _ _ | .rfield _ _ _ | .write | .modify => false
  | .tstart _ | .tstarti _ | .tpoll | .tack | .delay _ | .delayi _ | .pon _ | .poff _ => false
  | .usend _ | .usendi _ | .urecv _ | .uline _ | .lrev | .usendl => false

/-- The result register a command's first step may write. -/
def destOf : Instr → Option RegIx
  | .li d _ | .lih d _ | .gets d | .ldv d _ _ | .rread d _ | .rfield d _ _ => some d
  | .stv _ _ _ | .dbegin _ | .dset _ _ | .dseti _ _ | .dxor _ _ | .dbits _ | .write | .modify => none
  | .tstart _ | .tstarti _ | .tpoll | .tack | .delay _ | .delayi _ | .pon _ | .poff _ => none
  | .usend _ | .usendi _ | .urecv _ | .uline _ | .lrev | .usendl => none

/-- The table has the timer registers of the profile (R46) at `base`. -/
abbrev ServesTimer (t : RegTab) (base : Word) : Prop :=
  regNamed t .timCr1 = some ⟨base, timCr1⟩ ∧ regNamed t .timSr = some ⟨base, timSr⟩ ∧
  regNamed t .timArr = some ⟨base, timArr⟩

/-- The table has the set/reset register of the profile (R48) at `base`. -/
abbrev ServesGpio (t : RegTab) (base : Word) : Prop := regNamed t .gpioBsrr = some ⟨base, gpioBsrr⟩

/-- The table has the UART registers of the profile (R49) at `base`. -/
abbrev ServesUart (t : RegTab) (base : Word) : Prop :=
  regNamed t .uartIsr = some ⟨base, uartIsr⟩ ∧ regNamed t .uartRdr = some ⟨base, uartRdr⟩ ∧
  regNamed t .uartTdr = some ⟨base, uartTdr⟩

/-- The CR1 bits with no modelled effect are clear (R46, R93). -/
abbrev ModesClear (t : Timer) : Prop :=
  t.udis = false ∧ t.urs = false ∧ t.arpe = false ∧ t.uifremap = false

/-- The ENGINE may begin a command outside a descriptor group: nothing has faulted and no group is open (R350). -/
abbrev Ready (s : State) : Prop := s.fault = none ∧ s.desc = .none

/-- STATUS has a value R34 allows. -/
abbrev StatusLegal (w : Word) : Prop :=
  (w.extractLsb' 0 8).toNat ≤ 3 ∧
  ((w.extractLsb' 0 8).toNat ≠ 1 → w.extractLsb' 8 8 = 0#8) ∧
  ((w.extractLsb' 0 8).toNat = 1 → 1 ≤ (w.extractLsb' 8 8).toNat ∧ (w.extractLsb' 8 8).toNat ≤ 6) ∧
  ((w.extractLsb' 0 8).toNat ≠ 2 → w.extractLsb' 16 16 = 0#16)

/-- A staged operation has been validated (R206): its field is a writable field of the register and its value fits, or it
lies within the writable bits. -/
abbrev OpLegal (r : Reg) : StagedOp → Prop
  | .set f x => f ∈ r.decl.fields ∧ writable f.perm = true ∧ fits x f = true
  | .xor f x => f ∈ r.decl.fields ∧ writable f.perm = true ∧ fits x f = true
  | .bits x => x &&& ~~~writableMask r = 0#32

/-- Every operation of a list has been validated. -/
abbrev OpsLegal (r : Reg) (ops : List StagedOp) : Prop := ∀ o ∈ ops, OpLegal r o

/-- DESC is one a run can hold (R35, R212 to R216). -/
abbrev DescLegal (t : RegTab) : Desc → Prop
  | .none => True
  | .opened none _ poison => poison ≠ none
  | .opened (some r) ops _ => r ∈ regsOf t ∧ OpsLegal r ops

/-- CONT is one a run can hold: a modify under way is on a declared register, and MODIFY's own has passed its checks
(R218). -/
abbrev ContLegal (t : RegTab) : Cont → Prop
  | .modifyStore r ops _ next =>
    r ∈ regsOf t ∧ (next = .group → canRead r = true ∧ canWrite r = true ∧ OpsLegal r ops)
  | .none | .startModify _ | .pollUif _ | .ackModify => True
  | .sendPoll _ _ | .sendStore _ _ | .recvPoll _ _ | .recvLoad _ => True

/-- The event is no store of a reserved bit of a declared register (R91, R205). -/
abbrev NoReservedStore (t : RegTab) : BusEvent → Prop
  | .load _ _ _ => True
  | .store addr n v => ∀ r, overlapped t addr n = some r → v &&& reservedMask r = 0#32

/-- The value of result register Xi, none if it holds none (R31). -/
abbrev State.xAt (s : State) (i : RegIx) : Option Word := s.x[i.toNat]'i.isLt

/-- The result registers after `x[d] <- v`. -/
abbrev wrote (s : State) (d : RegIx) (v : Word) : Vector (Option Word) 16 := s.x.set d.toNat (some v) d.isLt

/-- One of the nine device registers of R46 to R49. -/
def namesDevice : RegName → Bool
  | .timCr1 | .timSr | .timPsc | .timArr | .gpioOdr | .gpioBsrr | .uartIsr | .uartRdr | .uartTdr => true
  | .other _ => false

/-- A device register: one whose loads and stores the spec describes (R92 to R98), of any width (R11). -/
abbrev DeviceReg (r : Reg) : Prop := namesDevice r.decl.name = true

/-- Register `r` of W bits shows the number `n` as `v` and leaves `u`: exactly, if W bits hold it, as they do of every
register of the profile; otherwise `v` is free (log entry 23). -/
def ShowsNumber (s : State) (r : Reg) (n : Nat) (v : Word) (u : State) : Prop :=
  if n < 2 ^ r.decl.width.bits then v.toNat = n ∧ u = s else u = { s with draws := s.draws + 1 }

/-- The number TIM CR1 holds (R92). -/
def cr1Number (t : Timer) : Nat :=
  t.cen.toNat + 2 * t.udis.toNat + 4 * t.urs.toNat + 8 * t.opm.toNat + 128 * t.arpe.toNat + 2048 * t.uifremap.toNat

/-- The table of R92, as a relation: a load of register `r` in `s` may return the W-bit value `v` and leave `u`. Bits it
does not mention are free. It goes by the register's name and R92's bits (log entries 21 and 28). -/
def LoadRule (s : State) (r : Reg) (v : Word) (u : State) : Prop :=
  v.toNat < 2 ^ r.decl.width.bits ∧
  match r.decl.name with
  | .timCr1 => ShowsNumber s r (cr1Number s.tim) v u
  | .timSr => ShowsNumber s r s.tim.uif.toNat v u
  | .timPsc => ShowsNumber s r s.tim.psc.toNat v u
  | .timArr => ShowsNumber s r s.tim.arr.toNat v u
  | .gpioOdr => ShowsNumber s r s.odr.toNat v u
  | .gpioBsrr => u = { s with draws := s.draws + 1 }
  | .uartIsr => u = { s with draws := s.draws + 1 } ∧
      v.getLsbD 3 = s.uart.ore ∧ v.getLsbD 5 = s.uart.rxne ∧ v.getLsbD 7 = s.uart.txe
  | .uartRdr => ShowsNumber { s with uart := { s.uart with rxne := false } } r s.uart.rdr.toNat v u
  | .uartTdr => u = { s with draws := s.draws + 1 }
  | .other _ => False

/-- The level of a pin with level `old` after a set/reset store with set bit `set` and reset bit `clear` (R97). -/
def pinAfter (both : BsrrBoth) (old set clear : Bool) : Bool :=
  match both with
  | .setWins => set || (old && !clear)
  | .resetWins => !clear && (set || old)

/-- The device effects of R93 to R98, as a relation: a store of `v` to register `n` in `s` leaves `u`. Of a register
narrower than the profile's, the bits of `v` from its width up count as 0 (DESIGN CHOICE, log entry 25). It goes by the
register's name and the rules' bits (log entries 21 and 28). -/
def StoreRule (s : State) (n : RegName) (v : Word) (u : State) : Prop :=
  match n with
  | .timCr1 => u = { s with tim := { s.tim with cen := v.getLsbD 0, opm := v.getLsbD 3 } }
  | .timSr => u = { s with tim := { s.tim with uif := s.tim.uif && v.getLsbD 0 } }
  | .timPsc => u = { s with tim := { s.tim with psc := v.extractLsb' 0 16 } }
  | .timArr => u = { s with tim := { s.tim with arr := v.extractLsb' 0 16 } }
  | .gpioOdr => u = { s with odr := v.extractLsb' 0 16 }
  | .gpioBsrr => ∃ o : Half, u = { s with odr := o } ∧ ∀ p, p < 16 →
      o.getLsbD p = pinAfter s.cfg.bsrrBoth (s.odr.getLsbD p) (v.getLsbD p) (v.getLsbD (p + 16))
  | .uartTdr => u = { s with uart := { s.uart with tdr := v.extractLsb' 0 8, txe := false } }
  | .uartIsr => False
  | .uartRdr => False
  | .other _ => False

/-- The device guards of R93 and R98 let a store of `v` to register `n` through. -/
def StoreAllowed (s : State) (n : RegName) (v : Word) : Bool :=
  match n with
  | .timCr1 => !v.getLsbD 1 && !v.getLsbD 2 && !v.getLsbD 7 && !v.getLsbD 11
  | .timSr | .timPsc | .timArr | .gpioOdr | .gpioBsrr => true
  | .uartTdr => s.uart.txe && !v.getLsbD 8
  | .uartIsr | .uartRdr | .other _ => false

/-- The fault of the device guards of R93 and R98 for a store of `v` to register `n`, none where they let it through. -/
def guardFault (s : State) (n : RegName) (v : Word) : Option FaultKind :=
  match n with
  | .timCr1 =>
    if v.getLsbD 1 || v.getLsbD 2 || v.getLsbD 7 || v.getLsbD 11 then some (.unmodelledDeviceMode .timCr1 v) else none
  | .uartTdr =>
    if s.uart.txe = false then some (.txOverwrite v)
    else if v.getLsbD 8 then some (.unmodelledDeviceMode .uartTdr v) else none
  | .timSr | .timPsc | .timArr | .gpioOdr | .gpioBsrr | .uartIsr | .uartRdr | .other _ => none

/-- STATUS of an InvalidFieldError (R34): KIND 1, the cause in bits 15..8. -/
def causeStatus : Cause → Word
  | .unknownRegister => 0x0101#32
  | .permissionDenied => 0x0201#32
  | .unknownField => 0x0301#32
  | .reservedBit => 0x0401#32
  | .valueTooWide => 0x0501#32
  | .pinOutOfRange => 0x0601#32

/-- Command `i` stages a field operation of field index `fld` and value `t`, `mk` building it (R213 to R215). -/
inductive Stages (s : State) : Instr → Byte → (Field → StagedOp) → Word → Prop where
  | dset (v : RegIx) (fld : Byte) (t : Word) : s.xAt v = some t → Stages s (.dset v fld) fld (.set · t) t
  | dseti (fld : Byte) (imm : Half) : Stages s (.dseti fld imm) fld (.set · (imm.setWidth 32)) (imm.setWidth 32)
  | dxor (v : RegIx) (fld : Byte) (t : Word) : s.xAt v = some t → Stages s (.dxor v fld) fld (.xor · t) t

/-- A row of the opcode map (R137). -/
structure OpcodeRow where
  mnemonic : String
  pattern : Word
  mask : Word
  hasWidthCode : Bool
  deriving DecidableEq, Repr

/-- The opcode map (R137). -/
def opcodeMap : List OpcodeRow :=
  [⟨"LI", 0x01000000#32, 0xFF0F0000#32, false⟩, ⟨"LIH", 0x02000000#32, 0xFF0F0000#32, false⟩,
   ⟨"GETS", 0x03000000#32, 0xFF0FFFFF#32, false⟩, ⟨"LDV", 0x10000000#32, 0xFF00FFFC#32, true⟩,
   ⟨"STV", 0x11000000#32, 0xFF00FFFC#32, true⟩, ⟨"RREAD", 0x20000000#32, 0xFF0F00FF#32, false⟩,
   ⟨"RFIELD", 0x21000000#32, 0xFF0F0000#32, false⟩, ⟨"DBEGIN", 0x22000000#32, 0xFFFF00FF#32, false⟩] ++
  [⟨"DSET", 0x23000000#32, 0xFF0FFF00#32, false⟩, ⟨"DSETI", 0x24000000#32, 0xFF000000#32, false⟩,
   ⟨"DXOR", 0x25000000#32, 0xFF0FFF00#32, false⟩, ⟨"DBITS", 0x26000000#32, 0xFF0FFFFF#32, false⟩,
   ⟨"WRITE", 0x27000000#32, 0xFFFFFFFF#32, false⟩, ⟨"MODIFY", 0x28000000#32, 0xFFFFFFFF#32, false⟩,
   ⟨"TSTART", 0x30000000#32, 0xFF0FFFFF#32, false⟩, ⟨"TSTARTI", 0x31000000#32, 0xFFFF0000#32, false⟩] ++
  [⟨"TPOLL", 0x32000000#32, 0xFFFFFFFF#32, false⟩, ⟨"TACK", 0x33000000#32, 0xFFFFFFFF#32, false⟩,
   ⟨"DELAY", 0x34000000#32, 0xFF0FFFFF#32, false⟩, ⟨"DELAYI", 0x35000000#32, 0xFFFF0000#32, false⟩,
   ⟨"PON", 0x40000000#32, 0xFFFF0000#32, false⟩, ⟨"POFF", 0x41000000#32, 0xFFFF0000#32, false⟩,
   ⟨"USEND", 0x50000000#32, 0xFF0FFFFF#32, false⟩, ⟨"USENDI", 0x51000000#32, 0xFFFFFF00#32, false⟩] ++
  [⟨"URECV", 0x52000000#32, 0xFF0FFFFF#32, false⟩, ⟨"ULINE", 0x53000000#32, 0xFF0FFFFF#32, false⟩,
   ⟨"LREV", 0x54000000#32, 0xFFFFFFFF#32, false⟩, ⟨"USENDL", 0x55000000#32, 0xFFFFFFFF#32, false⟩]

/-- The mnemonic of a command (R137). -/
def mnemonicOf : Instr → String
  | .li _ _ => "LI" | .lih _ _ => "LIH" | .gets _ => "GETS"
  | .ldv _ _ _ => "LDV" | .stv _ _ _ => "STV"
  | .rread _ _ => "RREAD" | .rfield _ _ _ => "RFIELD" | .dbegin _ => "DBEGIN" | .dset _ _ => "DSET"
  | .dseti _ _ => "DSETI" | .dxor _ _ => "DXOR" | .dbits _ => "DBITS" | .write => "WRITE" | .modify => "MODIFY"
  | .tstart _ => "TSTART" | .tstarti _ => "TSTARTI" | .tpoll => "TPOLL" | .tack => "TACK"
  | .delay _ => "DELAY" | .delayi _ => "DELAYI"
  | .pon _ => "PON" | .poff _ => "POFF"
  | .usend _ => "USEND" | .usendi _ => "USENDI" | .urecv _ => "URECV" | .uline _ => "ULINE"
  | .lrev => "LREV" | .usendl => "USENDL"

/-- Word `w` matches a row: its fixed bits, and for LDV and STV a width code other than 3 (R137). -/
abbrev RowMatches (row : OpcodeRow) (w : Word) : Prop :=
  w &&& row.mask = row.pattern ∧ (row.hasWidthCode = true → w.extractLsb' 0 2 ≠ 3#2)

/-- A PON (true) or POFF (false) of a pin. -/
def pinCommand (c : Bool × BitVec 4) : Instr := if c.1 then .pon (c.2.setWidth 16) else .poff (c.2.setWidth 16)

/-- The level of pin `p` after a sequence of PON and POFF: that of the last that names it (R294). -/
def levelAfter (p : BitVec 4) : List (Bool × BitVec 4) → Bool → Bool
  | [], level => level
  | c :: l, level => levelAfter p l (if c.2 = p then c.1 else level)

/-- One byte's arrival and the two ENGINE steps that take it (R311, R373). -/
def receiveSchedule : Nat → List Agent
  | 0 => []
  | k + 1 => [.uartRx, .engine, .engine] ++ receiveSchedule k

/-- For each further byte of a send: the poll, the store, the drain (R310, R372). -/
def sendSchedule : Nat → List Agent
  | 0 => []
  | k + 1 => [.engine, .engine, .uartTx] ++ sendSchedule k

/-- What every state of a run satisfies. -/
structure Inv (s : State) : Prop where
  /-- R32 -/
  pc_le : s.pc ≤ s.prog.length
  /-- R32, R39: a command part-way stands at its own index -/
  cont_pc : s.cont ≠ .none → s.pc < s.prog.length
  /-- R350: no group is open inside a command -/
  cont_desc : s.cont ≠ .none → s.desc = .none
  /-- R34 -/
  status : StatusLegal s.status
  /-- R35 -/
  desc : DescLegal s.cfg.regtab s.desc
  /-- R39 -/
  cont : ContLegal s.cfg.regtab s.cont
  /-- R310: with the profile's UART registers, a byte is stored to TDR only after TXE was seen set -/
  send : ∀ base b rest, accepted s.cfg = true → ServesUart s.cfg.regtab base → s.cont = .sendStore b rest →
    s.uart.txe = true
  /-- R311: with the profile's UART registers, RDR is loaded only after RXNE was seen set -/
  receive : ∀ base k, accepted s.cfg = true → ServesUart s.cfg.regtab base → s.cont = .recvLoad k →
    s.uart.rxne = true
  /-- R260: with the profile's timer registers, every modify under way is of a readable and writable register by validated
  operations -/
  modify : ∀ base r ops v next, accepted s.cfg = true → ServesTimer s.cfg.regtab base →
    s.cont = .modifyStore r ops v next → canRead r = true ∧ canWrite r = true ∧ OpsLegal r ops
  /-- R36, R319 -/
  lb : s.lb.length ≤ s.cfg.capacity
  /-- R315: a byte kept for the line has a place in LB -/
  kept : ∀ k b, s.cont = .recvPoll k (some b) → s.lb.length < s.cfg.capacity
  /-- R93 -/
  modes : ModesClear s.tim
  /-- R52, R373 -/
  ore : s.uart.ore = false
  /-- R52 -/
  rdr : s.uart.rdr.getLsbD 8 = false
  /-- R91, R205: no write ever sets a reserved bit -/
  trace : ∀ e ∈ s.trace, NoReservedStore s.cfg.regtab e
  /-- R356: FAULT records the pc it was raised at -/
  fault : ∀ f, s.fault = some f → f.pc = s.pc

end Sys2Proof.Machine
end

