-- ==== Sys2Proof/Certificates/Slice0/Obligations.lean ====
section
/-! DEFINITION. The statements for the provers. Each docstring names the rules of spec/ it rests on. -/

open Sys2Proof Sys2Proof.Machine Sys2Proof.Config

/-! ### Encoding -/

/-- R130 to R137: decoding the word of a well-formed command gives the command back, operands and all. -/
def Obligations.DecodeOfEncode : Prop :=
  ∀ i : Instr, i.wellFormed = true → decode (encode i) = .ok i

/-- R139, R143: a word decodes to at most one command, and it is that command's own word: no bit is ignored. -/
def Obligations.EncodeOfDecode : Prop :=
  ∀ (w : Word) (i : Instr), decode w = .ok i → i.wellFormed = true ∧ encode i = w

/-- R137, R138, R143: a word decodes to a command of mnemonic m exactly when it matches m's row of the opcode map (fixed
bits, and wc not 3 for LDV and STV), at most one row matches a word, and a word that matches none is illegal. -/
def Obligations.DecodeFollowsOpcodeMap : Prop :=
  ∀ w : Word,
    (∀ m : String, (∃ i, decode w = .ok i ∧ mnemonicOf i = m) ↔
      ∃ row ∈ opcodeMap, row.mnemonic = m ∧ RowMatches row w) ∧
    (∀ row ∈ opcodeMap, ∀ row' ∈ opcodeMap, RowMatches row w → RowMatches row' w → row = row')

/-- R142: a command's word is stored as its four bytes, least significant first; a well-formed command's bytes decode to it
and leave the bytes after them; PON 9 is the bytes 09 00 00 40. -/
def Obligations.DecodeOfEncodedBytes : Prop :=
  (∀ (i : Instr) (rest : List Byte), i.wellFormed = true →
    encodeBytes i = (List.range 4).map (fun k => (encode i).extractLsb' (8 * k) 8) ∧
    decodeBytes (encodeBytes i ++ rest) = .ok (i, rest)) ∧
  encodeBytes (.pon 9#16) = [0x09#8, 0x00#8, 0x00#8, 0x40#8]

/-- Words written out from R132 and R137 decode to the commands they stand for (R143 and 95_test_vectors.md 2.1). -/
def Obligations.SampleWordsDecode : Prop :=
  decode 0x01201018#32 = .ok (.li 2#4 0x1018#16) ∧ decode 0x10320002#32 = .ok (.ldv 3#4 2#4 2#2) ∧
  decode 0x21402003#32 = .ok (.rfield 4#4 0x20#8 3#8) ∧ decode 0x24190001#32 = .ok (.dseti 25#8 1#16) ∧
  decode 0x310003E8#32 = .ok (.tstarti 1000#16) ∧ decode 0x41000019#32 = .ok (.poff 25#16) ∧
  decode 0x5100000A#32 = .ok (.usendi 0x0A#8) ∧ decode 0x10320003#32 = .error .badWidthCode ∧
  decode 0x27100000#32 = .error .mustBeZero ∧ decode 0x00000000#32 = .error .unknownOpcode

/-! ### The step -/

/-- R350: when nothing has faulted, no command is part-way, the word at pc decodes and the ENGINE is the agent that
steps, a step is that command's first step; the model's schedule moves on by one (log entry 3). -/
def Obligations.StepRunsDecodedCommand : Prop :=
  ∀ (s : State) (w : Word) (i : Instr), s.fault = none → s.cont = .none → s.prog[s.pc]? = some w →
    decode w = .ok i → nextAgent s = some .engine → step s = exec i (takeTurn s)

/-- R9, R100, R381: until the end of the run some agent has a step, and an agent that the schedule offers and that is
enabled is the one that steps; with no schedule left and no device agent enabled, the ENGINE steps. A state that meets the
conditions of the end has no step, whatever a device agent could still do: a run stays at the first such state. The
schedule and the way the end shows (`.fault .ended`) are the model's (log entries 3 and 16). -/
def Obligations.StepFollowsSchedule : Prop :=
  (∀ s : State, s.fault = none → s.pc ≤ s.prog.length →
    (Ended s → step s = .fault .ended) ∧
    (¬Ended s →
      (∃ a, enabled s a = true) ∧
      (∀ a rest, s.turns = a :: rest → enabled s a = true → step s = agentStep (takeTurn s) a) ∧
      (s.turns = [] → deviceEnabled s = false → enabled s .engine = true → step s = engineStep (takeTurn s)) ∧
      (∀ t, step s = .next t → ∃ a, enabled s a = true ∧ agentStep (takeTurn s) a = .next t))) ∧
  (∀ (σ : Nat → State) (n : Nat), IsRun σ → EndsAt σ n → ∀ m, n ≤ m → σ m = σ n)

/-- R138: fetching an illegal word raises IllegalCommand with the word, and changes nothing else. -/
def Obligations.IllegalWordFaults : Prop :=
  ∀ (s : State) (w : Word) (e : DecodeError), s.cont = .none → s.prog[s.pc]? = some w → decode w = .error e →
    engineStep s = .next { s with fault := some ⟨.illegalCommand w, s.pc⟩ }

/-- R219, R350: a staging command, WRITE or MODIFY with no open group, any other command inside one, and the end of the
program inside one raise IllFormedGroup with the fetched word (or `end`), and change nothing else. -/
def Obligations.IllFormedGroupFaults : Prop :=
  (∀ (s : State) (w : Word) (i : Instr), s.cont = .none → s.prog[s.pc]? = some w → decode w = .ok i →
    (inGroup i = true ↔ s.desc = .none) →
    engineStep s = .next { s with fault := some ⟨.illFormedGroup (some w), s.pc⟩ }) ∧
  (∀ s : State, s.cont = .none → s.pc = s.prog.length → s.desc ≠ .none →
    engineStep s = .next { s with fault := some ⟨.illFormedGroup none, s.pc⟩ })

/-- R356, R361: a step that raises a fault records the kind, its info and the pc, and changes nothing else, whatever the
command or the agent (beside the model's own schedule); after it no agent is enabled and there is no step. -/
def Obligations.FaultsArePrecise : Prop :=
  ∀ s : State,
    (∀ t, step s = .next t → t.fault ≠ none → ∃ k, t = { takeTurn s with fault := some ⟨k, s.pc⟩ }) ∧
    (s.fault ≠ none → step s = .fault .halted ∧ ∀ a, enabled s a = false)

/-! ### Operand commands -/

/-- R170 to R172: LI, LIH and GETS, of formats RI, RI and R with opcodes 01, 02 and 03, complete in one step, writing their
register, and LI and LIH STATUS OK; LIH of a register that holds no value faults. -/
def Obligations.OperandCommandResults : Prop :=
  (∀ (d : RegIx) (imm : Half), decode (0x01#8 ++ d ++ 0#4 ++ imm) = .ok (.li d imm) ∧
    decode (0x02#8 ++ d ++ 0#4 ++ imm) = .ok (.lih d imm) ∧ decode (0x03#8 ++ d ++ 0#20) = .ok (.gets d)) ∧
  ∀ (s : State) (d : RegIx) (imm : Half), s.desc = .none →
    exec (.li d imm) s = .next { s with
      x := wrote s d (imm.setWidth 32), status := 0#32, cont := .none, pc := s.pc + 1 } ∧
    (∀ t, s.xAt d = some t →
      exec (.lih d imm) s = .next { s with
        x := wrote s d (imm ++ t.extractLsb' 0 16), status := 0#32, cont := .none, pc := s.pc + 1 }) ∧
    (s.xAt d = none → exec (.lih d imm) s = .next { s with fault := some ⟨.unwrittenRegister d, s.pc⟩ }) ∧
    exec (.gets d) s = .next { s with x := wrote s d s.status, cont := .none, pc := s.pc + 1 }

/-- R141: the expansion of LA loads its 32-bit immediate, whatever the register held. -/
def Obligations.LoadAddressExpansion : Prop :=
  ∀ (s : State) (d : RegIx) (imm : Word), s.desc = .none →
    runCommands (.next s) (expand (.la d imm)) = .next { s with
      x := wrote s d imm, status := 0#32, cont := .none, pc := s.pc + 2 }

/-! ### Volatile access -/

/-- R90, R92, R181: LDV of a declared device register, at the register's width and whatever its permission, completes with
the device's value, one Load event and the load's side effect (RDR clears RXNE). A value that a register narrower than the
profile's cannot hold is free (the model's choice, log entry 23). -/
def Obligations.LdvLoadsDeviceRegister : Prop :=
  ∀ (s : State) (d b : RegIx) (wc : BitVec 2) (r : Reg), s.desc = .none → accepted s.cfg = true →
    r ∈ regsOf s.cfg.regtab → DeviceReg r → widthOfCode wc = some r.decl.width → s.xAt b = some (addrOf r) →
    ∃ v u, LoadRule s r v u ∧
      exec (.ldv d b wc) s = .next { u with
        x := wrote s d v, trace := s.trace ++ [.load (addrOf r) r.decl.width v],
        status := 0#32, cont := .none, pc := s.pc + 1 }

/-- R90, R92: LDV of 1, 2 or 4 bytes at an aligned, backed, undeclared address completes with a value of that many bytes
and one Load event, and has no side effect. -/
def Obligations.LdvLoadsUndeclaredAddress : Prop :=
  ∀ (s : State) (d b : RegIx) (wc : BitVec 2) (n : Width) (addr : Word), s.desc = .none →
    widthOfCode wc = some n → s.xAt b = some addr → backedAt s.cfg addr = true → addr.toNat % n.bytes = 0 →
    overlapped s.cfg.regtab addr n = none →
    ∃ v : Word, v.toNat < 2 ^ n.bits ∧
      exec (.ldv d b wc) s = .next { s with
        x := wrote s d v, trace := s.trace ++ [.load addr n v], draws := s.draws + 1,
        status := 0#32, cont := .none, pc := s.pc + 1 }

/-- R91 to R98, R182: STV, at the register's width, of a value that fits it, sets no reserved bit and passes the device
guards, to a writable declared device register, completes with the device's effect and one Store event (log entry 25: the
bits above a narrower register's width count as 0). -/
def Obligations.StvStoresDeviceRegister : Prop :=
  ∀ (s : State) (v b : RegIx) (wc : BitVec 2) (r : Reg) (t : Word), s.desc = .none → accepted s.cfg = true →
    r ∈ regsOf s.cfg.regtab → DeviceReg r → widthOfCode wc = some r.decl.width → r.decl.perm ≠ .ro →
    t.toNat < 2 ^ r.decl.width.bits → t &&& reservedMask r = 0#32 →
    StoreAllowed s r.decl.name t = true → s.xAt b = some (addrOf r) → s.xAt v = some t →
    ∃ u, StoreRule s r.decl.name t u ∧
      exec (.stv v b wc) s = .next { u with
        trace := s.trace ++ [.store (addrOf r) r.decl.width t], status := 0#32, cont := .none, pc := s.pc + 1 }

/-- R31, R85, R87 to R89, R359: an LDV faults, in this order, on an unwritten address register, an unbacked address, a
misaligned address, and a mixed-size access to a declared register. -/
def Obligations.LdvFaultOrder : Prop :=
  ∀ (s : State) (d b : RegIx) (wc : BitVec 2) (n : Width), s.desc = .none → widthOfCode wc = some n →
    (s.xAt b = none → exec (.ldv d b wc) s = .next { s with fault := some ⟨.unwrittenRegister b, s.pc⟩ }) ∧
    ∀ addr, s.xAt b = some addr →
      (backedAt s.cfg addr = false →
        exec (.ldv d b wc) s = .next { s with fault := some ⟨.hardFault addr n .load false, s.pc⟩ }) ∧
      (backedAt s.cfg addr = true → addr.toNat % n.bytes ≠ 0 →
        exec (.ldv d b wc) s = .next { s with fault := some ⟨.hardFault addr n .load true, s.pc⟩ }) ∧
      (∀ r, backedAt s.cfg addr = true → addr.toNat % n.bytes = 0 → overlapped s.cfg.regtab addr n = some r →
        ¬(addrOf r = addr ∧ r.decl.width = n) →
        exec (.ldv d b wc) s = .next { s with fault := some ⟨.unmodelledAccess addr n .load, s.pc⟩ })

/-- R31, R88, R91, R93, R98, R99, R182, R204, R359: an STV faults on an unwritten address register, then on an unwritten value
register; reports ValueTooWide, with no transaction, for a value that does not fit its width; and for one that fits
faults, in this order, on an unbacked address, a misaligned one, a mixed-size access, a read-only register or an undeclared
address, a reserved bit, and the device guards (TxOverwrite before bit 8 at TDR). -/
def Obligations.StvFaultOrder : Prop :=
  ∀ (s : State) (v b : RegIx) (wc : BitVec 2) (n : Width), s.desc = .none → widthOfCode wc = some n →
    (s.xAt b = none → exec (.stv v b wc) s = .next { s with fault := some ⟨.unwrittenRegister b, s.pc⟩ }) ∧
    ∀ addr, s.xAt b = some addr →
    (s.xAt v = none → exec (.stv v b wc) s = .next { s with fault := some ⟨.unwrittenRegister v, s.pc⟩ }) ∧
    ∀ t, s.xAt v = some t →
    (2 ^ n.bits ≤ t.toNat →
      exec (.stv v b wc) s = .next { s with status := 0x0501#32, cont := .none, pc := s.pc + 1 }) ∧
    (t.toNat < 2 ^ n.bits → backedAt s.cfg addr = false →
      exec (.stv v b wc) s = .next { s with fault := some ⟨.hardFault addr n .store false, s.pc⟩ }) ∧
    (t.toNat < 2 ^ n.bits → backedAt s.cfg addr = true → addr.toNat % n.bytes ≠ 0 →
      exec (.stv v b wc) s = .next { s with fault := some ⟨.hardFault addr n .store true, s.pc⟩ }) ∧
    (t.toNat < 2 ^ n.bits → backedAt s.cfg addr = true → addr.toNat % n.bytes = 0 →
      (overlapped s.cfg.regtab addr n = none →
        exec (.stv v b wc) s = .next { s with fault := some ⟨.unmodelledAccess addr n .store, s.pc⟩ }) ∧
      ∀ r, overlapped s.cfg.regtab addr n = some r →
        (¬(addrOf r = addr ∧ r.decl.width = n) ∨ r.decl.perm = .ro →
          exec (.stv v b wc) s = .next { s with fault := some ⟨.unmodelledAccess addr n .store, s.pc⟩ }) ∧
        (addrOf r = addr → r.decl.width = n → r.decl.perm ≠ .ro →
          (t &&& reservedMask r ≠ 0#32 →
            exec (.stv v b wc) s = .next { s with fault := some ⟨.reservedWrite addr t, s.pc⟩ }) ∧
          (t &&& reservedMask r = 0#32 → r.decl.name = .timCr1 →
            StoreAllowed s .timCr1 t = false →
            exec (.stv v b wc) s = .next { s with fault := some ⟨.unmodelledDeviceMode .timCr1 t, s.pc⟩ }) ∧
          (t &&& reservedMask r = 0#32 → r.decl.name = .uartTdr → s.uart.txe = false →
            exec (.stv v b wc) s = .next { s with fault := some ⟨.txOverwrite t, s.pc⟩ }) ∧
          (t &&& reservedMask r = 0#32 → r.decl.name = .uartTdr → s.uart.txe = true →
            t.getLsbD 8 = true →
            exec (.stv v b wc) s = .next { s with fault := some ⟨.unmodelledDeviceMode .uartTdr t, s.pc⟩ })))

/-! ### The Register Field Model -/

/-- R201, R202, R210, R211: RREAD and RFIELD of a readable device register (and readable field) complete with the
register's full-width value, or the field's bits of it, after exactly one load (log entry 23: a value that a register
narrower than the profile's cannot hold is free). -/
def Obligations.RegisterReadsReturnValues : Prop :=
  ∀ (s : State) (d : RegIx) (sel fld : Byte) (r : Reg) (f : Field), s.desc = .none → accepted s.cfg = true →
    resolve s.cfg.regtab sel = some r → DeviceReg r → canRead r = true →
    (∃ v u, LoadRule s r v u ∧
      exec (.rread d sel) s = .next { u with
        x := wrote s d v, trace := s.trace ++ [.load (addrOf r) r.decl.width v],
        status := 0#32, cont := .none, pc := s.pc + 1 }) ∧
    (fieldAt r fld = some f → readable f.perm = true →
      ∃ v w u, LoadRule s r v u ∧
        (∀ i, w.getLsbD i = (decide (i < f.hi - f.lo + 1) && v.getLsbD (f.lo + i))) ∧
        exec (.rfield d sel fld) s = .next { u with
          x := wrote s d w, trace := s.trace ++ [.load (addrOf r) r.decl.width v],
          status := 0#32, cont := .none, pc := s.pc + 1 })

/-- R201 to R203, R210, R211, R222: RREAD and RFIELD report UnknownRegister, then PermissionDenied on the register, then
UnknownField, then PermissionDenied on the field, with no transaction and no register written. -/
def Obligations.RegisterReadErrors : Prop :=
  ∀ (s : State) (d : RegIx) (sel fld : Byte), s.desc = .none →
    (resolve s.cfg.regtab sel = none →
      exec (.rread d sel) s = .next { s with status := 0x0101#32, cont := .none, pc := s.pc + 1 } ∧
      exec (.rfield d sel fld) s = .next { s with status := 0x0101#32, cont := .none, pc := s.pc + 1 }) ∧
    ∀ r, resolve s.cfg.regtab sel = some r →
      (canRead r = false →
        exec (.rread d sel) s = .next { s with status := 0x0201#32, cont := .none, pc := s.pc + 1 } ∧
        exec (.rfield d sel fld) s = .next { s with status := 0x0201#32, cont := .none, pc := s.pc + 1 }) ∧
      (canRead r = true → fieldAt r fld = none →
        exec (.rfield d sel fld) s = .next { s with status := 0x0301#32, cont := .none, pc := s.pc + 1 }) ∧
      (∀ f, canRead r = true → fieldAt r fld = some f → readable f.perm = false →
        exec (.rfield d sel fld) s = .next { s with status := 0x0201#32, cont := .none, pc := s.pc + 1 })

/-- R212: DBEGIN opens a group on the register its selector names, or a group poisoned with UnknownRegister; STATUS is not
written. -/
def Obligations.DbeginOpensGroup : Prop :=
  ∀ (s : State) (sel : Byte), s.desc = .none →
    (∀ r, resolve s.cfg.regtab sel = some r →
      exec (.dbegin sel) s = .next { s with desc := .opened (some r) [] none, cont := .none, pc := s.pc + 1 }) ∧
    (resolve s.cfg.regtab sel = none →
      exec (.dbegin sel) s = .next { s with
        desc := .opened none [] (some .unknownRegister), cont := .none, pc := s.pc + 1 })

/-- R213 to R216: in a clean group DSET, DSETI and DXOR stage their operation when the field exists, is writable and the
value fits it, and DBITS when its bits are all writable; STATUS is not written and no transaction is made. -/
def Obligations.StagingStages : Prop :=
  ∀ (s : State) (r : Reg) (ops : List StagedOp), s.desc = .opened (some r) ops none →
    (∀ i fld mk t f, Stages s i fld mk t → fieldAt r fld = some f → writable f.perm = true →
      t.toNat < 2 ^ (f.hi - f.lo + 1) →
      exec i s = .next { s with desc := .opened (some r) (ops ++ [mk f]) none, cont := .none, pc := s.pc + 1 }) ∧
    (∀ v t, s.xAt v = some t → t &&& declaredMask r &&& ~~~writableMask r = 0#32 → t &&& reservedMask r = 0#32 →
      t.toNat < 2 ^ r.decl.width.bits →
      exec (.dbits v) s = .next { s with
        desc := .opened (some r) (ops ++ [.bits t]) none, cont := .none, pc := s.pc + 1 })

/-- R203, R213 to R216, R220: a staging command poisons a clean group with the first cause that applies (UnknownField,
PermissionDenied, ValueTooWide; for DBITS PermissionDenied, ReservedBit, ValueTooWide) and stages nothing; in a poisoned
group nothing but the pc changes; an unwritten operand register faults in any group. -/
def Obligations.StagingPoisons : Prop :=
  ∀ (s : State) (reg : Option Reg) (ops : List StagedOp) (poison : Option Cause), s.desc = .opened reg ops poison →
    (∀ c, poison = some c →
      (∀ i fld mk t, Stages s i fld mk t → exec i s = .next { s with cont := .none, pc := s.pc + 1 }) ∧
      (∀ v t, s.xAt v = some t → exec (.dbits v) s = .next { s with cont := .none, pc := s.pc + 1 })) ∧
    (∀ r, reg = some r → poison = none →
      (∀ i fld mk t, Stages s i fld mk t →
        (fieldAt r fld = none → exec i s = .next { s with
          desc := .opened reg ops (some .unknownField), cont := .none, pc := s.pc + 1 }) ∧
        ∀ f, fieldAt r fld = some f →
          (writable f.perm = false → exec i s = .next { s with
            desc := .opened reg ops (some .permissionDenied), cont := .none, pc := s.pc + 1 }) ∧
          (writable f.perm = true → 2 ^ (f.hi - f.lo + 1) ≤ t.toNat → exec i s = .next { s with
            desc := .opened reg ops (some .valueTooWide), cont := .none, pc := s.pc + 1 })) ∧
      (∀ v t, s.xAt v = some t →
        (t &&& declaredMask r &&& ~~~writableMask r ≠ 0#32 → exec (.dbits v) s = .next { s with
          desc := .opened reg ops (some .permissionDenied), cont := .none, pc := s.pc + 1 }) ∧
        (t &&& declaredMask r &&& ~~~writableMask r = 0#32 → t &&& reservedMask r ≠ 0#32 →
          exec (.dbits v) s = .next { s with
            desc := .opened reg ops (some .reservedBit), cont := .none, pc := s.pc + 1 }) ∧
        (t &&& declaredMask r &&& ~~~writableMask r = 0#32 → t &&& reservedMask r = 0#32 →
          2 ^ r.decl.width.bits ≤ t.toNat →
          exec (.dbits v) s = .next { s with
            desc := .opened reg ops (some .valueTooWide), cont := .none, pc := s.pc + 1 }))) ∧
    (∀ v fld, s.xAt v = none →
      exec (.dset v fld) s = .next { s with fault := some ⟨.unwrittenRegister v, s.pc⟩ } ∧
      exec (.dxor v fld) s = .next { s with fault := some ⟨.unwrittenRegister v, s.pc⟩ } ∧
      exec (.dbits v) s = .next { s with fault := some ⟨.unwrittenRegister v, s.pc⟩ })

/-- R206, R207, R217, R93, R98: WRITE of a clean group of validated operations on a writable device register makes exactly
one store, of the operations applied to the write-default, closes the group and completes OK; where a device guard stops
that store (an unmodelled bit of CR1 or TDR, TDR while TXE is 0) it faults, with nothing else changed (narrower registers:
log entry 25). -/
def Obligations.WriteStoresOnce : Prop :=
  ∀ (s : State) (r : Reg) (ops : List StagedOp), s.desc = .opened (some r) ops none → accepted s.cfg = true →
    r ∈ regsOf s.cfg.regtab → DeviceReg r → canWrite r = true → OpsLegal r ops →
    (StoreAllowed s r.decl.name (applyOps r ops r.decl.wdef) = true →
      ∃ u, StoreRule s r.decl.name (applyOps r ops r.decl.wdef) u ∧
        exec .write s = .next { u with
          desc := .none, trace := s.trace ++ [.store (addrOf r) r.decl.width (applyOps r ops r.decl.wdef)],
          status := 0#32, cont := .none, pc := s.pc + 1 }) ∧
    (∀ k, guardFault s r.decl.name (applyOps r ops r.decl.wdef) = some k →
      exec .write s = .next { s with fault := some ⟨k, s.pc⟩ })

/-- R207, R218, R93, R98: MODIFY of a clean group of validated operations on a readable and writable device register takes
two ENGINE steps: one load, which closes the group, then one store of the operations applied to the base made from the
value read, and completes OK; where a device guard stops that store, the second step faults and the load stays (narrower
registers: log entries 23 and 25). -/
def Obligations.ModifyLoadsThenStores : Prop :=
  ∀ (s : State) (r : Reg) (ops : List StagedOp), s.fault = none → s.desc = .opened (some r) ops none →
    accepted s.cfg = true → r ∈ regsOf s.cfg.regtab → DeviceReg r → canRead r = true → canWrite r = true →
    OpsLegal r ops →
    ∃ v u, LoadRule s r v u ∧
      (StoreAllowed u r.decl.name (applyOps r ops (modifyBase r v)) = true →
        ∃ w, StoreRule u r.decl.name (applyOps r ops (modifyBase r v)) w ∧
          runAgents (exec .modify s) [.engine] = .next { w with
            desc := .none,
            trace := s.trace ++ [.load (addrOf r) r.decl.width v,
              .store (addrOf r) r.decl.width (applyOps r ops (modifyBase r v))],
            status := 0#32, cont := .none, pc := s.pc + 1 }) ∧
      (∀ k, guardFault u r.decl.name (applyOps r ops (modifyBase r v)) = some k →
        runAgents (exec .modify s) [.engine] = .next { u with
          desc := .none, trace := s.trace ++ [.load (addrOf r) r.decl.width v],
          cont := .modifyStore r ops v .group, fault := some ⟨k, s.pc⟩ })

/-- R203, R205, R217, R218, R220, R222: a WRITE or MODIFY that fails reports UnknownRegister, then PermissionDenied on the
register, then the group's poison, closes the group and makes no transaction. -/
def Obligations.GroupFailuresReport : Prop :=
  ∀ (s : State) (reg : Option Reg) (ops : List StagedOp) (poison : Option Cause), s.desc = .opened reg ops poison →
    (reg = none →
      exec .write s = .next { s with desc := .none, status := 0x0101#32, cont := .none, pc := s.pc + 1 } ∧
      exec .modify s = .next { s with desc := .none, status := 0x0101#32, cont := .none, pc := s.pc + 1 }) ∧
    ∀ r, reg = some r →
      (canWrite r = false →
        exec .write s = .next { s with desc := .none, status := 0x0201#32, cont := .none, pc := s.pc + 1 }) ∧
      (canRead r = false ∨ canWrite r = false →
        exec .modify s = .next { s with desc := .none, status := 0x0201#32, cont := .none, pc := s.pc + 1 }) ∧
      (∀ c, poison = some c → canWrite r = true →
        exec .write s = .next { s with desc := .none, status := causeStatus c, cont := .none, pc := s.pc + 1 } ∧
        (canRead r = true →
          exec .modify s = .next { s with desc := .none, status := causeStatus c, cont := .none, pc := s.pc + 1 }))

/-- R206, R221: validated operations on a legal register change only bits of writable fields: the stored value of a WRITE
or MODIFY sets no reserved bit; outside the writable fields a WRITE stores the write-default's bits; and a MODIFY with no
BITS keeps every readable bit outside the fields its operations name. -/
def Obligations.StoredValuesRespectFields : Prop :=
  ∀ (r : Reg) (ops : List StagedOp) (v : Word), regLegal r = true → OpsLegal r ops →
    applyOps r ops r.decl.wdef &&& reservedMask r = 0#32 ∧
    applyOps r ops (modifyBase r v) &&& reservedMask r = 0#32 ∧
    applyOps r ops r.decl.wdef &&& ~~~writableMask r = r.decl.wdef &&& ~~~writableMask r ∧
    ∀ A : Word, (∀ o ∈ ops, match o with
        | .set f _ => fieldMask f &&& ~~~A = 0#32
        | .xor f _ => fieldMask f &&& ~~~A = 0#32
        | .bits _ => writableMask r &&& ~~~A = 0#32) →
      applyOps r ops r.decl.wdef &&& ~~~A = r.decl.wdef &&& ~~~A ∧
      applyOps r ops (modifyBase r v) &&& ~~~A &&& readableMask r = v &&& ~~~A &&& readableMask r ∧
      (v &&& reservedMask r = 0#32 → v &&& ~~~widthMask r = 0#32 →
        applyOps r ops (modifyBase r v) &&& ~~~A &&& ~~~woMask r = v &&& ~~~A &&& ~~~woMask r)

/-! ### The timer -/

/-- R260 to R262: TSTART of a period that fits, and TSTARTI, take three ENGINE steps: the period is stored to ARR, CR1 is
loaded, and stored with OPM and CEN set; TST becomes Counting; UIF and the count are not touched. -/
def Obligations.StartCommandsStartCount : Prop :=
  ∀ (s : State) (base n : Word) (i : Instr), Ready s → accepted s.cfg = true → ServesTimer s.cfg.regtab base →
    ModesClear s.tim → n.toNat ≤ 0xFFFF →
    ((∃ v, i = .tstart v ∧ s.xAt v = some n) ∨ (∃ imm : Half, i = .tstarti imm ∧ n = imm.setWidth 32)) →
    runAgents (exec i s) [.engine, .engine] = .next { s with
      tim := { s.tim with arr := n.extractLsb' 0 16, opm := true, cen := true }
      tst := .counting
      trace := s.trace ++ [.store (addrOf ⟨base, timArr⟩) .word n,
        .load (addrOf ⟨base, timCr1⟩) .word (cr1Value s.tim),
        .store (addrOf ⟨base, timCr1⟩) .word (cr1Value s.tim ||| 9#32)]
      status := 0#32, cont := .none, pc := s.pc + 1 }

/-- R31, R204, R261, R265, R312: TSTART and DELAY of a value above 0xFFFF, and USEND of one above 0xFF, report ValueTooWide
with no transaction; of an unwritten register they fault. Only the width check of TSTART and DELAY reads the table. -/
def Obligations.DriverOperandErrors : Prop :=
  ∀ (s : State) (v : RegIx), s.desc = .none →
    (∀ (base : Word) (n : Word), ServesTimer s.cfg.regtab base → s.xAt v = some n → 0xFFFF < n.toNat →
      exec (.tstart v) s = .next { s with status := 0x0501#32, cont := .none, pc := s.pc + 1 } ∧
      exec (.delay v) s = .next { s with status := 0x0501#32, cont := .none, pc := s.pc + 1 }) ∧
    (s.xAt v = none →
      exec (.tstart v) s = .next { s with fault := some ⟨.unwrittenRegister v, s.pc⟩ } ∧
      exec (.delay v) s = .next { s with fault := some ⟨.unwrittenRegister v, s.pc⟩ } ∧
      exec (.usend v) s = .next { s with fault := some ⟨.unwrittenRegister v, s.pc⟩ }) ∧
    (∀ t, s.xAt v = some t → 0xFF < t.toNat →
      exec (.usend v) s = .next { s with status := 0x0501#32, cont := .none, pc := s.pc + 1 })

/-- R263: TPOLL makes one SR load a step; it completes, TST Expired, at the first that returns UIF = 1, without clearing
it; while UIF stays 0 it polls on for any number of ENGINE steps (R358), and completes at the first step after UIF is set,
whatever else the timer has done meanwhile. R374: in every fair run (log entry 18) a TPOLL whose count is running
completes, unless something faults. -/
def Obligations.TpollWaitsForUpdate : Prop :=
  (∀ (s : State) (base : Word), Ready s → accepted s.cfg = true → ServesTimer s.cfg.regtab base →
    (s.tim.uif = true →
      exec .tpoll s = .next { s with
        tst := .expired, trace := s.trace ++ [.load (addrOf ⟨base, timSr⟩) .word 1#32],
        status := 0#32, cont := .none, pc := s.pc + 1 }) ∧
    (s.tim.uif = false → ∀ k,
      runAgents (exec .tpoll s) (List.replicate k .engine) = .next { s with
        trace := s.trace ++ List.replicate (k + 1) (.load (addrOf ⟨base, timSr⟩) .word 0#32),
        cont := .pollUif false } ∧
      ∀ tim' : Timer, tim'.uif = true →
        engineStep { s with
          tim := tim'
          trace := s.trace ++ List.replicate (k + 1) (.load (addrOf ⟨base, timSr⟩) .word 0#32)
          cont := .pollUif false } = .next { s with
            tim := tim', tst := .expired,
            trace := s.trace ++ List.replicate (k + 1) (.load (addrOf ⟨base, timSr⟩) .word 0#32) ++
              [.load (addrOf ⟨base, timSr⟩) .word 1#32],
            status := 0#32, cont := .none, pc := s.pc + 1 })) ∧
  (∀ (σ : Nat → State) (base : Word) (k : Nat), IsRun σ → WeaklyFair σ → accepted (σ k).cfg = true →
    ServesTimer (σ k).cfg.regtab base → (σ k).fault = none → (σ k).cont = .pollUif false → (σ k).tim.cen = true →
    (σ k).tim.cnt.toNat < (σ k).tim.arr.toNat →
    ∃ j, k ≤ j ∧ ((σ j).fault ≠ none ∨
      ((σ j).tst = .expired ∧ (σ j).status = 0#32 ∧ (σ j).cont = .none ∧ (σ j).pc = (σ k).pc + 1)))

/-- R94, R264: TACK takes two ENGINE steps, a load of SR and a store of 0, and leaves UIF clear and TST Idle. A device step
between the two that sets UIF is lost (R103, R412): the store clears it whatever it is then. -/
def Obligations.TackClearsUpdate : Prop :=
  ∀ (s : State) (base : Word) (uif' : Bool), Ready s → accepted s.cfg = true → ServesTimer s.cfg.regtab base →
    ∃ t, exec .tack s = .next t ∧
      engineStep { t with tim := { t.tim with uif := uif' } } = .next { s with
        tim := { s.tim with uif := false }
        tst := .idle
        trace := s.trace ++ [.load (addrOf ⟨base, timSr⟩) .word (if s.tim.uif then 1#32 else 0#32),
          .store (addrOf ⟨base, timSr⟩) .word 0#32]
        status := 0#32, cont := .none, pc := s.pc + 1 }

/-- R265, R266: outside a group, DELAY of a register holding 0, and DELAYI 0, complete at once with no transaction, TST
unchanged. -/
def Obligations.ZeroDelayCompletes : Prop :=
  ∀ s : State, s.desc = .none →
    exec (.delayi 0#16) s = .next { s with status := 0#32, cont := .none, pc := s.pc + 1 } ∧
    ∀ (base : Word) (v : RegIx), ServesTimer s.cfg.regtab base → s.xAt v = some 0#32 →
      exec (.delay v) s = .next { s with status := 0#32, cont := .none, pc := s.pc + 1 }

/-- R260, R265, R266, R268, R370: a DELAY or DELAYI of n > 0 that begins with UIF clear and a count of cnt0 < n, whose
timer ticks n - cnt0 times after its start, in any order with its polls, makes an SR load that returns 0 for each poll
before the last tick, then exactly one that returns 1, acknowledges and completes, with the timer stopped, UIF and the
count 0, and TST Idle. -/
def Obligations.DelayTakesItsTicks : Prop :=
  ∀ (s : State) (base n : Word) (i : Instr) (order : List Agent), Ready s → accepted s.cfg = true → ServesTimer s.cfg.regtab base →
    ModesClear s.tim → s.tim.uif = false → n.toNat ≤ 0xFFFF → s.tim.cnt.toNat < n.toNat →
    ((∃ v, i = .delay v ∧ s.xAt v = some n) ∨ (∃ imm : Half, i = .delayi imm ∧ n = imm.setWidth 32)) →
    (∀ a ∈ order, a = .engine ∨ a = .timer) → s.tim.cnt.toNat + order.count .timer + 1 = n.toNat →
    runAgents (exec i s) ([.engine, .engine] ++ order ++ [.timer, .engine, .engine, .engine]) = .next { s with
      tim := { s.tim with arr := n.extractLsb' 0 16, opm := true, cen := false, uif := false, cnt := 0#16 }
      tst := .idle
      trace := s.trace ++ [.store (addrOf ⟨base, timArr⟩) .word n,
        .load (addrOf ⟨base, timCr1⟩) .word (cr1Value s.tim),
        .store (addrOf ⟨base, timCr1⟩) .word (cr1Value s.tim ||| 9#32)] ++
        List.replicate (order.count .engine) (.load (addrOf ⟨base, timSr⟩) .word 0#32) ++
        [.load (addrOf ⟨base, timSr⟩) .word 1#32, .load (addrOf ⟨base, timSr⟩) .word 1#32,
        .store (addrOf ⟨base, timSr⟩) .word 0#32]
      status := 0#32, cont := .none, pc := s.pc + 1 }

/-- R267, R410: a DELAY or DELAYI of n > 0 that begins with a stale UIF needs no tick: six ENGINE steps complete it, with
one SR load for its poll, and its own count is still running. -/
def Obligations.StaleFlagDelayReturnsAtOnce : Prop :=
  ∀ (s : State) (base n : Word) (i : Instr), Ready s → accepted s.cfg = true → ServesTimer s.cfg.regtab base →
    ModesClear s.tim → s.tim.uif = true → n ≠ 0#32 → n.toNat ≤ 0xFFFF →
    ((∃ v, i = .delay v ∧ s.xAt v = some n) ∨ (∃ imm : Half, i = .delayi imm ∧ n = imm.setWidth 32)) →
    runAgents (exec i s) (List.replicate 5 .engine) = .next { s with
      tim := { s.tim with arr := n.extractLsb' 0 16, opm := true, cen := true, uif := false }
      tst := .idle
      trace := s.trace ++ [.store (addrOf ⟨base, timArr⟩) .word n,
        .load (addrOf ⟨base, timCr1⟩) .word (cr1Value s.tim),
        .store (addrOf ⟨base, timCr1⟩) .word (cr1Value s.tim ||| 9#32),
        .load (addrOf ⟨base, timSr⟩) .word 1#32, .load (addrOf ⟨base, timSr⟩) .word 1#32,
        .store (addrOf ⟨base, timSr⟩) .word 0#32]
      status := 0#32, cont := .none, pc := s.pc + 1 }

/-! ### GPIO -/

/-- R290 to R293: PON and POFF of a pin below 16 make one store to BSRR, of the pin's set or reset bit, change that pin's
level and no other, and complete OK, or with PinOperationError where that is possible. -/
def Obligations.PinCommandsSetLevel : Prop :=
  ∀ (s : State) (base : Word) (p : Half) (on : Bool), s.desc = .none → accepted s.cfg = true →
    ServesGpio s.cfg.regtab base → p.toNat < 16 →
    ∃ (o : Half) (st : Word) (k : Nat),
      (∀ q, q < 16 → o.getLsbD q = if q = p.toNat then on else s.odr.getLsbD q) ∧
      (st = 0#32 ∨ (s.cfg.pinErrorPossible = true ∧ st = 3#32)) ∧
      (k = if s.cfg.pinErrorPossible then s.draws + 1 else s.draws) ∧
      exec (if on then .pon p else .poff p) s = .next { s with
        odr := o, draws := k,
        trace := s.trace ++ [.store (addrOf ⟨base, gpioBsrr⟩) .word
          (1#32 <<< (if on then p.toNat else p.toNat + 16))],
        status := st, cont := .none, pc := s.pc + 1 }

/-- R291, R292: PON and POFF of a pin index of 16 or more report PinOutOfRange and make no transaction. -/
def Obligations.PinOutOfRangeReports : Prop :=
  ∀ (s : State) (p : Half), s.desc = .none → 16 ≤ p.toNat →
    exec (.pon p) s = .next { s with status := 0x0601#32, cont := .none, pc := s.pc + 1 } ∧
    exec (.poff p) s = .next { s with status := 0x0601#32, cont := .none, pc := s.pc + 1 }

/-- R294: after any sequence of PON and POFF, each pin's level is that of the last command that names it, and its first
level if none does, whatever BSRR_BOTH says. -/
def Obligations.PinsAreIndependent : Prop :=
  ∀ (l : List (Bool × BitVec 4)) (s : State) (base : Word), s.desc = .none → accepted s.cfg = true →
    ServesGpio s.cfg.regtab base →
    ∃ t, runCommands (.next s) (l.map pinCommand) = .next t ∧ t.pc = s.pc + l.length ∧
      t.trace.length = s.trace.length + l.length ∧
      ∀ p : BitVec 4, t.odr.getLsbD p.toNat = levelAfter p l (s.odr.getLsbD p.toNat)

/-! ### The UART -/

/-- R310, R312, R313: USEND of a byte and USENDI, with the transmitter empty, take two ENGINE steps: a load of ISR that
shows TXE, and a store of the byte to TDR. -/
def Obligations.SendCommandsStoreByte : Prop :=
  ∀ (s : State) (base : Word) (b : Byte) (i : Instr), Ready s → accepted s.cfg = true →
    ServesUart s.cfg.regtab base → s.uart.txe = true →
    ((∃ v, i = .usend v ∧ s.xAt v = some (b.setWidth 32)) ∨ i = .usendi b) →
    ∃ w : Word, w.getLsbD 7 = true ∧
      runAgents (exec i s) [.engine] = .next { s with
        uart := { s.uart with tdr := b, txe := false }, draws := s.draws + 1,
        trace := s.trace ++ [.load (addrOf ⟨base, uartIsr⟩) .word w,
          .store (addrOf ⟨base, uartTdr⟩) .word (b.setWidth 32)],
        status := 0#32, cont := .none, pc := s.pc + 1 }

/-- R310, R312, R358, R413: a USEND, USENDI or USENDL with the transmitter full polls ISR and stores nothing, for any
number of ENGINE steps; once UART_TX has drained, the next poll sees TXE and the store follows (R372). R374: in every fair
run (log entry 18) the send of a last byte (USEND, USENDI, the end of USENDL) completes, unless something faults. -/
def Obligations.SendWaitsForEmpty : Prop :=
  (∀ (s : State) (base : Word) (b : Byte) (rest : List Byte) (i : Instr), Ready s → accepted s.cfg = true →
    ServesUart s.cfg.regtab base → s.uart.txe = false →
    (((∃ v, i = .usend v ∧ s.xAt v = some (b.setWidth 32)) ∨ i = .usendi b) ∧ rest = [] ∨
      i = .usendl ∧ s.lb = b :: rest) →
    ∀ k, ∃ (ws : List Word) (w : Word), ws.length = k + 1 ∧ (∀ w ∈ ws, w.getLsbD 7 = false) ∧ w.getLsbD 7 = true ∧
      runAgents (exec i s) (List.replicate k .engine) = .next { s with
        draws := s.draws + (k + 1),
        trace := s.trace ++ ws.map (fun w => .load (addrOf ⟨base, uartIsr⟩) .word w),
        cont := .sendPoll b rest } ∧
      runAgents (exec i s) (List.replicate k .engine ++ [.uartTx, .engine, .engine]) = .next { s with
        uart := { s.uart with output := s.uart.output ++ [s.uart.tdr], tdr := b, txe := false }
        draws := s.draws + (k + 2)
        trace := s.trace ++ ws.map (fun w => .load (addrOf ⟨base, uartIsr⟩) .word w) ++
          [.load (addrOf ⟨base, uartIsr⟩) .word w, .store (addrOf ⟨base, uartTdr⟩) .word (b.setWidth 32)]
        status := if rest = [] then 0#32 else s.status
        cont := match rest with
          | [] => .none
          | c :: cs => .sendPoll c cs
        pc := if rest = [] then s.pc + 1 else s.pc }) ∧
  (∀ (σ : Nat → State) (base : Word) (b : Byte) (k : Nat), IsRun σ → WeaklyFair σ → accepted (σ k).cfg = true →
    ServesUart (σ k).cfg.regtab base → (σ k).fault = none → (σ k).cont = .sendPoll b [] →
    ∃ j, k ≤ j ∧ ((σ j).fault ≠ none ∨
      ((σ j).uart.tdr = b ∧ (σ j).uart.txe = false ∧ (σ j).status = 0#32 ∧ (σ j).cont = .none ∧
        (σ j).pc = (σ k).pc + 1)))

/-- R311, R314: URECV with a byte received takes two ENGINE steps, loads of ISR and RDR, and gives the byte, clearing
RXNE; with none received it polls ISR for any number of ENGINE steps (R358), and once UART_RX has delivered one (R373) it
sees RXNE and gives that byte. R374: in every fair run (log entry 18) a URECV with a byte in IN or received completes,
unless something faults. -/
def Obligations.UrecvReceivesByte : Prop :=
  (∀ (s : State) (base : Word) (d : RegIx), Ready s → accepted s.cfg = true → ServesUart s.cfg.regtab base →
    (s.uart.rxne = true →
      ∃ w : Word, w.getLsbD 5 = true ∧
        runAgents (exec (.urecv d) s) [.engine] = .next { s with
          x := wrote s d ((s.uart.rdr.extractLsb' 0 8).setWidth 32),
          uart := { s.uart with rxne := false }, draws := s.draws + 1,
          trace := s.trace ++ [.load (addrOf ⟨base, uartIsr⟩) .word w,
            .load (addrOf ⟨base, uartRdr⟩) .word (s.uart.rdr.setWidth 32)],
          status := 0#32, cont := .none, pc := s.pc + 1 }) ∧
    (s.uart.rxne = false → ∀ k, ∃ ws : List Word, ws.length = k + 1 ∧ (∀ w ∈ ws, w.getLsbD 5 = false) ∧
      runAgents (exec (.urecv d) s) (List.replicate k .engine) = .next { s with
        draws := s.draws + (k + 1),
        trace := s.trace ++ ws.map (fun w => .load (addrOf ⟨base, uartIsr⟩) .word w),
        cont := .recvPoll (.byte d) none } ∧
      ∀ b rest, s.uart.input = b :: rest → ∃ w : Word, w.getLsbD 5 = true ∧
        runAgents (exec (.urecv d) s) (List.replicate k .engine ++ [.uartRx, .engine, .engine]) = .next { s with
          x := wrote s d (b.setWidth 32)
          uart := { s.uart with input := rest, rdr := b.setWidth 9, rxne := false }
          draws := s.draws + (k + 2)
          trace := s.trace ++ ws.map (fun w => .load (addrOf ⟨base, uartIsr⟩) .word w) ++
            [.load (addrOf ⟨base, uartIsr⟩) .word w, .load (addrOf ⟨base, uartRdr⟩) .word (b.setWidth 32)]
          status := 0#32, cont := .none, pc := s.pc + 1 })) ∧
  (∀ (σ : Nat → State) (base : Word) (d : RegIx) (k : Nat), IsRun σ → WeaklyFair σ → accepted (σ k).cfg = true →
    ServesUart (σ k).cfg.regtab base → (σ k).fault = none → (σ k).cont = .recvPoll (.byte d) none →
    (σ k).uart.rxne = true ∨ (σ k).uart.input ≠ [] →
    ∃ j, k ≤ j ∧ ((σ j).fault ≠ none ∨
      ((σ j).xAt d = some (((σ j).uart.rdr.extractLsb' 0 8).setWidth 32) ∧ (σ j).uart.rxne = false ∧ (σ j).status = 0#32 ∧ (σ j).cont = .none ∧
        (σ j).pc = (σ k).pc + 1)))

/-- R315, R319: ULINE, run while the line delivers the bytes of L and the terminator, each taken as it arrives, ends with
the first C bytes of L in LB, one Overflow report for each other byte in order, the length of LB in Xd, STATUS OK or
BufferOverflowError with the (saturated) number of dropped bytes, and the bytes after the terminator still to come.
R318, R141: the echo ECHOLINE, run from an idle line on which L and the terminator come first, in whatever order the
agents step, sends the first C bytes of L reversed and the terminator, and reports each other byte, if its run ends. -/
def Obligations.UlineFramesLine : Prop :=
  (∀ (line rest : List Byte) (s : State) (base : Word) (d : RegIx), Ready s → accepted s.cfg = true →
    ServesUart s.cfg.regtab base → s.uart.rxne = false → s.uart.input = line ++ 0x0A#8 :: rest → 0x0A#8 ∉ line →
    ∃ t, runAgents (exec (.uline d) s) (receiveSchedule (line.length + 1)) = .next t ∧
      t.lb = line.take s.cfg.capacity ∧
      t.reports = s.reports ++ (line.drop s.cfg.capacity).map .overflow ∧
      t.x = wrote s d (BitVec.ofNat 32 (min line.length s.cfg.capacity)) ∧
      t.status = (if line.length ≤ s.cfg.capacity then 0#32
        else BitVec.ofNat 32 (min (line.length - s.cfg.capacity) 0xFFFF * 65536 + 2)) ∧
      t.uart.input = rest ∧ t.uart.rxne = false ∧ t.uart.output = s.uart.output ∧
      t.pc = s.pc + 1 ∧ t.cont = .none ∧ t.desc = .none ∧ t.fault = none ∧ t.tim = s.tim ∧ t.odr = s.odr ∧
      t.tst = s.tst) ∧
  (∀ (line rest : List Byte) (σ : Nat → State) (n : Nat) (base : Word) (d : RegIx), IsRun σ → EndsAt σ n →
    Ready (σ 0) → (σ 0).cont = .none → accepted (σ 0).cfg = true → ServesUart (σ 0).cfg.regtab base →
    (σ 0).prog.drop (σ 0).pc = (expand (.echoline d)).map encode → (σ 0).uart.txe = true → (σ 0).uart.rxne = false →
    (σ 0).uart.input = line ++ 0x0A#8 :: rest → 0x0A#8 ∉ line →
    (σ n).uart.output = (σ 0).uart.output ++ ((line.take (σ 0).cfg.capacity).reverse ++ [0x0A#8]) ∧
    (σ n).reports = (σ 0).reports ++ (line.drop (σ 0).cfg.capacity).map .overflow)

/-- R316: LREV, format N with opcode 54, reverses the line buffer in one step; an empty or one-byte buffer is unchanged,
and LREV twice restores it. -/
def Obligations.LrevReverses : Prop :=
  decode 0x54000000#32 = .ok .lrev ∧
  ∀ s : State, s.desc = .none →
    (s.lb.length ≤ 1 → s.lb.reverse = s.lb) ∧
    exec .lrev s = .next { s with lb := s.lb.reverse, status := 0#32, cont := .none, pc := s.pc + 1 } ∧
    ∃ t, runCommands (.next s) [.lrev, .lrev] = .next t ∧ t.lb = s.lb

/-- R317, R372: USENDL, each byte drained before the next poll, sends the bytes of LB in order and completes, LB
unchanged; with an empty LB it completes at once with no transaction, whatever the table and TXE. -/
def Obligations.UsendlSendsBuffer : Prop :=
  (∀ s : State, s.desc = .none → s.lb = [] →
    exec .usendl s = .next { s with status := 0#32, cont := .none, pc := s.pc + 1 }) ∧
  (∀ (s : State) (base : Word) (b : Byte) (rest : List Byte), Ready s → accepted s.cfg = true →
    ServesUart s.cfg.regtab base → s.uart.txe = true → s.lb = b :: rest →
    ∃ t, runAgents (exec .usendl s) ([.engine, .uartTx] ++ sendSchedule rest.length) = .next t ∧
      t.uart.output = s.uart.output ++ s.lb ∧ t.uart.txe = true ∧ t.lb = s.lb ∧ t.x = s.x ∧ t.status = 0#32 ∧
      t.pc = s.pc + 1 ∧ t.cont = .none ∧ t.fault = none)

/-! ### First steps -/

/-- R39, R218, R260 to R266, R310 to R317: the first step of a command of several steps is one transaction, and CONT then
says how the command goes on. MODIFY loads its register. TSTART, TSTARTI and a DELAY or DELAYI of n > 0 store the period to
ARR. TACK loads SR. USEND, USENDI and USENDL of a nonempty LB load ISR, and store to TDR next if TXE is 1; URECV and ULINE
load ISR, and load RDR next if RXNE is 1; ULINE also clears LB. TPOLL is in TpollWaitsForUpdate. MODIFY's clause holds at
every width; a value that a register narrower than the profile's cannot hold is free (the model's choice, log entry 23). -/
def Obligations.FirstStepsMakeOneTransaction : Prop :=
  ∀ (s : State) (base : Word), accepted s.cfg = true →
    (∀ r ops, s.desc = .opened (some r) ops none → r ∈ regsOf s.cfg.regtab → DeviceReg r → canRead r = true →
      canWrite r = true →
      ∃ v u, LoadRule s r v u ∧
        exec .modify s = .next { u with
          desc := .none, trace := s.trace ++ [.load (addrOf r) r.decl.width v], cont := .modifyStore r ops v .group }) ∧
    (s.desc = .none → ServesTimer s.cfg.regtab base →
      (∀ (i : Instr) (n : Word) (delay : Bool), n.toNat ≤ 0xFFFF →
        (delay = false ∧ ((∃ v, i = .tstart v ∧ s.xAt v = some n) ∨ ∃ imm : Half, i = .tstarti imm ∧ n = imm.setWidth 32) ∨
         delay = true ∧ n ≠ 0#32 ∧
          ((∃ v, i = .delay v ∧ s.xAt v = some n) ∨ ∃ imm : Half, i = .delayi imm ∧ n = imm.setWidth 32)) →
        exec i s = .next { s with
          tim := { s.tim with arr := n.extractLsb' 0 16 }
          trace := s.trace ++ [.store (addrOf ⟨base, timArr⟩) .word n], cont := .startModify delay }) ∧
      exec .tack s = .next { s with
        trace := s.trace ++ [.load (addrOf ⟨base, timSr⟩) .word (if s.tim.uif then 1#32 else 0#32)],
        cont := .modifyStore ⟨base, timSr⟩ [.set (bitField .uif 0 .rw) 0#32] (if s.tim.uif then 1#32 else 0#32)
          .acknowledged }) ∧
    (s.desc = .none → ServesUart s.cfg.regtab base →
      ∃ w : Word, w.getLsbD 7 = s.uart.txe ∧ w.getLsbD 5 = s.uart.rxne ∧
        (∀ (i : Instr) (b : Byte) (rest : List Byte),
          (((∃ v, i = .usend v ∧ s.xAt v = some (b.setWidth 32)) ∨ i = .usendi b) ∧ rest = [] ∨
            i = .usendl ∧ s.lb = b :: rest) →
          exec i s = .next { s with
            draws := s.draws + 1, trace := s.trace ++ [.load (addrOf ⟨base, uartIsr⟩) .word w],
            cont := if s.uart.txe then .sendStore b rest else .sendPoll b rest }) ∧
        ∀ d : RegIx,
          exec (.urecv d) s = .next { s with
            draws := s.draws + 1, trace := s.trace ++ [.load (addrOf ⟨base, uartIsr⟩) .word w],
            cont := if s.uart.rxne then .recvLoad (.byte d) else .recvPoll (.byte d) none } ∧
          exec (.uline d) s = .next { s with
            lb := [], draws := s.draws + 1, trace := s.trace ++ [.load (addrOf ⟨base, uartIsr⟩) .word w],
            cont := if s.uart.rxne then .recvLoad (.line d 0) else .recvPoll (.line d 0) none })

/-! ### Devices -/

/-- R370: the TIMER has a step exactly when nothing has faulted, CEN is 1 and ARR is not 0; its tick counts one; at the
period it sets UIF, returns the count to 0, and in one-shot mode stops; with the count at or past the period it faults.
k ticks below the period count k and set nothing. -/
def Obligations.TimerTickCounts : Prop :=
  ∀ s : State,
    (enabled s .timer = true ↔ s.fault = none ∧ s.tim.cen = true ∧ s.tim.arr ≠ 0#16) ∧
    (enabled s .timer = true → s.tim.arr.toNat ≤ s.tim.cnt.toNat →
      agentStep s .timer = .next { s with fault := some ⟨.timerOverrunPeriod s.tim.cnt s.tim.arr, s.pc⟩ }) ∧
    (enabled s .timer = true → s.tim.cnt.toNat + 1 = s.tim.arr.toNat →
      agentStep s .timer = .next { s with tim := { s.tim with uif := true, cnt := 0#16, cen := !s.tim.opm } }) ∧
    (enabled s .timer = true → ∀ k, s.tim.cnt.toNat + k < s.tim.arr.toNat →
      runAgents (.next s) (List.replicate k .timer) =
        .next { s with tim := { s.tim with cnt := BitVec.ofNat 16 (s.tim.cnt.toNat + k) } })

/-- R372, R373: UART_TX has a step exactly when nothing has faulted and TXE is 0, and moves its byte to OUT and empties;
UART_RX has one exactly when nothing has faulted, IN is not empty, and RX_PACED is false or RXNE 0; it takes the head of IN
into RDR and sets RXNE, or faults UartOverrun when RXNE is already set, which RX_PACED rules out. -/
def Obligations.UartAgentsMoveBytes : Prop :=
  ∀ s : State,
    (enabled s .uartTx = true ↔ s.fault = none ∧ s.uart.txe = false) ∧
    (enabled s .uartRx = true ↔
      s.fault = none ∧ s.uart.input ≠ [] ∧ (s.cfg.rxPaced = false ∨ s.uart.rxne = false)) ∧
    (enabled s .uartTx = true →
      agentStep s .uartTx = .next { s with
        uart := { s.uart with output := s.uart.output ++ [s.uart.tdr], txe := true } }) ∧
    (∀ b rest, s.uart.input = b :: rest →
      (s.uart.rxne = false →
        agentStep s .uartRx = .next { s with
          uart := { s.uart with input := rest, rdr := b.setWidth 9, rxne := true } }) ∧
      (s.uart.rxne = true →
        agentStep s .uartRx = .next { s with fault := some ⟨.uartOverrun b, s.pc⟩ } ∧
        (s.cfg.rxPaced = true → enabled s .uartRx = false)))

/-- R97: a set/reset store changes each of the 16 pins by its own two bits alone; a pin with both bits 0 keeps its
level. -/
def Obligations.BsrrStorePerPin : Prop :=
  ∀ (both : BsrrBoth) (odr : Half) (v : Word) (p : Nat), p < 16 →
    (bsrrPins both odr v).getLsbD p = pinAfter both (odr.getLsbD p) (v.getLsbD p) (v.getLsbD (p + 16)) ∧
    (v.getLsbD p = false → v.getLsbD (p + 16) = false → (bsrrPins both odr v).getLsbD p = odr.getLsbD p)

/-! ### Frames -/

/-- R12, R31, R37, R109: whatever a command's first step does, it changes no result register but its destination, and
never the parameters, the program, REPORTS, IN, OUT, the received byte, the count, or the schedule. -/
def Obligations.CommandStepFrame : Prop :=
  ∀ (i : Instr) (s t : State), exec i s = .next t →
    (∀ j, destOf i ≠ some j → t.xAt j = s.xAt j) ∧ t.cfg = s.cfg ∧ t.prog = s.prog ∧ t.reports = s.reports ∧
    t.uart.input = s.uart.input ∧ t.uart.output = s.uart.output ∧ t.uart.rdr = s.uart.rdr ∧
    t.uart.ore = s.uart.ore ∧ t.tim.cnt = s.tim.cnt ∧ t.turns = s.turns ∧ t.choices = s.choices

/-- R170 to R172, R212 to R216, R316: the commands that make no transaction (LI, LIH, GETS, DBEGIN, the staging commands,
LREV) change no device, no TRACE event and no draw, and only LREV changes LB; GETS, DBEGIN and the staging commands keep
STATUS (R33). -/
def Obligations.NoTransactionFrame : Prop :=
  ∀ (i : Instr) (s t : State), exec i s = .next t →
    (i = .lrev ∨ keepsStatus i = true ∨ (∃ d imm, i = .li d imm ∨ i = .lih d imm)) →
    t.trace = s.trace ∧ t.tim = s.tim ∧ t.odr = s.odr ∧ t.uart = s.uart ∧ t.draws = s.draws ∧ t.tst = s.tst ∧
    (i ≠ .lrev → t.lb = s.lb) ∧ (keepsStatus i = true → t.status = s.status)

/-- R92, R103, R108: the commands whose first step is a load (LDV, RREAD, RFIELD, MODIFY, TPOLL, TACK, USEND, USENDI,
URECV, ULINE, USENDL) store nothing in that step: timer and pins keep their state, the UART all but RXNE, which only a
load of RDR clears; LB changes only by ULINE. -/
def Obligations.LoadStepFrame : Prop :=
  ∀ (i : Instr) (s t : State), exec i s = .next t →
    (i = .modify ∨ i = .tpoll ∨ i = .tack ∨ i = .usendl ∨ (∃ d b wc, i = .ldv d b wc) ∨ (∃ d sel, i = .rread d sel) ∨
      (∃ d sel fld, i = .rfield d sel fld) ∨ (∃ v, i = .usend v) ∨ (∃ b, i = .usendi b) ∨ (∃ d, i = .urecv d) ∨
      (∃ d, i = .uline d)) →
    t.tim = s.tim ∧ t.odr = s.odr ∧ { t.uart with rxne := s.uart.rxne } = s.uart ∧
    (t.uart.rxne = s.uart.rxne ∨ t.uart.rxne = false ∧
      ∃ r v, r ∈ regsOf s.cfg.regtab ∧ r.decl.name = .uartRdr ∧
        t.trace = s.trace ++ [.load (addrOf r) r.decl.width v]) ∧
    ((∀ d, i ≠ .uline d) → t.lb = s.lb) ∧
    (∀ a n v, .store a n v ∈ t.trace → .store a n v ∈ s.trace)

/-- R102, R217, R182, R260, R290: the commands whose first step is a store (STV, WRITE, TSTART, TSTARTI, DELAY, DELAYI, PON,
POFF) change at most one device, the one of the register whose Store event they add; with no new event no device
changes; result registers, LB, REPORTS and TST stay (narrower registers: log entry 25). -/
def Obligations.StoreStepFrame : Prop :=
  ∀ (i : Instr) (s t : State), exec i s = .next t →
    (i = .write ∨ (∃ v b wc, i = .stv v b wc) ∨ (∃ v, i = .tstart v) ∨ (∃ m, i = .tstarti m) ∨ (∃ v, i = .delay v) ∨
      (∃ m, i = .delayi m) ∨ (∃ p, i = .pon p) ∨ (∃ p, i = .poff p)) →
    t.x = s.x ∧ t.lb = s.lb ∧ t.reports = s.reports ∧ t.tst = s.tst ∧
    ((t.trace = s.trace ∧ t.tim = s.tim ∧ t.odr = s.odr ∧ t.uart = s.uart) ∨
      ∃ r addr n v u, overlapped s.cfg.regtab addr n = some r ∧ addrOf r = addr ∧ r.decl.width = n ∧
        t.trace = s.trace ++ [.store addr n v] ∧ StoreRule s r.decl.name v u ∧
        t.tim = u.tim ∧ t.odr = u.odr ∧ t.uart = u.uart)

/-- R10, R109, R376: a step of TIMER changes the timer alone or FAULT alone, a step of UART_TX the UART alone, and a step of
UART_RX the UART alone or FAULT alone, so they change no other ENGINE state and make no transaction; an ENGINE step never
changes IN, OUT, the received byte, ORE or the count. -/
def Obligations.AgentsKeepToTheirState : Prop :=
  ∀ (s t : State) (a : Agent), agentStep s a = .next t →
    (a = .timer → (∃ k, t = { s with fault := some ⟨k, s.pc⟩ }) ∨ t = { s with tim := t.tim }) ∧
    (a = .uartTx → t = { s with uart := t.uart }) ∧
    (a = .uartRx → (∃ k, t = { s with fault := some ⟨k, s.pc⟩ }) ∨ t = { s with uart := t.uart }) ∧
    (a = .engine → t.uart.input = s.uart.input ∧ t.uart.output = s.uart.output ∧ t.uart.rdr = s.uart.rdr ∧
      t.uart.ore = s.uart.ore ∧ t.tim.cnt = s.tim.cnt)

/-- R12, R37, R40, R81, R100, R101, R106: every step keeps the parameters and the program, adds at most one event to the
end of TRACE, and only adds to the end of REPORTS and of OUT. -/
def Obligations.HistoryOnlyGrows : Prop :=
  ∀ s t : State, step s = .next t →
    t.cfg = s.cfg ∧ t.prog = s.prog ∧ (t.trace = s.trace ∨ ∃ e, t.trace = s.trace ++ [e]) ∧
    (t.reports = s.reports ∨ ∃ e, t.reports = s.reports ++ [e]) ∧
    (t.uart.output = s.uart.output ∨ t.uart.output = s.uart.output ++ [s.uart.tdr])

/-- R51, R97, R105, R294: a pin's level changes only in a step that adds to TRACE a store to ODR or BSRR. -/
def Obligations.PinsChangeOnlyByStores : Prop :=
  ∀ s t : State, step s = .next t → t.odr ≠ s.odr →
    ∃ r v, r ∈ regsOf s.cfg.regtab ∧ (r.decl.name = .gpioOdr ∨ r.decl.name = .gpioBsrr) ∧
      t.trace = s.trace ++ [.store (addrOf r) r.decl.width v]

/-- R222, R353, R354: a command whose first step completes with InvalidFieldError in STATUS is one of those R353 names for
it (RREAD, RFIELD, WRITE, MODIFY, STV, TSTART, DELAY, USEND, PON, POFF: never TSTARTI or DELAYI), and has made no bus
transaction and changed no device, no result register, not LB, REPORTS or TST. -/
def Obligations.InvalidFieldErrorTouchesNothing : Prop :=
  ∀ (i : Instr) (s t : State), exec i s = .next t → keepsStatus i = false → t.pc = s.pc + 1 →
    t.status.extractLsb' 0 8 = 1#8 →
    t.trace = s.trace ∧ t.tim = s.tim ∧ t.odr = s.odr ∧ t.uart = s.uart ∧ t.x = s.x ∧ t.lb = s.lb ∧
    t.reports = s.reports ∧ t.tst = s.tst ∧ t.desc = .none ∧
    (i = .write ∨ i = .modify ∨ (∃ d sel, i = .rread d sel) ∨ (∃ d sel fld, i = .rfield d sel fld) ∨
      (∃ v b wc, i = .stv v b wc) ∨ (∃ v, i = .tstart v) ∨ (∃ v, i = .delay v) ∨ (∃ v, i = .usend v) ∨
      (∃ p, i = .pon p) ∨ (∃ p, i = .poff p))

/-- R101, R108: two loads of a readable register other than RDR with nothing between them return the same value on the bits
the model fixes: ISR's ORE, RXNE and TXE, or the whole of another register, if it is 32 bits wide or its width holds its
value, so that no load of it is a draw (log entry 23). -/
def Obligations.RereadingReturnsSameValue : Prop :=
  ∀ (s : State) (d e : RegIx) (sel : Byte) (r : Reg), s.desc = .none → accepted s.cfg = true →
    resolve s.cfg.regtab sel = some r → DeviceReg r → canRead r = true → r.decl.name ≠ .uartRdr →
    r.decl.name ≠ .gpioBsrr → r.decl.name ≠ .uartTdr → d ≠ e →
    ∃ t v w, runCommands (.next s) [.rread d sel, .rread e sel] = .next t ∧ t.xAt d = some v ∧ t.xAt e = some w ∧
      t.trace = s.trace ++ [.load (addrOf r) r.decl.width v, .load (addrOf r) r.decl.width w] ∧
      (r.decl.name ≠ .uartIsr → r.decl.width = .word ∨ t.draws = s.draws → v = w) ∧
      (r.decl.name = .uartIsr → v.getLsbD 3 = w.getLsbD 3 ∧ v.getLsbD 5 = w.getLsbD 5 ∧ v.getLsbD 7 = w.getLsbD 7)

/-! ### The whole machine -/

/-- R54, R55, R401, R405: the state after reset has the launch premises and the invariant; so has the start of every
launch the model accepts, and a launch whose table or parameters are rejected has no run (R43). -/
def Obligations.LaunchMeetsPremises : Prop :=
  (LaunchPremises State.reset ∧ Inv State.reset) ∧
  ∀ l : Launch, (∀ s, State.launch l = some s → LaunchPremises s ∧ Inv s) ∧
    (accepted l.cfg = false → State.launch l = none)

/-- R54, R401: what reset leaves, for the state whose start value the spec gives. -/
def Obligations.ResetState : Prop :=
  State.reset.pc = 0 ∧ (∀ i, State.reset.xAt i = none) ∧ State.reset.status = 0#32 ∧ State.reset.desc = .none ∧
  State.reset.lb = [] ∧ State.reset.reports = [] ∧ State.reset.tst = .idle ∧ State.reset.cont = .none ∧
  State.reset.trace = [] ∧ State.reset.fault = none ∧ State.reset.tim.cen = false ∧ State.reset.tim.uif = false ∧
  State.reset.tim.cnt = 0#16 ∧ ModesClear State.reset.tim ∧ State.reset.uart.txe = true ∧
  State.reset.uart.rxne = false ∧ State.reset.uart.ore = false ∧ State.reset.uart.output = []

/-- R32, R34, R35, R36, R39, R52, R93, R205, R319, R356: the invariant of Safety.lean (the pc stays in the program, STATUS
keeps a value R34 allows, LB keeps within C, DESC and CONT hold validated operations on declared registers, the CR1 mode
bits and ORE stay 0, no Store event ever set a reserved bit) is kept by every step of every agent. -/
def Obligations.StepKeepsInvariant : Prop :=
  ∀ s t : State, Inv s → step s = .next t → Inv t

/-- R357: with an accepted table of the default profile at any bases, HardFault and UnmodelledAccess are raised only at an
LDV or STV, ReservedWrite only at an STV, TxOverwrite only at an STV or a WRITE (R310: never at a send), and UartOverrun
only while RXNE is 1; no other step of any agent raises them. -/
def Obligations.BusFaultsComeFromRawAccess : Prop :=
  ∀ (s t : State) (tb ub : Word) (f : FaultRecord), Inv s → accepted s.cfg = true →
    s.cfg.regtab = profile tb ub → step s = .next t → t.fault = some f →
    (faultCode f.kind = 1 ∨ faultCode f.kind = 2 →
      ∃ w i, s.prog[s.pc]? = some w ∧ decode w = .ok i ∧ s.cont = .none ∧
        ((∃ d b wc, i = .ldv d b wc) ∨ ∃ v b wc, i = .stv v b wc)) ∧
    (faultCode f.kind = 3 →
      ∃ w v b wc, s.prog[s.pc]? = some w ∧ decode w = .ok (.stv v b wc) ∧ s.cont = .none) ∧
    (faultCode f.kind = 5 →
      ∃ w i, s.prog[s.pc]? = some w ∧ decode w = .ok i ∧ s.cont = .none ∧ s.uart.txe = false ∧
        (i = .write ∨ ∃ v b wc, i = .stv v b wc)) ∧
    (faultCode f.kind = 6 → s.uart.rxne = true ∧ s.cfg.rxPaced = false)

/-- R34: the STATUS words of the four outcomes: causes 1 to 6 in bits 15..8, the count of dropped bytes in bits 31..16,
saturated. -/
def Obligations.StatusCodes : Prop :=
  statusWord .ok = 0#32 ∧ (∀ c, statusWord (.invalidField c) = causeStatus c) ∧ statusWord .pinOperation = 3#32 ∧
  ∀ k, (statusWord (.bufferOverflow k)).toNat = min k 0xFFFF * 65536 + 2
end

