-- ==== Sys2Proof/Laws/Bits.lean ====
section
/-! SUPPORT. Bits of flags, masks and status words (42_register_field.md R200, 10_state.md R34, R44). -/

namespace Sys2Proof.Machine

open Sys2Proof.Config

theorem flagAt_bit (b : Bool) {k : Nat} (i : Nat) (hk : k < 32) : (flagAt b k).getLsbD i = (i == k && b) := by
  cases b with
  | false => simp [flagAt]
  | true =>
    simp only [flagAt, if_true, BitVec.getLsbD_shiftLeft, BitVec.getLsbD_one]
    by_cases h : i = k
    · subst h
      simp [hk]
    · by_cases h2 : i < k
      · simp [h, h2]
      · have : i - k ≠ 0 := by omega
        simp [h, this]

theorem ones_bit {n i : Nat} (hi : i < 32) : (ones n).getLsbD i = decide (i < n) := by
  simp only [ones, BitVec.getLsbD_ofNat, Nat.testBit_two_pow_sub_one]
  simp [hi]

/-- A field's mask has its bits `lo..hi` (R44). -/
theorem fieldMask_bit {f : Field} {i : Nat} (hi : i < 32) (h : f.lo ≤ f.hi) :
    (fieldMask f).getLsbD i = (decide (f.lo ≤ i) && decide (i ≤ f.hi)) := by
  simp only [fieldMask, BitVec.getLsbD_shiftLeft, hi, decide_true, Bool.true_and]
  by_cases h1 : i < f.lo
  · simp [h1]
  · rw [ones_bit (by omega)]
    simp only [h1, fieldLen, decide_false, Bool.not_false, Bool.true_and]
    by_cases h2 : i ≤ f.hi
    · simp [h2]
      omega
    · simp [h2]
      omega

/-- The or of some fields' masks has the bits any of them covers (R44). -/
theorem maskOf_bit {l : List Field} {i : Nat} (hi : i < 32) (h : ∀ f ∈ l, f.lo ≤ f.hi) :
    (maskOf l).getLsbD i = l.any fun f => decide (f.lo ≤ i) && decide (i ≤ f.hi) := by
  induction l with
  | nil => simp [maskOf]
  | cons f l ih =>
    simp only [maskOf, BitVec.getLsbD_or, List.any_cons]
    rw [fieldMask_bit hi (h f (by simp)), ih fun g hg => h g (by simp [hg])]

/-- A value that fits a field stays within the field's mask when shifted to its place (R200). -/
theorem fits_within {x : Word} {f : Field} (h : fits x f = true) : (x <<< f.lo) &&& ~~~fieldMask f = 0#32 := by
  apply BitVec.eq_of_getLsbD_eq
  intro i hi
  simp only [fits, decide_eq_true_eq] at h
  simp only [fieldMask, BitVec.getLsbD_and, BitVec.getLsbD_shiftLeft, BitVec.getLsbD_not, hi, decide_true,
    Bool.true_and, BitVec.getLsbD_zero]
  by_cases h1 : i < f.lo
  · simp [h1]
  · rw [ones_bit (by omega)]
    by_cases h2 : i - f.lo < fieldLen f
    · have : f.lo ≤ i := by omega
      simp [h2, this]
    · have : x.getLsbD (i - f.lo) = false :=
        Nat.testBit_lt_two_pow (lt_of_lt_of_le h (Nat.pow_le_pow_right (by decide) (by omega)))
      simp [this]

/-- Bits of an extracted field value (R200). -/
theorem extract_bit (v : Word) {f : Field} (i : Nat) (hr : f.lo ≤ f.hi) (hh : f.hi < 32) :
    (extract v f).getLsbD i = (decide (i < f.hi - f.lo + 1) && v.getLsbD (f.lo + i)) := by
  simp only [extract, BitVec.getLsbD_and, BitVec.getLsbD_ushiftRight]
  by_cases h : i < 32
  · rw [ones_bit h]
    simp [fieldLen, Bool.and_comm]
  · have h1 : v.getLsbD (f.lo + i) = false := BitVec.getLsbD_of_ge v _ (by omega)
    simp [h1]

/-- The three fields of a STATUS word (R34). -/
theorem statusWord_kind (o : Result) : (statusWord o).extractLsb' 0 8 = kindField o := by
  apply BitVec.eq_of_getLsbD_eq
  intro i hi
  simp only [statusWord, BitVec.getLsbD_extractLsb', BitVec.getLsbD_append]
  simp [hi]

theorem statusWord_cause (o : Result) : (statusWord o).extractLsb' 8 8 = causeField o := by
  apply BitVec.eq_of_getLsbD_eq
  intro i hi
  simp only [statusWord, BitVec.getLsbD_extractLsb', BitVec.getLsbD_append]
  have h1 : ¬ 8 + i < 8 := by omega
  simp [hi, h1]

theorem statusWord_count (o : Result) : (statusWord o).extractLsb' 16 16 = countField o := by
  apply BitVec.eq_of_getLsbD_eq
  intro i hi
  simp only [statusWord, BitVec.getLsbD_extractLsb', BitVec.getLsbD_append]
  have h1 : ¬ 16 + i < 8 := by omega
  have h2 : ¬ 16 + i - 8 < 8 := by omega
  have h3 : 16 + i - 8 - 8 = i := by omega
  simp [hi, h1, h2, h3]

end Sys2Proof.Machine
end

