-- ==== Sys2Proof/Laws/State.lean ====
section
/-! SUPPORT. What each named update of the state does to each field. -/

namespace Sys2Proof.Machine

@[simp] theorem State.raise_cfg (s : State) (k : FaultKind) : (s.raise k).cfg = s.cfg := rfl
@[simp] theorem State.raise_prog (s : State) (k : FaultKind) : (s.raise k).prog = s.prog := rfl
@[simp] theorem State.raise_pc (s : State) (k : FaultKind) : (s.raise k).pc = s.pc := rfl
@[simp] theorem State.raise_x (s : State) (k : FaultKind) : (s.raise k).x = s.x := rfl
@[simp] theorem State.raise_status (s : State) (k : FaultKind) : (s.raise k).status = s.status := rfl
@[simp] theorem State.raise_desc (s : State) (k : FaultKind) : (s.raise k).desc = s.desc := rfl
@[simp] theorem State.raise_lb (s : State) (k : FaultKind) : (s.raise k).lb = s.lb := rfl
@[simp] theorem State.raise_reports (s : State) (k : FaultKind) : (s.raise k).reports = s.reports := rfl
@[simp] theorem State.raise_tst (s : State) (k : FaultKind) : (s.raise k).tst = s.tst := rfl
@[simp] theorem State.raise_cont (s : State) (k : FaultKind) : (s.raise k).cont = s.cont := rfl
@[simp] theorem State.raise_trace (s : State) (k : FaultKind) : (s.raise k).trace = s.trace := rfl
@[simp] theorem State.raise_fault (s : State) (k : FaultKind) : (s.raise k).fault = some ⟨k, s.pc⟩ := rfl
@[simp] theorem State.raise_tim (s : State) (k : FaultKind) : (s.raise k).tim = s.tim := rfl
@[simp] theorem State.raise_odr (s : State) (k : FaultKind) : (s.raise k).odr = s.odr := rfl
@[simp] theorem State.raise_uart (s : State) (k : FaultKind) : (s.raise k).uart = s.uart := rfl
@[simp] theorem State.raise_turns (s : State) (k : FaultKind) : (s.raise k).turns = s.turns := rfl
@[simp] theorem State.raise_choices (s : State) (k : FaultKind) : (s.raise k).choices = s.choices := rfl
@[simp] theorem State.raise_draws (s : State) (k : FaultKind) : (s.raise k).draws = s.draws := rfl

@[simp] theorem State.setX_cfg (s : State) (i : RegIx) (v : Word) : (s.setX i v).cfg = s.cfg := rfl
@[simp] theorem State.setX_prog (s : State) (i : RegIx) (v : Word) : (s.setX i v).prog = s.prog := rfl
@[simp] theorem State.setX_pc (s : State) (i : RegIx) (v : Word) : (s.setX i v).pc = s.pc := rfl
@[simp] theorem State.setX_x (s : State) (i : RegIx) (v : Word) : (s.setX i v).x = s.x.set i.toNat (some v) i.isLt := rfl
@[simp] theorem State.setX_status (s : State) (i : RegIx) (v : Word) : (s.setX i v).status = s.status := rfl
@[simp] theorem State.setX_desc (s : State) (i : RegIx) (v : Word) : (s.setX i v).desc = s.desc := rfl
@[simp] theorem State.setX_lb (s : State) (i : RegIx) (v : Word) : (s.setX i v).lb = s.lb := rfl
@[simp] theorem State.setX_reports (s : State) (i : RegIx) (v : Word) : (s.setX i v).reports = s.reports := rfl
@[simp] theorem State.setX_tst (s : State) (i : RegIx) (v : Word) : (s.setX i v).tst = s.tst := rfl
@[simp] theorem State.setX_cont (s : State) (i : RegIx) (v : Word) : (s.setX i v).cont = s.cont := rfl
@[simp] theorem State.setX_trace (s : State) (i : RegIx) (v : Word) : (s.setX i v).trace = s.trace := rfl
@[simp] theorem State.setX_fault (s : State) (i : RegIx) (v : Word) : (s.setX i v).fault = s.fault := rfl
@[simp] theorem State.setX_tim (s : State) (i : RegIx) (v : Word) : (s.setX i v).tim = s.tim := rfl
@[simp] theorem State.setX_odr (s : State) (i : RegIx) (v : Word) : (s.setX i v).odr = s.odr := rfl
@[simp] theorem State.setX_uart (s : State) (i : RegIx) (v : Word) : (s.setX i v).uart = s.uart := rfl
@[simp] theorem State.setX_turns (s : State) (i : RegIx) (v : Word) : (s.setX i v).turns = s.turns := rfl
@[simp] theorem State.setX_choices (s : State) (i : RegIx) (v : Word) : (s.setX i v).choices = s.choices := rfl
@[simp] theorem State.setX_draws (s : State) (i : RegIx) (v : Word) : (s.setX i v).draws = s.draws := rfl

@[simp] theorem State.advance_cfg (s : State) : s.advance.cfg = s.cfg := rfl
@[simp] theorem State.advance_prog (s : State) : s.advance.prog = s.prog := rfl
@[simp] theorem State.advance_pc (s : State) : s.advance.pc = s.pc + 1 := rfl
@[simp] theorem State.advance_x (s : State) : s.advance.x = s.x := rfl
@[simp] theorem State.advance_status (s : State) : s.advance.status = s.status := rfl
@[simp] theorem State.advance_desc (s : State) : s.advance.desc = s.desc := rfl
@[simp] theorem State.advance_lb (s : State) : s.advance.lb = s.lb := rfl
@[simp] theorem State.advance_reports (s : State) : s.advance.reports = s.reports := rfl
@[simp] theorem State.advance_tst (s : State) : s.advance.tst = s.tst := rfl
@[simp] theorem State.advance_cont (s : State) : s.advance.cont = .none := rfl
@[simp] theorem State.advance_trace (s : State) : s.advance.trace = s.trace := rfl
@[simp] theorem State.advance_fault (s : State) : s.advance.fault = s.fault := rfl
@[simp] theorem State.advance_tim (s : State) : s.advance.tim = s.tim := rfl
@[simp] theorem State.advance_odr (s : State) : s.advance.odr = s.odr := rfl
@[simp] theorem State.advance_uart (s : State) : s.advance.uart = s.uart := rfl
@[simp] theorem State.advance_turns (s : State) : s.advance.turns = s.turns := rfl
@[simp] theorem State.advance_choices (s : State) : s.advance.choices = s.choices := rfl
@[simp] theorem State.advance_draws (s : State) : s.advance.draws = s.draws := rfl

@[simp] theorem State.complete_cfg (s : State) (o : Result) : (s.complete o).cfg = s.cfg := rfl
@[simp] theorem State.complete_prog (s : State) (o : Result) : (s.complete o).prog = s.prog := rfl
@[simp] theorem State.complete_pc (s : State) (o : Result) : (s.complete o).pc = s.pc + 1 := rfl
@[simp] theorem State.complete_x (s : State) (o : Result) : (s.complete o).x = s.x := rfl
@[simp] theorem State.complete_status (s : State) (o : Result) : (s.complete o).status = statusWord o := rfl
@[simp] theorem State.complete_desc (s : State) (o : Result) : (s.complete o).desc = s.desc := rfl
@[simp] theorem State.complete_lb (s : State) (o : Result) : (s.complete o).lb = s.lb := rfl
@[simp] theorem State.complete_reports (s : State) (o : Result) : (s.complete o).reports = s.reports := rfl
@[simp] theorem State.complete_tst (s : State) (o : Result) : (s.complete o).tst = s.tst := rfl
@[simp] theorem State.complete_cont (s : State) (o : Result) : (s.complete o).cont = .none := rfl
@[simp] theorem State.complete_trace (s : State) (o : Result) : (s.complete o).trace = s.trace := rfl
@[simp] theorem State.complete_fault (s : State) (o : Result) : (s.complete o).fault = s.fault := rfl
@[simp] theorem State.complete_tim (s : State) (o : Result) : (s.complete o).tim = s.tim := rfl
@[simp] theorem State.complete_odr (s : State) (o : Result) : (s.complete o).odr = s.odr := rfl
@[simp] theorem State.complete_uart (s : State) (o : Result) : (s.complete o).uart = s.uart := rfl
@[simp] theorem State.complete_turns (s : State) (o : Result) : (s.complete o).turns = s.turns := rfl
@[simp] theorem State.complete_choices (s : State) (o : Result) : (s.complete o).choices = s.choices := rfl
@[simp] theorem State.complete_draws (s : State) (o : Result) : (s.complete o).draws = s.draws := rfl

@[simp] theorem State.report_cfg (s : State) (c : Cause) : (s.report c).cfg = s.cfg := rfl
@[simp] theorem State.report_prog (s : State) (c : Cause) : (s.report c).prog = s.prog := rfl
@[simp] theorem State.report_pc (s : State) (c : Cause) : (s.report c).pc = s.pc + 1 := rfl
@[simp] theorem State.report_x (s : State) (c : Cause) : (s.report c).x = s.x := rfl
@[simp] theorem State.report_status (s : State) (c : Cause) : (s.report c).status = statusWord (.invalidField c) := rfl
@[simp] theorem State.report_desc (s : State) (c : Cause) : (s.report c).desc = s.desc := rfl
@[simp] theorem State.report_lb (s : State) (c : Cause) : (s.report c).lb = s.lb := rfl
@[simp] theorem State.report_reports (s : State) (c : Cause) : (s.report c).reports = s.reports := rfl
@[simp] theorem State.report_tst (s : State) (c : Cause) : (s.report c).tst = s.tst := rfl
@[simp] theorem State.report_cont (s : State) (c : Cause) : (s.report c).cont = .none := rfl
@[simp] theorem State.report_trace (s : State) (c : Cause) : (s.report c).trace = s.trace := rfl
@[simp] theorem State.report_fault (s : State) (c : Cause) : (s.report c).fault = s.fault := rfl
@[simp] theorem State.report_tim (s : State) (c : Cause) : (s.report c).tim = s.tim := rfl
@[simp] theorem State.report_odr (s : State) (c : Cause) : (s.report c).odr = s.odr := rfl
@[simp] theorem State.report_uart (s : State) (c : Cause) : (s.report c).uart = s.uart := rfl
@[simp] theorem State.report_turns (s : State) (c : Cause) : (s.report c).turns = s.turns := rfl
@[simp] theorem State.report_choices (s : State) (c : Cause) : (s.report c).choices = s.choices := rfl
@[simp] theorem State.report_draws (s : State) (c : Cause) : (s.report c).draws = s.draws := rfl

@[simp] theorem State.drawn_cfg (s : State) : s.drawn.cfg = s.cfg := rfl
@[simp] theorem State.drawn_prog (s : State) : s.drawn.prog = s.prog := rfl
@[simp] theorem State.drawn_pc (s : State) : s.drawn.pc = s.pc := rfl
@[simp] theorem State.drawn_x (s : State) : s.drawn.x = s.x := rfl
@[simp] theorem State.drawn_status (s : State) : s.drawn.status = s.status := rfl
@[simp] theorem State.drawn_desc (s : State) : s.drawn.desc = s.desc := rfl
@[simp] theorem State.drawn_lb (s : State) : s.drawn.lb = s.lb := rfl
@[simp] theorem State.drawn_reports (s : State) : s.drawn.reports = s.reports := rfl
@[simp] theorem State.drawn_tst (s : State) : s.drawn.tst = s.tst := rfl
@[simp] theorem State.drawn_cont (s : State) : s.drawn.cont = s.cont := rfl
@[simp] theorem State.drawn_trace (s : State) : s.drawn.trace = s.trace := rfl
@[simp] theorem State.drawn_fault (s : State) : s.drawn.fault = s.fault := rfl
@[simp] theorem State.drawn_tim (s : State) : s.drawn.tim = s.tim := rfl
@[simp] theorem State.drawn_odr (s : State) : s.drawn.odr = s.odr := rfl
@[simp] theorem State.drawn_uart (s : State) : s.drawn.uart = s.uart := rfl
@[simp] theorem State.drawn_turns (s : State) : s.drawn.turns = s.turns := rfl
@[simp] theorem State.drawn_choices (s : State) : s.drawn.choices = s.choices := rfl
@[simp] theorem State.drawn_draws (s : State) : s.drawn.draws = s.draws + 1 := rfl

@[simp] theorem State.log_cfg (s : State) (e : BusEvent) : (s.log e).cfg = s.cfg := rfl
@[simp] theorem State.log_prog (s : State) (e : BusEvent) : (s.log e).prog = s.prog := rfl
@[simp] theorem State.log_pc (s : State) (e : BusEvent) : (s.log e).pc = s.pc := rfl
@[simp] theorem State.log_x (s : State) (e : BusEvent) : (s.log e).x = s.x := rfl
@[simp] theorem State.log_status (s : State) (e : BusEvent) : (s.log e).status = s.status := rfl
@[simp] theorem State.log_desc (s : State) (e : BusEvent) : (s.log e).desc = s.desc := rfl
@[simp] theorem State.log_lb (s : State) (e : BusEvent) : (s.log e).lb = s.lb := rfl
@[simp] theorem State.log_reports (s : State) (e : BusEvent) : (s.log e).reports = s.reports := rfl
@[simp] theorem State.log_tst (s : State) (e : BusEvent) : (s.log e).tst = s.tst := rfl
@[simp] theorem State.log_cont (s : State) (e : BusEvent) : (s.log e).cont = s.cont := rfl
@[simp] theorem State.log_trace (s : State) (e : BusEvent) : (s.log e).trace = s.trace ++ [e] := rfl
@[simp] theorem State.log_fault (s : State) (e : BusEvent) : (s.log e).fault = s.fault := rfl
@[simp] theorem State.log_tim (s : State) (e : BusEvent) : (s.log e).tim = s.tim := rfl
@[simp] theorem State.log_odr (s : State) (e : BusEvent) : (s.log e).odr = s.odr := rfl
@[simp] theorem State.log_uart (s : State) (e : BusEvent) : (s.log e).uart = s.uart := rfl
@[simp] theorem State.log_turns (s : State) (e : BusEvent) : (s.log e).turns = s.turns := rfl
@[simp] theorem State.log_choices (s : State) (e : BusEvent) : (s.log e).choices = s.choices := rfl
@[simp] theorem State.log_draws (s : State) (e : BusEvent) : (s.log e).draws = s.draws := rfl

@[simp] theorem takeTurn_cfg (s : State) : (takeTurn s).cfg = s.cfg := rfl
@[simp] theorem takeTurn_prog (s : State) : (takeTurn s).prog = s.prog := rfl
@[simp] theorem takeTurn_pc (s : State) : (takeTurn s).pc = s.pc := rfl
@[simp] theorem takeTurn_x (s : State) : (takeTurn s).x = s.x := rfl
@[simp] theorem takeTurn_status (s : State) : (takeTurn s).status = s.status := rfl
@[simp] theorem takeTurn_desc (s : State) : (takeTurn s).desc = s.desc := rfl
@[simp] theorem takeTurn_lb (s : State) : (takeTurn s).lb = s.lb := rfl
@[simp] theorem takeTurn_reports (s : State) : (takeTurn s).reports = s.reports := rfl
@[simp] theorem takeTurn_tst (s : State) : (takeTurn s).tst = s.tst := rfl
@[simp] theorem takeTurn_cont (s : State) : (takeTurn s).cont = s.cont := rfl
@[simp] theorem takeTurn_trace (s : State) : (takeTurn s).trace = s.trace := rfl
@[simp] theorem takeTurn_fault (s : State) : (takeTurn s).fault = s.fault := rfl
@[simp] theorem takeTurn_tim (s : State) : (takeTurn s).tim = s.tim := rfl
@[simp] theorem takeTurn_odr (s : State) : (takeTurn s).odr = s.odr := rfl
@[simp] theorem takeTurn_uart (s : State) : (takeTurn s).uart = s.uart := rfl
@[simp] theorem takeTurn_turns (s : State) : (takeTurn s).turns = s.turns.tail := rfl
@[simp] theorem takeTurn_choices (s : State) : (takeTurn s).choices = s.choices + 1 := rfl
@[simp] theorem takeTurn_draws (s : State) : (takeTurn s).draws = s.draws := rfl

end Sys2Proof.Machine
end

