-- ==== Sys2Proof/Laws/Table.lean ====
section
/-! SUPPORT. The register table: an accepted table sends a transaction at a declared register's own address and width to
that register (10_state.md R43, 20_memory.md R88). -/

namespace Sys2Proof.Machine

open Sys2Proof.Config

theorem pairwise_mem {α : Type} (p : α → α → Bool) :
    ∀ {l : List α}, pairwise p l = true → ∀ {a b : α}, a ∈ l → b ∈ l → a ≠ b → p a b = true ∨ p b a = true
  | [], _, _, _, ha, _, _ => by cases ha
  | c :: l, h, a, b, ha, hb, hne => by
    simp only [pairwise, Bool.and_eq_true, List.all_eq_true] at h
    rcases List.mem_cons.1 ha with rfl | ha'
    · rcases List.mem_cons.1 hb with rfl | hb'
      · exact absurd rfl hne
      · exact .inl (h.1 b hb')
    · rcases List.mem_cons.1 hb with rfl | hb'
      · exact .inr (h.1 a ha')
      · exact pairwise_mem p h.2 ha' hb' hne

theorem resolve_mem {t : RegTab} {sel : Byte} {r : Reg} (h : resolve t sel = some r) : r ∈ regsOf t := by
  obtain ⟨b, hb, h⟩ := List.exists_of_findSome?_eq_some h
  unfold resolveIn at h
  split at h
  · obtain ⟨d, hd, rfl⟩ := Option.map_eq_some_iff.1 h
    exact List.mem_flatMap.2 ⟨b, hb, List.mem_map.2 ⟨d, List.mem_of_find?_eq_some hd, rfl⟩⟩
  · cases h

/-- A selector names no register only where no block has one of that id and index (R201). -/
theorem resolve_none {t : RegTab} {sel : Byte} :
    resolve t sel = none ↔ ∀ b ∈ t, b.id = sel.extractLsb' 4 4 → ∀ d ∈ b.regs, d.idx ≠ sel.extractLsb' 0 4 := by
  simp only [resolve, resolveIn, List.findSome?_eq_none_iff, ite_eq_right_iff, Option.map_eq_none_iff,
    List.find?_eq_none, decide_eq_true_eq]

theorem regNamed_mem {t : RegTab} {n : RegName} {r : Reg} (h : regNamed t n = some r) : r ∈ regsOf t :=
  List.mem_of_find?_eq_some h

theorem fieldNamed_mem {r : Reg} {n : FieldName} {f : Field} (h : fieldNamed r n = some f) : f ∈ r.decl.fields :=
  List.mem_of_find?_eq_some h

theorem fieldAt_mem {r : Reg} {i : Byte} {f : Field} (h : fieldAt r i = some f) : f ∈ r.decl.fields :=
  List.mem_of_getElem? h

theorem overlapped_mem {t : RegTab} {addr : Word} {n : Width} {r : Reg} (h : overlapped t addr n = some r) :
    r ∈ regsOf t :=
  List.mem_of_find?_eq_some h

theorem Width.bytes_pos (n : Width) : 0 < n.bytes := by cases n <;> decide

/-- The parts of `accepted` (R43). -/
theorem accepted_parts {c : Params} (h : accepted c = true) :
    (∀ r ∈ regsOf c.regtab, regLegal r = true) ∧ pairwise regsDisjoint (regsOf c.regtab) = true ∧
    (∀ r ∈ regsOf c.regtab, backedAt c (addrOf r) = true) ∧ 1 ≤ c.capacity ∧ c.capacity ≤ 65535 := by
  simp only [accepted, Bool.and_eq_true, List.all_eq_true, decide_eq_true_eq] at h
  exact ⟨h.1.1.1.2, h.1.1.2, h.1.2, h.2.1, h.2.2⟩

/-- In an accepted table no address wraps (log entry 10). -/
theorem addrOf_exact {c : Params} (h : accepted c = true) {r : Reg} (hr : r ∈ regsOf c.regtab) :
    (addrOf r).toNat = r.base.toNat + r.decl.offset.toNat := by
  simp only [accepted, tableShapeLegal, Bool.and_eq_true, List.all_eq_true] at h
  have hf := h.1.1.1.1.2 r hr
  simp only [addressFits, decide_eq_true_eq] at hf
  rw [addrOf, BitVec.toNat_add, Nat.mod_eq_of_lt hf]

/-- The parts of `regLegal` (R43). -/
theorem regLegal_parts {r : Reg} (h : regLegal r = true) :
    alignedReg r = true ∧ fieldsInRange r = true ∧ fieldsApart r = true ∧ fieldPermsContained r = true ∧
    wdefLegal r = true := by
  simp only [regLegal, Bool.and_eq_true] at h
  exact ⟨h.1.1.1.1, h.1.1.1.2, h.1.1.2, h.1.2, h.2⟩

/-- A declared register is the one overlapped at its own address and width. -/
theorem overlapped_declared {c : Params} (h : accepted c = true) {r : Reg} (hr : r ∈ regsOf c.regtab) :
    overlapped c.regtab (addrOf r) r.decl.width = some r := by
  obtain ⟨-, hdis, -⟩ := accepted_parts h
  have self : rangesMeet (addrOf r).toNat r.decl.width.bytes (addrOf r).toNat r.decl.width.bytes = true := by
    have := Width.bytes_pos r.decl.width
    simp [rangesMeet]; omega
  cases hf : overlapped c.regtab (addrOf r) r.decl.width with
  | none =>
    have := List.find?_eq_none.1 hf r hr
    exact absurd self (by simpa using this)
  | some q =>
    by_cases hq : q = r
    · rw [hq]
    · have hm := overlapped_mem hf
      have hp := List.find?_some hf
      rcases pairwise_mem regsDisjoint hdis hm hr hq with h1 | h1 <;>
        simp only [regsDisjoint, rangesMeet, Bool.not_eq_true', Bool.and_eq_false_iff, decide_eq_false_iff_not,
          Bool.and_eq_true, decide_eq_true_eq] at h1 hp <;> omega

/-- A transaction at a declared register's own address and width goes to that register (R88). -/
theorem classify_declared {c : Params} (h : accepted c = true) {r : Reg} (hr : r ∈ regsOf c.regtab) (dir : Dir) :
    classify c (addrOf r) r.decl.width dir = .ok (some r) := by
  obtain ⟨hl, -, hb, -⟩ := accepted_parts h
  have ha := (regLegal_parts (hl r hr)).1
  simp only [alignedReg, decide_eq_true_eq] at ha
  simp [classify, hb r hr, ha, overlapped_declared h hr]

/-- Where a transaction goes, if it does not fault (R88). -/
theorem classify_some {c : Params} {addr : Word} {n : Width} {dir : Dir} {r : Reg}
    (h : classify c addr n dir = .ok (some r)) :
    overlapped c.regtab addr n = some r ∧ addrOf r = addr ∧ r.decl.width = n := by
  unfold classify at h
  split at h
  · cases h
  · split at h
    · cases h
    · split at h
      · rename_i q hq
        split at h
        · rename_i hc
          cases h
          exact ⟨hq, hc⟩
        · cases h
      · cases h

end Sys2Proof.Machine
end

