-- ==== Sys2Proof/Laws/Ops.lean ====
section
/-! SUPPORT. The shared operations: what each can do, said once. -/

namespace Sys2Proof.Machine

open Sys2Proof.Config

@[simp] theorem commit_ok (s t : State) : commit s (.ok t) = .next t := rfl
@[simp] theorem commit_raise (s : State) (k : FaultKind) : commit s (.error (.raise k)) = .next (s.raise k) := rfl
@[simp] theorem commit_refuse (s : State) (r : Refusal) : commit s (.error (.refuse r)) = .refused r := rfl

/-- A sequenced computation succeeds when both parts do. -/
theorem bind_ok {α β : Type} {x : Except Stop α} {f : α → Except Stop β} {b : β} :
    (x >>= f) = .ok b ↔ ∃ a, x = .ok a ∧ f a = .ok b := by
  cases x <;> simp [bind, Except.bind]

/-- A sequenced computation stops in one of its parts. -/
theorem bind_error {α β : Type} {x : Except Stop α} {f : α → Except Stop β} {e : Stop} :
    (x >>= f) = .error e ↔ x = .error e ∨ ∃ a, x = .ok a ∧ f a = .error e := by
  cases x <;> simp [bind, Except.bind]

theorem needReg_ok {s : State} {n : RegName} {r : Reg} : needReg s n = .ok r ↔ regNamed s.cfg.regtab n = some r := by
  unfold needReg
  cases regNamed s.cfg.regtab n <;> simp

theorem needField_ok {r : Reg} {n : FieldName} {f : Field} : needField r n = .ok f ↔ fieldNamed r n = some f := by
  unfold needField
  cases fieldNamed r n <;> simp

/-- A step's next state is its result, or the state it began in with FAULT set (R356). -/
theorem commit_next {s t : State} {e : Except Stop State} (h : commit s e = .next t) :
    e = .ok t ∨ ∃ k, e = .error (.raise k) ∧ t = s.raise k := by
  match e, h with
  | .ok u, h => exact .inl (by cases h; rfl)
  | .error (.raise k), h => exact .inr ⟨k, rfl, by cases h; rfl⟩
  | .error (.refuse r), h => cases h

theorem outsideGroup_none {s : State} (h : s.desc = .none) (i : Instr) (b : Except Stop State) :
    outsideGroup s i b = commit s b := by
  simp [outsideGroup, h]

theorem insideGroup_opened {s : State} {r : Option Reg} {ops : List StagedOp} {p : Option Cause}
    (h : s.desc = .opened r ops p) (i : Instr)
    (b : Option Reg → List StagedOp → Option Cause → Except Stop State) :
    insideGroup s i b = commit s (b r ops p) := by
  simp [insideGroup, h]

/-- A command outside a group: its own result, or a fault that changes nothing else. -/
theorem outsideGroup_next {s t : State} {i : Instr} {b : Except Stop State} (h : outsideGroup s i b = .next t) :
    (s.desc = .none ∧ b = .ok t) ∨ ∃ k, t = s.raise k := by
  unfold outsideGroup at h
  split at h
  · rename_i hd
    rcases commit_next h with h | ⟨k, -, h⟩
    · exact .inl ⟨hd, h⟩
    · exact .inr ⟨k, h⟩
  · cases h
    exact .inr ⟨_, rfl⟩

/-- A command of a group: its own result, or a fault that changes nothing else. -/
theorem insideGroup_next {s t : State} {i : Instr}
    {b : Option Reg → List StagedOp → Option Cause → Except Stop State} (h : insideGroup s i b = .next t) :
    (∃ r ops p, s.desc = .opened r ops p ∧ b r ops p = .ok t) ∨ ∃ k, t = s.raise k := by
  unfold insideGroup at h
  split at h
  · cases h
    exact .inr ⟨_, rfl⟩
  · rename_i r ops p hd
    rcases commit_next h with h | ⟨k, -, h⟩
    · exact .inl ⟨r, ops, p, hd, h⟩
    · exact .inr ⟨k, h⟩

theorem getX_some {s : State} {i : RegIx} {v : Word} (h : s.x[i.toNat]'i.isLt = some v) : getX s i = .ok v := by
  unfold getX
  simp only [h]

theorem getX_none {s : State} {i : RegIx} (h : s.x[i.toNat]'i.isLt = none) :
    getX s i = .error (.raise (.unwrittenRegister i)) := by
  unfold getX
  simp only [h]

theorem getX_ok {s : State} {i : RegIx} {v : Word} (h : getX s i = .ok v) : s.x[i.toNat]'i.isLt = some v := by
  unfold getX at h
  split at h
  · rename_i w hw
    cases h
    exact hw
  · cases h

/-- A shown value makes at most a draw (R92). -/
theorem shown_next {s t : State} {r : Reg} {v w : Word} (h : shown s r v = (w, t)) : t = s ∨ t = s.drawn := by
  unfold shown at h
  split at h <;> cases h <;> simp

/-- A value that W bits hold is shown as it is (R92). -/
theorem shown_fits {s : State} {r : Reg} {v : Word} (h : v &&& ~~~widthMask r = 0#32) : shown s r v = (v, s) := by
  simp [shown, h]

/-- A device load changes at most `draws` and, at RDR alone, RXNE (R92). -/
theorem deviceLoad_next {s t : State} {r : Reg} {v : Word} (h : deviceLoad s r = .ok (v, t)) :
    t = s ∨ t = s.drawn ∨
    (r.decl.name = .uartRdr ∧
      (t = { s with uart := { s.uart with rxne := false } } ∨
        t = { s.drawn with uart := { s.uart with rxne := false } })) := by
  unfold deviceLoad at h
  split at h
  case h_8 hn => exact .inr (.inr ⟨hn, shown_next (Except.ok.inj h)⟩)
  all_goals first
    | (cases h; done)
    | (cases h; exact .inr (.inl rfl))
    | exact (shown_next (Except.ok.inj h)).imp_right .inl

/-- A device store changes at most the timer, the pins and the transmitter (R93 to R98). -/
theorem deviceStore_next {s t : State} {r : Reg} {v : Word} (h : deviceStore s r v = .ok t) :
    (∃ tm, t = { s with tim := tm } ∧ (ModesClear s.tim → ModesClear tm) ∧ tm.cnt = s.tim.cnt) ∨
    (∃ o, t = { s with odr := o } ∧ (r.decl.name = .gpioOdr ∨ r.decl.name = .gpioBsrr)) ∨
    (∃ b, t = { s with uart := { s.uart with tdr := b, txe := false } } ∧ r.decl.name = .uartTdr ∧
      s.uart.txe = true) := by
  unfold deviceStore at h
  split at h
  · split at h <;> cases h
    exact .inl ⟨_, rfl, id, rfl⟩
  · cases h
    exact .inl ⟨_, rfl, id, rfl⟩
  · cases h
    exact .inl ⟨_, rfl, id, rfl⟩
  · cases h
    exact .inl ⟨_, rfl, id, rfl⟩
  · rename_i hn
    cases h
    exact .inr (.inl ⟨_, rfl, .inl hn⟩)
  · rename_i hn
    cases h
    exact .inr (.inl ⟨_, rfl, .inr hn⟩)
  · rename_i hn
    split at h
    · cases h
    · rename_i hx
      split at h
      · cases h
      · cases h
        exact .inr (.inr ⟨_, rfl, hn, by simpa using hx⟩)
  · cases h
  · cases h
  · cases h

/-- A completed load: an undeclared backed address gives a draw, a declared register its device load (R90). -/
theorem memRead_next {s t : State} {addr : Word} {n : Width} {v : Word} (h : memRead s addr n = .ok (v, t)) :
    (classify s.cfg addr n .load = .ok none ∧ v = s.nextDraw &&& ones n.bits ∧ t = s.drawn.log (.load addr n v)) ∨
    (∃ r u, classify s.cfg addr n .load = .ok (some r) ∧ deviceLoad s r = .ok (v, u) ∧ t = u.log (.load addr n v)) := by
  unfold memRead at h
  split at h
  · cases h
  · rename_i hc
    cases h
    exact .inl ⟨hc, rfl, rfl⟩
  · rename_i r hc
    split at h
    · cases h
    · rename_i w u hd
      cases h
      exact .inr ⟨r, u, hc, hd, rfl⟩

/-- A completed store: the declared register is writable, no reserved bit is set, and the device takes it (R91). -/
theorem memWrite_next {s t : State} {addr : Word} {n : Width} {v : Word} (h : memWrite s addr n v = .ok t) :
    ∃ r u, classify s.cfg addr n .store = .ok (some r) ∧ r.decl.perm ≠ .ro ∧ v &&& reservedMask r = 0#32 ∧
      deviceStore s r v = .ok u ∧ t = u.log (.store addr n v) := by
  unfold memWrite at h
  split at h
  · cases h
  · cases h
  · rename_i r hc
    split at h
    · cases h
    · rename_i hp
      split at h
      · cases h
      · rename_i hz
        split at h
        · cases h
        · rename_i u hd
          cases h
          exact ⟨r, u, hc, hp, by simpa using hz, hd, rfl⟩

/-- What a completed load changes: a draw, at RDR alone RXNE, and one Load event (R90, R92). -/
theorem memRead_frame {s t : State} {a : Word} {n : Width} {v : Word} (h : memRead s a n = .ok (v, t)) :
    ∃ k rx, (rx = s.uart.rxne ∨ rx = false ∧
        ∃ r, overlapped s.cfg.regtab a n = some r ∧ addrOf r = a ∧ r.decl.width = n ∧ r.decl.name = .uartRdr) ∧
      t = { s with draws := k, uart := { s.uart with rxne := rx }, trace := s.trace ++ [.load a n v] } := by
  rcases memRead_next h with ⟨-, -, rfl⟩ | ⟨r, u, hc, hd, rfl⟩
  · exact ⟨_, s.uart.rxne, .inl rfl, rfl⟩
  · obtain ⟨ho, ha, hw⟩ := classify_some hc
    rcases deviceLoad_next hd with rfl | rfl | ⟨hn, rfl | rfl⟩
    · exact ⟨_, _, .inl rfl, rfl⟩
    · exact ⟨_, s.uart.rxne, .inl rfl, rfl⟩
    · exact ⟨_, _, .inr ⟨rfl, r, ho, ha, hw, hn⟩, rfl⟩
    · exact ⟨_, _, .inr ⟨rfl, r, ho, ha, hw, hn⟩, rfl⟩

/-- What a completed store changes: the timer, the pins, the UART as its device store does, and one Store event (R91). -/
theorem memWrite_frame {s t : State} {a : Word} {n : Width} {v : Word} (h : memWrite s a n v = .ok t) :
    ∃ r u, overlapped s.cfg.regtab a n = some r ∧ addrOf r = a ∧ r.decl.width = n ∧ v &&& reservedMask r = 0#32 ∧
      deviceStore s r v = .ok u ∧
      t = { s with tim := u.tim, odr := u.odr, uart := u.uart, trace := s.trace ++ [.store a n v] } := by
  obtain ⟨r, u, hc, -, hz, hd, rfl⟩ := memWrite_next h
  obtain ⟨h1, h2, h3⟩ := classify_some hc
  refine ⟨r, u, h1, h2, h3, hz, hd, ?_⟩
  rcases deviceStore_next hd with ⟨_, rfl, -, -⟩ | ⟨_, rfl, -⟩ | ⟨_, rfl, -, -⟩ <;> rfl

/-- The first step of a modify: one load, then the store is next (R207). -/
theorem modifyLoad_next {s t : State} {r : Reg} {ops : List StagedOp} {next : AfterModify}
    (h : modifyLoad s r ops next = .ok t) :
    ∃ v u, memRead s (addrOf r) r.decl.width = .ok (v, u) ∧ t = { u with cont := .modifyStore r ops v next } := by
  simp only [modifyLoad, bind_ok] at h
  obtain ⟨⟨v, u⟩, hm, h⟩ := h
  cases h
  exact ⟨v, u, hm, rfl⟩

/-- The second step of a modify: one store, then what follows it (R207). -/
theorem modifyStore_next {s t : State} {r : Reg} {ops : List StagedOp} {v : Word} {next : AfterModify}
    (h : modifyStore s r ops v next = .ok t) :
    ∃ u, memWrite s (addrOf r) r.decl.width (applyOps r ops (modifyBase r v)) = .ok u ∧ t = afterModify u next := by
  simp only [modifyStore, bind_ok] at h
  obtain ⟨u, hm, h⟩ := h
  cases h
  exact ⟨u, hm, rfl⟩

/-- A load at a declared register of an accepted table (R90, R92). -/
theorem memRead_declared {s : State} (ha : accepted s.cfg = true) {r : Reg} (hr : r ∈ regsOf s.cfg.regtab)
    {v : Word} {u : State} (hd : deviceLoad s r = .ok (v, u)) :
    memRead s (addrOf r) r.decl.width = .ok (v, u.log (.load (addrOf r) r.decl.width v)) := by
  simp [memRead, classify_declared ha hr, hd]

/-- A store at a declared register of an accepted table (R91). -/
theorem memWrite_declared {s : State} (ha : accepted s.cfg = true) {r : Reg} (hr : r ∈ regsOf s.cfg.regtab)
    (hp : r.decl.perm ≠ .ro) {v : Word} (hz : v &&& reservedMask r = 0#32) {u : State}
    (hd : deviceStore s r v = .ok u) :
    memWrite s (addrOf r) r.decl.width v = .ok (u.log (.store (addrOf r) r.decl.width v)) := by
  simp [memWrite, classify_declared ha hr, hp, hz, hd]

end Sys2Proof.Machine
end

