-- ==== Sys2Proof/Laws/Driver.lean ====
section
/-! SUPPORT. The drivers' steps: what each can do, said once (43_timer.md R260, 44_gpio.md R290, 45_uart.md R310, R311). -/

namespace Sys2Proof.Machine

open Sys2Proof.Config

theorem sendPoll_next {s t : State} {b : Byte} {rest : List Byte} (h : sendPoll s b rest = .ok t) :
    ∃ r f v u, regNamed s.cfg.regtab .uartIsr = some r ∧ fieldNamed r .txe = some f ∧
      memRead s (addrOf r) r.decl.width = .ok (v, u) ∧
      t = { u with cont := if extract v f = 1#32 then .sendStore b rest else .sendPoll b rest } := by
  simp only [sendPoll, bind_ok, needReg_ok, needField_ok] at h
  obtain ⟨r, hr, f, hf, ⟨v, u⟩, hm, h⟩ := h
  cases h
  exact ⟨r, f, v, u, hr, hf, hm, rfl⟩

theorem recvPoll_next {s t : State} {k : Receive} {kept : Option Byte} (h : recvPoll s k kept = .ok t) :
    ∃ r f v u, regNamed s.cfg.regtab .uartIsr = some r ∧ fieldNamed r .rxne = some f ∧
      memRead (keepByte s kept) (addrOf r) r.decl.width = .ok (v, u) ∧
      t = { u with cont := if extract v f = 1#32 then .recvLoad k else .recvPoll k none } := by
  simp only [recvPoll, bind_ok, needReg_ok, needField_ok] at h
  obtain ⟨r, hr, f, hf, ⟨v, u⟩, hm, h⟩ := h
  cases h
  exact ⟨r, f, v, u, hr, hf, hm, rfl⟩

theorem sendStore_next {s t : State} {b : Byte} {rest : List Byte} (h : sendStore s b rest = .ok t) :
    ∃ r f u, regNamed s.cfg.regtab .uartTdr = some r ∧ fieldNamed r .tdr = some f ∧
      writeReg s r [.set f (b.setWidth 32)] = .ok u ∧
      (rest = [] ∧ t = u.complete .ok ∨ ∃ c cs, rest = c :: cs ∧ t = { u with cont := .sendPoll c cs }) := by
  simp only [sendStore, bind_ok, needReg_ok, needField_ok] at h
  obtain ⟨r, hr, f, hf, u, hm, h⟩ := h
  cases h
  refine ⟨r, f, u, hr, hf, hm, ?_⟩
  cases rest with
  | nil => exact .inl ⟨rfl, rfl⟩
  | cons c cs => exact .inr ⟨c, cs, rfl, rfl⟩

theorem recvLoad_next {s t : State} {k : Receive} (h : recvLoad s k = .ok t) :
    ∃ r f v u, regNamed s.cfg.regtab .uartRdr = some r ∧ fieldNamed r .rdr = some f ∧
      memRead s (addrOf r) r.decl.width = .ok (v, u) ∧ t = received u ((extract v f).extractLsb' 0 8) k := by
  simp only [recvLoad, bind_ok, needReg_ok, needField_ok] at h
  obtain ⟨r, hr, f, hf, ⟨v, u⟩, hm, h⟩ := h
  cases h
  exact ⟨r, f, v, u, hr, hf, hm, rfl⟩

theorem periodFor_of_fits {s : State} {f : Field} {n : Word} (h : fits n f = true) : periodFor s f n = n := by
  simp [periodFor, h]

/-- The period a start stores fits its field, whatever was asked for. -/
theorem periodFor_fits (s : State) {f : Field} (h : fieldLen f ≤ 32) (n : Word) : fits (periodFor s f n) f = true := by
  unfold periodFor
  split
  · assumption
  · have hp : 2 ^ fieldLen f ≤ 2 ^ 32 := Nat.pow_le_pow_right (by decide) h
    have h1 : 0 < 2 ^ fieldLen f := Nat.two_pow_pos _
    simp only [fits, ones, BitVec.toNat_and, BitVec.toNat_ofNat, decide_eq_true_eq]
    exact Nat.and_lt_two_pow _ (by rw [Nat.mod_eq_of_lt (by omega)]; omega)

theorem startTimer_next {s t : State} {n : Word} {delay : Bool} (h : startTimer s n delay = .ok t) :
    ∃ r f u, regNamed s.cfg.regtab .timArr = some r ∧ fieldNamed r .arr = some f ∧
      writeReg s r [.set f (periodFor s f n)] = .ok u ∧
      t = { u with draws := if fits n f then u.draws else u.draws + 1, cont := .startModify delay } := by
  simp only [startTimer, bind_ok, needReg_ok, needField_ok] at h
  obtain ⟨r, hr, f, hf, u, hm, h⟩ := h
  cases h
  exact ⟨r, f, u, hr, hf, hm, rfl⟩

theorem startModify_next {s t : State} {delay : Bool} (h : startModify s delay = .ok t) :
    ∃ r fo fe, regNamed s.cfg.regtab .timCr1 = some r ∧ fieldNamed r .opm = some fo ∧ fieldNamed r .cen = some fe ∧
      modifyLoad s r [.set fo 1#32, .set fe 1#32] (.started delay) = .ok t := by
  simp only [startModify, bind_ok, needReg_ok, needField_ok] at h
  obtain ⟨r, hr, fo, ho, fe, he, h⟩ := h
  exact ⟨r, fo, fe, hr, ho, he, h⟩

theorem ackLoad_next {s t : State} (h : ackLoad s = .ok t) :
    ∃ r f, regNamed s.cfg.regtab .timSr = some r ∧ fieldNamed r .uif = some f ∧
      modifyLoad s r [.set f 0#32] .acknowledged = .ok t := by
  simp only [ackLoad, bind_ok, needReg_ok, needField_ok] at h
  obtain ⟨r, hr, f, hf, h⟩ := h
  exact ⟨r, f, hr, hf, h⟩

theorem checkedStart_next {s t : State} {n : Word} {delay : Bool} (h : checkedStart s n delay = .ok t) :
    t = s.report .valueTooWide ∨ t = s.complete .ok ∨ startTimer s n delay = .ok t := by
  simp only [checkedStart, bind_ok, needReg_ok, needField_ok] at h
  obtain ⟨r, -, f, -, h⟩ := h
  split at h
  · cases h
    exact .inl rfl
  · split at h
    · cases h
      exact .inr (.inl rfl)
    · exact .inr (.inr h)

theorem pinStore_next {s t : State} {p : Half} {bit : Nat} (h : pinStore s p bit = .ok t) :
    16 ≤ p.toNat ∧ t = s.report .pinOutOfRange ∨
    ∃ r u, p.toNat < 16 ∧ regNamed s.cfg.regtab .gpioBsrr = some r ∧
      memWrite s (addrOf r) r.decl.width (1#32 <<< bit) = .ok u ∧ t = completePin u := by
  unfold pinStore at h
  split at h
  · rename_i hp
    cases h
    exact .inl ⟨hp, rfl⟩
  · rename_i hp
    simp only [bind_ok, needReg_ok] at h
    obtain ⟨r, hr, u, hm, h⟩ := h
    cases h
    exact .inr ⟨r, u, by omega, hr, hm, rfl⟩

end Sys2Proof.Machine
end

