-- ==== Sys2Proof/Laws/PerInstr.lean ====
section
/-! SUPPORT. Encoding, per command: decoding the word of a well-formed command gives the command back. -/

namespace Sys2Proof.Laws

/-- The fields of a word of format RI (30_encoding.md R132). -/
theorem formatRI (op : Byte) (a : RegIx) (imm : Half) :
    opOf (op ++ a ++ 0#4 ++ imm) = op ∧
    aOf (op ++ a ++ 0#4 ++ imm) = a ∧
    immOf (op ++ a ++ 0#4 ++ imm) = imm ∧
    (op ++ a ++ 0#4 ++ imm : Word) &&& 0x000F0000#32 = 0#32 := by
  refine ⟨?_, ?_, ?_, ?_⟩ <;>
  · apply BitVec.eq_of_getLsbD_eq
    intro i hi
    simp only [opOf, aOf, immOf, BitVec.getLsbD_extractLsb', BitVec.getLsbD_and, BitVec.getLsbD_append]
    interval_cases i <;> simp

/-- The fields of a word of format R (30_encoding.md R132). -/
theorem formatR (op : Byte) (a : RegIx) :
    opOf (op ++ a ++ 0#20) = op ∧
    aOf (op ++ a ++ 0#20) = a ∧
    (op ++ a ++ 0#20 : Word) &&& 0x000FFFFF#32 = 0#32 := by
  refine ⟨?_, ?_, ?_⟩ <;>
  · apply BitVec.eq_of_getLsbD_eq
    intro i hi
    simp only [opOf, aOf, BitVec.getLsbD_extractLsb', BitVec.getLsbD_and, BitVec.getLsbD_append]
    interval_cases i <;> simp

/-- The fields of a word of format I (30_encoding.md R132). -/
theorem formatI (op : Byte) (imm : Half) :
    opOf (op ++ 0#8 ++ imm) = op ∧
    immOf (op ++ 0#8 ++ imm) = imm ∧
    (op ++ 0#8 ++ imm : Word) &&& 0x00FF0000#32 = 0#32 := by
  refine ⟨?_, ?_, ?_⟩ <;>
  · apply BitVec.eq_of_getLsbD_eq
    intro i hi
    simp only [opOf, immOf, BitVec.getLsbD_extractLsb', BitVec.getLsbD_and, BitVec.getLsbD_append]
    interval_cases i <;> simp

/-- The fields of a word of format I8 (30_encoding.md R132). -/
theorem formatI8 (op imm8 : Byte) :
    opOf (op ++ 0#16 ++ imm8) = op ∧
    imm8Of (op ++ 0#16 ++ imm8) = imm8 ∧
    (op ++ 0#16 ++ imm8 : Word) &&& 0x00FFFF00#32 = 0#32 := by
  refine ⟨?_, ?_, ?_⟩ <;>
  · apply BitVec.eq_of_getLsbD_eq
    intro i hi
    simp only [opOf, imm8Of, BitVec.getLsbD_extractLsb', BitVec.getLsbD_and, BitVec.getLsbD_append]
    interval_cases i <;> simp

/-- The fields of a word of format M (30_encoding.md R132). -/
theorem formatM (op : Byte) (a b : RegIx) (wc : BitVec 2) :
    opOf (op ++ a ++ b ++ 0#14 ++ wc) = op ∧
    aOf (op ++ a ++ b ++ 0#14 ++ wc) = a ∧
    bOf (op ++ a ++ b ++ 0#14 ++ wc) = b ∧
    wcOf (op ++ a ++ b ++ 0#14 ++ wc) = wc ∧
    (op ++ a ++ b ++ 0#14 ++ wc : Word) &&& 0x0000FFFC#32 = 0#32 := by
  refine ⟨?_, ?_, ?_, ?_, ?_⟩ <;>
  · apply BitVec.eq_of_getLsbD_eq
    intro i hi
    simp only [opOf, aOf, bOf, wcOf, BitVec.getLsbD_extractLsb', BitVec.getLsbD_and, BitVec.getLsbD_append]
    interval_cases i <;> simp

/-- The fields of a word of format S0 (30_encoding.md R132). -/
theorem formatS0 (op : Byte) (a : RegIx) (sel : Byte) :
    opOf (op ++ a ++ 0#4 ++ sel ++ 0#8) = op ∧
    aOf (op ++ a ++ 0#4 ++ sel ++ 0#8) = a ∧
    selOf (op ++ a ++ 0#4 ++ sel ++ 0#8) = sel ∧
    (op ++ a ++ 0#4 ++ sel ++ 0#8 : Word) &&& 0x000F00FF#32 = 0#32 := by
  refine ⟨?_, ?_, ?_, ?_⟩ <;>
  · apply BitVec.eq_of_getLsbD_eq
    intro i hi
    simp only [opOf, aOf, selOf, BitVec.getLsbD_extractLsb', BitVec.getLsbD_and, BitVec.getLsbD_append]
    interval_cases i <;> simp

/-- The fields of a word of format S (30_encoding.md R132). -/
theorem formatS (op : Byte) (a : RegIx) (sel fld : Byte) :
    opOf (op ++ a ++ 0#4 ++ sel ++ fld) = op ∧
    aOf (op ++ a ++ 0#4 ++ sel ++ fld) = a ∧
    selOf (op ++ a ++ 0#4 ++ sel ++ fld) = sel ∧
    fldOf (op ++ a ++ 0#4 ++ sel ++ fld) = fld ∧
    (op ++ a ++ 0#4 ++ sel ++ fld : Word) &&& 0x000F0000#32 = 0#32 := by
  refine ⟨?_, ?_, ?_, ?_, ?_⟩ <;>
  · apply BitVec.eq_of_getLsbD_eq
    intro i hi
    simp only [opOf, aOf, selOf, fldOf, BitVec.getLsbD_extractLsb', BitVec.getLsbD_and, BitVec.getLsbD_append]
    interval_cases i <;> simp

/-- The fields of a word of format S00 (30_encoding.md R132). -/
theorem formatS00 (op sel : Byte) :
    opOf (op ++ 0#8 ++ sel ++ 0#8) = op ∧
    selOf (op ++ 0#8 ++ sel ++ 0#8) = sel ∧
    (op ++ 0#8 ++ sel ++ 0#8 : Word) &&& 0x00FF00FF#32 = 0#32 := by
  refine ⟨?_, ?_, ?_⟩ <;>
  · apply BitVec.eq_of_getLsbD_eq
    intro i hi
    simp only [opOf, selOf, BitVec.getLsbD_extractLsb', BitVec.getLsbD_and, BitVec.getLsbD_append]
    interval_cases i <;> simp

/-- The fields of a word of format D (30_encoding.md R132). -/
theorem formatD (op : Byte) (a : RegIx) (fld : Byte) :
    opOf (op ++ a ++ 0#12 ++ fld) = op ∧
    aOf (op ++ a ++ 0#12 ++ fld) = a ∧
    fldOf (op ++ a ++ 0#12 ++ fld) = fld ∧
    (op ++ a ++ 0#12 ++ fld : Word) &&& 0x000FFF00#32 = 0#32 := by
  refine ⟨?_, ?_, ?_, ?_⟩ <;>
  · apply BitVec.eq_of_getLsbD_eq
    intro i hi
    simp only [opOf, aOf, fldOf, BitVec.getLsbD_extractLsb', BitVec.getLsbD_and, BitVec.getLsbD_append]
    interval_cases i <;> simp

/-- The fields of a word of format DI (30_encoding.md R132). -/
theorem formatDI (op fld : Byte) (imm : Half) :
    opOf (op ++ fld ++ imm) = op ∧
    dfldOf (op ++ fld ++ imm) = fld ∧
    immOf (op ++ fld ++ imm) = imm ∧
    (op ++ fld ++ imm : Word) &&& 0x00000000#32 = 0#32 := by
  refine ⟨?_, ?_, ?_, ?_⟩ <;>
  · apply BitVec.eq_of_getLsbD_eq
    intro i hi
    simp only [opOf, dfldOf, immOf, BitVec.getLsbD_extractLsb', BitVec.getLsbD_and, BitVec.getLsbD_append]
    interval_cases i <;> simp

namespace RoundTrip

/-- Decoding the encoding of a well-formed command gives the command (30_encoding.md R143). -/
def Statement (i : Instr) : Prop := i.wellFormed = true → decode (encode i) = .ok i

theorem li (d : RegIx) (imm : Half) : Statement (.li d imm) := by
  intro _
  obtain ⟨h0, h1, h2, h3⟩ := formatRI 0x01#8 d imm
  simp only [decode, encode, fixedBits, h0, h1, h2, h3, if_true]

theorem lih (d : RegIx) (imm : Half) : Statement (.lih d imm) := by
  intro _
  obtain ⟨h0, h1, h2, h3⟩ := formatRI 0x02#8 d imm
  simp only [decode, encode, fixedBits, h0, h1, h2, h3, if_true]

theorem gets (d : RegIx) : Statement (.gets d) := by
  intro _
  obtain ⟨h0, h1, h2⟩ := formatR 0x03#8 d
  simp only [decode, encode, fixedBits, h0, h1, h2, if_true]

theorem ldv (d : RegIx) (b : RegIx) (wc : BitVec 2) : Statement (.ldv d b wc) := by
  intro hw
  obtain ⟨h0, h1, h2, h3, h4⟩ := formatM 0x10#8 d b wc
  have hne : wc ≠ 3#2 := by simpa [Instr.wellFormed] using hw
  simp only [decode, encode, widthForm, h0, h1, h2, h3, h4, hne, if_true, if_false]

theorem stv (v : RegIx) (b : RegIx) (wc : BitVec 2) : Statement (.stv v b wc) := by
  intro hw
  obtain ⟨h0, h1, h2, h3, h4⟩ := formatM 0x11#8 v b wc
  have hne : wc ≠ 3#2 := by simpa [Instr.wellFormed] using hw
  simp only [decode, encode, widthForm, h0, h1, h2, h3, h4, hne, if_true, if_false]

theorem rread (d : RegIx) (sel : Byte) : Statement (.rread d sel) := by
  intro _
  obtain ⟨h0, h1, h2, h3⟩ := formatS0 0x20#8 d sel
  simp only [decode, encode, fixedBits, h0, h1, h2, h3, if_true]

theorem rfield (d : RegIx) (sel : Byte) (fld : Byte) : Statement (.rfield d sel fld) := by
  intro _
  obtain ⟨h0, h1, h2, h3, h4⟩ := formatS 0x21#8 d sel fld
  simp only [decode, encode, fixedBits, h0, h1, h2, h3, h4, if_true]

theorem dbegin (sel : Byte) : Statement (.dbegin sel) := by
  intro _
  obtain ⟨h0, h1, h2⟩ := formatS00 0x22#8 sel
  simp only [decode, encode, fixedBits, h0, h1, h2, if_true]

theorem dset (v : RegIx) (fld : Byte) : Statement (.dset v fld) := by
  intro _
  obtain ⟨h0, h1, h2, h3⟩ := formatD 0x23#8 v fld
  simp only [decode, encode, fixedBits, h0, h1, h2, h3, if_true]

theorem dseti (fld : Byte) (imm : Half) : Statement (.dseti fld imm) := by
  intro _
  obtain ⟨h0, h1, h2, h3⟩ := formatDI 0x24#8 fld imm
  simp only [decode, encode, fixedBits, h0, h1, h2, h3, if_true]

theorem dxor (v : RegIx) (fld : Byte) : Statement (.dxor v fld) := by
  intro _
  obtain ⟨h0, h1, h2, h3⟩ := formatD 0x25#8 v fld
  simp only [decode, encode, fixedBits, h0, h1, h2, h3, if_true]

theorem dbits (v : RegIx) : Statement (.dbits v) := by
  intro _
  obtain ⟨h0, h1, h2⟩ := formatR 0x26#8 v
  simp only [decode, encode, fixedBits, h0, h1, h2, if_true]

theorem write : Statement .write := fun _ => by decide

theorem modify : Statement .modify := fun _ => by decide

theorem tstart (v : RegIx) : Statement (.tstart v) := by
  intro _
  obtain ⟨h0, h1, h2⟩ := formatR 0x30#8 v
  simp only [decode, encode, fixedBits, h0, h1, h2, if_true]

theorem tstarti (imm : Half) : Statement (.tstarti imm) := by
  intro _
  obtain ⟨h0, h1, h2⟩ := formatI 0x31#8 imm
  simp only [decode, encode, fixedBits, h0, h1, h2, if_true]

theorem tpoll : Statement .tpoll := fun _ => by decide

theorem tack : Statement .tack := fun _ => by decide

theorem delay (v : RegIx) : Statement (.delay v) := by
  intro _
  obtain ⟨h0, h1, h2⟩ := formatR 0x34#8 v
  simp only [decode, encode, fixedBits, h0, h1, h2, if_true]

theorem delayi (imm : Half) : Statement (.delayi imm) := by
  intro _
  obtain ⟨h0, h1, h2⟩ := formatI 0x35#8 imm
  simp only [decode, encode, fixedBits, h0, h1, h2, if_true]

theorem pon (imm : Half) : Statement (.pon imm) := by
  intro _
  obtain ⟨h0, h1, h2⟩ := formatI 0x40#8 imm
  simp only [decode, encode, fixedBits, h0, h1, h2, if_true]

theorem poff (imm : Half) : Statement (.poff imm) := by
  intro _
  obtain ⟨h0, h1, h2⟩ := formatI 0x41#8 imm
  simp only [decode, encode, fixedBits, h0, h1, h2, if_true]

theorem usend (v : RegIx) : Statement (.usend v) := by
  intro _
  obtain ⟨h0, h1, h2⟩ := formatR 0x50#8 v
  simp only [decode, encode, fixedBits, h0, h1, h2, if_true]

theorem usendi (imm8 : Byte) : Statement (.usendi imm8) := by
  intro _
  obtain ⟨h0, h1, h2⟩ := formatI8 0x51#8 imm8
  simp only [decode, encode, fixedBits, h0, h1, h2, if_true]

theorem urecv (d : RegIx) : Statement (.urecv d) := by
  intro _
  obtain ⟨h0, h1, h2⟩ := formatR 0x52#8 d
  simp only [decode, encode, fixedBits, h0, h1, h2, if_true]

theorem uline (d : RegIx) : Statement (.uline d) := by
  intro _
  obtain ⟨h0, h1, h2⟩ := formatR 0x53#8 d
  simp only [decode, encode, fixedBits, h0, h1, h2, if_true]

theorem lrev : Statement .lrev := fun _ => by decide

theorem usendl : Statement .usendl := fun _ => by decide

end RoundTrip

end Sys2Proof.Laws
end

