-- ==== Sys2Proof/Laws/Profile.lean ====
section
/-! SUPPORT. The polling steps of the drivers in a table with the profile's registers (10_state.md R46, R49): what each
loads or stores, and what it does next (43_timer.md R260, 45_uart.md R310, R311, R315). -/

namespace Sys2Proof.Machine

open Sys2Proof.Config

theorem widthMask_word {r : Reg} (h : r.decl.width = .word) : widthMask r = 0xFFFFFFFF#32 := by
  rw [widthMask, h]
  decide

theorem and_widthMask_word {r : Reg} (h : r.decl.width = .word) (v : Word) : v &&& widthMask r = v := by
  rw [widthMask_word h]
  exact BitVec.and_allOnes

/-- A 32-bit register shows every value as it is. -/
theorem shown_word {r : Reg} (h : r.decl.width = .word) (s : State) (v : Word) : shown s r v = (v, s) :=
  shown_fits (by rw [widthMask_word h]; simp)

/-- The flags a load of ISR shows (R92). -/
theorem isrValue_bits (u : Uart) (d : Word) :
    (isrValue u d).getLsbD 3 = u.ore ∧ (isrValue u d).getLsbD 5 = u.rxne ∧ (isrValue u d).getLsbD 7 = u.txe := by
  refine ⟨?_, ?_, ?_⟩ <;> simp only [isrValue, BitVec.getLsbD_or, BitVec.getLsbD_and] <;>
    rw [flagAt_bit _ _ (by decide), flagAt_bit _ _ (by decide), flagAt_bit _ _ (by decide)] <;> simp

/-- A one-bit field is 1 when its bit is. -/
theorem extract_bitField (v : Word) (n : FieldName) {i : Nat} (hi : i < 32) (p : Perm) :
    extract v (bitField n i p) = 1#32 ↔ v.getLsbD i = true := by
  have hb := fun j => extract_bit v (f := bitField n i p) j (Nat.le_refl i) hi
  constructor
  · intro h
    have h0 := hb 0
    rw [h] at h0
    simpa [bitField] using h0
  · intro h
    apply BitVec.eq_of_getLsbD_eq
    intro j _
    rw [hb j]
    cases j <;> simp [bitField, h]

theorem deviceLoad_isr (s : State) (base : Word) :
    deviceLoad s ⟨base, uartIsr⟩ = .ok (isrValue s.uart s.nextDraw, s.drawn) := by
  show Except.ok (isrValue s.uart s.nextDraw &&& widthMask ⟨base, uartIsr⟩, s.drawn) = _
  rw [and_widthMask_word rfl]

/-- A poll of TXE: one load of ISR, then the store if TXE is 1 (R310). -/
theorem sendPoll_profile {s : State} (ha : accepted s.cfg = true) {base : Word} (hb : ServesUart s.cfg.regtab base)
    (b : Byte) (rest : List Byte) :
    sendPoll s b rest = .ok { s with
      draws := s.draws + 1
      cont := if s.uart.txe then .sendStore b rest else .sendPoll b rest
      trace := s.trace ++ [.load (addrOf ⟨base, uartIsr⟩) .word (isrValue s.uart s.nextDraw)] } := by
  have hm := memRead_declared ha (regNamed_mem hb.1) (deviceLoad_isr s base)
  have hf : fieldNamed ⟨base, uartIsr⟩ .txe = some (bitField .txe 7 .ro) := rfl
  have he := extract_bitField (isrValue s.uart s.nextDraw) .txe (i := 7) (by decide) .ro
  rw [(isrValue_bits s.uart s.nextDraw).2.2] at he
  simp only [sendPoll, needReg, needField, hb.1, hf, hm, he, bind, Except.bind]
  rfl

/-- A poll of RXNE: the byte kept before is appended, one load of ISR, then the load of RDR if RXNE is 1 (R311, R315). -/
theorem recvPoll_profile {s : State} (ha : accepted s.cfg = true) {base : Word} (hb : ServesUart s.cfg.regtab base)
    (k : Receive) (kept : Option Byte) :
    recvPoll s k kept = .ok { s with
      lb := s.lb ++ kept.toList
      draws := s.draws + 1
      cont := if s.uart.rxne then .recvLoad k else .recvPoll k none
      trace := s.trace ++ [.load (addrOf ⟨base, uartIsr⟩) .word (isrValue s.uart s.nextDraw)] } := by
  have hk : keepByte s kept = { s with lb := s.lb ++ kept.toList } := by cases kept <;> simp [keepByte]
  have hm := memRead_declared (s := { s with lb := s.lb ++ kept.toList }) ha (regNamed_mem hb.1) (deviceLoad_isr _ base)
  have hf : fieldNamed ⟨base, uartIsr⟩ .rxne = some (bitField .rxne 5 .ro) := rfl
  have he := extract_bitField (isrValue s.uart s.nextDraw) .rxne (i := 5) (by decide) .ro
  rw [(isrValue_bits s.uart s.nextDraw).2.1] at he
  simp only [recvPoll, needReg, needField, hb.1, hf, hk, hm, bind, Except.bind]
  simp only [State.nextDraw] at he ⊢
  simp only [he]
  rfl

/-- The store of a byte to TDR, and what follows it (R310, R317). -/
theorem sendStore_profile {s : State} (ha : accepted s.cfg = true) {base : Word} (hb : ServesUart s.cfg.regtab base)
    (ht : s.uart.txe = true) (b : Byte) (rest : List Byte) :
    sendStore s b rest = .ok (
      let t : State := { s with
        uart := { s.uart with tdr := b, txe := false }
        trace := s.trace ++ [.store (addrOf ⟨base, uartTdr⟩) .word (b.setWidth 32)] }
      match rest with
      | [] => t.complete .ok
      | c :: cs => { t with cont := .sendPoll c cs }) := by
  have hf : fieldNamed ⟨base, uartTdr⟩ .tdr = some ⟨.tdr, 0, 8, .wo⟩ := rfl
  have h8 : (b.setWidth 32 : Word).getLsbD 8 = false := by revert b; decide
  have h0 : (b.setWidth 32 : Word).extractLsb' 0 8 = b := by revert b; decide
  have hs : deviceStore s ⟨base, uartTdr⟩ (b.setWidth 32) =
      .ok { s with uart := { s.uart with tdr := b, txe := false } } := by
    simp only [deviceStore, uartTdr, ht, h8, h0]
    simp
  have hz : (b.setWidth 32 : Word) &&& reservedMask ⟨base, uartTdr⟩ = 0#32 := by
    have hr : reservedMask ⟨base, uartTdr⟩ = 0xFFFFFE00#32 := by
      show widthMask ⟨0#32, uartTdr⟩ &&& ~~~declaredMask ⟨0#32, uartTdr⟩ = _
      decide
    rw [hr]
    clear h8 h0 hs
    revert b
    decide
  have ha' : applyOps ⟨base, uartTdr⟩ [.set ⟨.tdr, 0, 8, .wo⟩ (b.setWidth 32)] uartTdr.wdef = b.setWidth 32 := by
    simp [applyOps, applyOp, insertField, uartTdr]
  have hm := memWrite_declared ha (regNamed_mem hb.2.2) (by simp [uartTdr]) hz hs
  simp only [sendStore, needReg, needField, hb.2.2, hf, writeReg, bind, Except.bind, ha', hm]
  cases rest <;> rfl

/-- The load of RDR: RXNE is cleared and the byte is what the command does with it (R311). -/
theorem recvLoad_profile {s : State} (ha : accepted s.cfg = true) {base : Word} (hb : ServesUart s.cfg.regtab base)
    (k : Receive) :
    recvLoad s k = .ok (received { s with
      uart := { s.uart with rxne := false }
      trace := s.trace ++ [.load (addrOf ⟨base, uartRdr⟩) .word (s.uart.rdr.setWidth 32)] }
      (s.uart.rdr.extractLsb' 0 8) k) := by
  have hf : fieldNamed ⟨base, uartRdr⟩ .rdr = some ⟨.rdr, 0, 8, .ro⟩ := rfl
  have hs : deviceLoad s ⟨base, uartRdr⟩ = .ok (s.uart.rdr.setWidth 32, { s with uart := { s.uart with rxne := false } }) := by
    show Except.ok (shown _ _ _) = _
    rw [shown_word rfl]
  have he : (extract (s.uart.rdr.setWidth 32) ⟨.rdr, 0, 8, .ro⟩).extractLsb' 0 8 = s.uart.rdr.extractLsb' 0 8 := by
    apply BitVec.eq_of_getLsbD_eq
    intro i hi
    simp only [BitVec.getLsbD_extractLsb', hi, decide_true, Bool.true_and, Nat.zero_add]
    rw [extract_bit _ _ (by simp) (by simp)]
    have h9 : i < 9 := by omega
    have h32 : i < 32 := by omega
    simp [h9, h32]
  have hm := memRead_declared ha (regNamed_mem hb.2.1) hs
  simp only [recvLoad, needReg, needField, hb.2.1, hf, bind, Except.bind, hm, he]
  rfl

/-- A poll of UIF: one load of SR, and what follows it (R260, R263, R265). -/
theorem pollUif_profile {s : State} (ha : accepted s.cfg = true) {base : Word} (hb : ServesTimer s.cfg.regtab base)
    (delay : Bool) :
    pollUif s delay = .ok (
      let t : State := { s with
        tst := if delay then .counting else s.tst
        trace := s.trace ++ [.load (addrOf ⟨base, timSr⟩) .word (if s.tim.uif then 1#32 else 0#32)] }
      if s.tim.uif then (if delay then { t with cont := .ackModify } else { t with tst := .expired }.complete .ok)
      else { t with cont := .pollUif delay }) := by
  have hf : fieldNamed ⟨base, timSr⟩ .uif = some (bitField .uif 0 .rw) := rfl
  let u : State := if delay then { s with tst := .counting } else s
  have hu : u.cfg = s.cfg ∧ u.tim = s.tim := by cases delay <;> exact ⟨rfl, rfl⟩
  have hv : srValue s.tim = if s.tim.uif then 1#32 else 0#32 := by
    simp only [srValue, flagAt]
    split <;> rfl
  have hs : deviceLoad u ⟨base, timSr⟩ = .ok (if s.tim.uif then 1#32 else 0#32, u) := by
    show Except.ok (shown u _ (srValue u.tim)) = _
    rw [shown_word rfl, hu.2, hv]
  have hm := memRead_declared (s := u) (by rw [hu.1]; exact ha) (by rw [hu.1]; exact regNamed_mem hb.2.1) hs
  simp only [pollUif, needReg, needField, hb.2.1, hf, bind, Except.bind]
  simp only [u] at hm
  rw [hm]
  have he := extract_bitField (if s.tim.uif then 1#32 else 0#32) .uif (i := 0) (by decide) .rw
  cases delay <;> cases h : s.tim.uif <;> simp [h] at he ⊢ <;> simp [he] <;> rfl

end Sys2Proof.Machine
end

