-- ==== Sys2Proof/Laws/Step.lean ====
section
/-! SUPPORT. The step of the machine: what it can do, said once (00_scope.md R9, 60_exceptions.md R350, R356). -/

namespace Sys2Proof.Machine

open Sys2Proof.Config

/-- A state that has ended meets the conditions of R381; and the other way, a pc past the end apart. -/
theorem ended_iff {s : State} :
    ended s = true ↔ s.fault = none ∧ s.prog.length ≤ s.pc ∧ s.desc = .none ∧ s.cont = .none ∧ s.uart.txe = true := by
  simp only [ended, engineDone, Bool.and_eq_true, Option.isNone_iff_eq_none, decide_eq_true_eq,
    List.getElem?_eq_none_iff]
  exact ⟨fun ⟨⟨hf, ⟨hc, hp⟩, hd⟩, hx⟩ => ⟨hf, hp, hd, hc, hx⟩, fun ⟨hf, hp, hd, hc, hx⟩ => ⟨⟨hf, ⟨hc, hp⟩, hd⟩, hx⟩⟩

/-- After the end of a run there is no step (R381). -/
theorem step_ended {s : State} (h : ended s = true) : step s = .fault .ended := by
  simp [step, machineStep, (ended_iff.1 h).1, h]

/-- A step is one agent's, in a state that has not faulted, of a run that has not ended. -/
theorem step_next {s t : State} (h : step s = .next t) :
    s.fault = none ∧ ended s = false ∧ ∃ a, nextAgent s = some a ∧ agentStep (takeTurn s) a = .next t := by
  unfold step machineStep at h
  split at h
  · cases h
  · rename_i hf
    split at h
    · cases h
    · rename_i he
      split at h
      · cases h
      · rename_i a ha
        exact ⟨hf, by simpa using he, a, ha, h⟩

theorem nextAgent_enabled {s : State} {a : Agent} (h : nextAgent s = some a) : enabled s a = true := by
  unfold nextAgent at h
  split at h
  · cases h
    assumption
  · exact List.find?_some h

/-- A first step: a fault that changes nothing else, or the decoded command's (R350). -/
theorem fetchStep_next {s t : State} (h : fetchStep s = .next t) :
    (∃ k, t = s.raise k) ∨ ∃ w i, s.prog[s.pc]? = some w ∧ decode w = .ok i ∧ exec i s = .next t := by
  unfold fetchStep at h
  split at h
  · split at h
    · cases h
    · cases h
      exact .inl ⟨_, rfl⟩
  · rename_i w hw
    split at h
    · cases h
      exact .inl ⟨_, rfl⟩
    · rename_i i hi
      exact .inr ⟨w, i, hw, hi, h⟩

/-- The ENGINE with a command part-way is enabled. -/
theorem enabled_engine {s : State} (hf : s.fault = none) (hc : s.cont ≠ .none) : enabled s .engine = true := by
  simp [enabled, engineDone, hf, hc]

/-- In a run by schedule, the ENGINE goes on with a command part-way. -/
theorem runAgents_engine {s : State} (hf : s.fault = none) (hc : s.cont ≠ .none) (l : List Agent) :
    runAgents (.next s) (.engine :: l) = runAgents (engineStep s) l := by
  simp [runAgents, thenStep, enabled_engine hf hc, agentStep]

theorem runAgents_append (o : Stepped) (l m : List Agent) : runAgents o (l ++ m) = runAgents (runAgents o l) m := by
  induction l generalizing o with
  | nil => rfl
  | cons a l ih => simp [runAgents, ih]

end Sys2Proof.Machine
end

