-- ==== Sys2Proof/Laws/Run.lean ====
section
/-! SUPPORT. Runs: what one step of a run does, and how weak fairness makes a run progress (60_exceptions.md R374, R381). -/

namespace Sys2Proof.Machine

open Sys2Proof.Config

/-- With a command part-way the run has not ended. -/
theorem ended_of_cont {s : State} (h : s.cont ≠ .none) : ended s = false := by
  by_contra hc
  exact h (ended_iff.1 (by simpa using hc)).2.2.2.1

/-- The state of R381 is one the step stops at. -/
theorem ended_of_Ended {s : State} (h : Ended s) : ended s = true :=
  ended_iff.2 ⟨h.1, Nat.le_of_eq h.2.1.symm, h.2.2⟩

/-- Where some agent is enabled, one of the enabled agents is next. -/
theorem nextAgent_some {s : State} {a : Agent} (ha : enabled s a = true) :
    ∃ b, nextAgent s = some b ∧ enabled s b = true := by
  suffices h : ∃ b, nextAgent s = some b from h.imp fun _ hb => ⟨hb, nextAgent_enabled hb⟩
  unfold nextAgent
  split
  · exact ⟨_, rfl⟩
  · exact Option.isSome_iff_exists.1 (List.find?_isSome.2 ⟨a, by cases a <;> simp, ha⟩)

/-- A run that has faulted stays where it is (R356). -/
theorem IsRun.fault_stays {σ : Nat → State} (hr : IsRun σ) {k : Nat} (h : (σ k).fault ≠ none) : σ (k + 1) = σ k := by
  rcases hr k with h1 | ⟨-, h1⟩
  · exact absurd (step_next h1).1 h
  · exact h1

/-- One step of a run in which some agent is enabled and every enabled agent's step is a next state. -/
theorem IsRun.step_of {σ : Nat → State} (hr : IsRun σ) {k : Nat} (hf : (σ k).fault = none)
    (he : ended (σ k) = false) {a : Agent} (ha : enabled (σ k) a = true)
    (hs : ∀ b, enabled (σ k) b = true → ∃ t, agentStep (takeTurn (σ k)) b = .next t) :
    ∃ b, enabled (σ k) b = true ∧ nextAgent (σ k) = some b ∧
      agentStep (takeTurn (σ k)) b = .next (σ (k + 1)) := by
  obtain ⟨b, hb, hen⟩ := nextAgent_some ha
  obtain ⟨t, ht⟩ := hs b hen
  have hst : step (σ k) = .next t := by simp [step, machineStep, hf, he, hb, ht]
  rcases hr k with h | ⟨h, -⟩
  · rw [hst] at h
    cases h
    exact ⟨b, hen, hb, ht⟩
  · exact absurd hst (h t)

/-- PROGRESS BY FAIRNESS (R374): if in every state of `P` agent `a` is enabled, and every step from `P` faults, reaches
`Q`, or stays in `P` and is another agent's, then a fair run in `P` faults or reaches `Q`. -/
theorem WeaklyFair.leads {σ : Nat → State} (hw : WeaklyFair σ) (hr : IsRun σ) (P Q : State → Prop) (a : Agent)
    (hP : ∀ s, P s → s.fault = none ∧ ended s = false ∧ enabled s a = true)
    (hstep : ∀ s b, P s → enabled s b = true →
      ∃ t, agentStep (takeTurn s) b = .next t ∧ (t.fault ≠ none ∨ Q t ∨ P t ∧ b ≠ a))
    {k : Nat} (hk : P (σ k)) : ∃ j, k ≤ j ∧ ((σ j).fault ≠ none ∨ Q (σ j)) := by
  by_contra hc
  push Not at hc
  have one : ∀ j, k ≤ j → P (σ j) → P (σ (j + 1)) ∧ nextAgent (σ j) ≠ some a := by
    intro j hj hp
    obtain ⟨h1, h2, h3⟩ := hP _ hp
    obtain ⟨b, hb, hn, hs⟩ := hr.step_of h1 h2 h3 fun b hb => (hstep _ b hp hb).imp fun _ => And.left
    obtain ⟨t, ht, hq⟩ := hstep _ b hp hb
    rw [hs] at ht
    cases ht
    have hno := hc (j + 1) (by omega)
    rcases hq with h | h | ⟨h, hne⟩
    · exact absurd hno.1 h
    · exact absurd h hno.2
    · exact ⟨h, by rw [hn]; simpa using hne⟩
  have all : ∀ m, P (σ (k + m)) := by
    intro m
    induction m with
    | zero => exact hk
    | succ m ih => exact (one _ (by omega) ih).1
  have all' : ∀ j, k ≤ j → P (σ j) := fun j hj => by
    obtain ⟨m, rfl⟩ := Nat.exists_eq_add_of_le hj
    exact all m
  obtain ⟨j, hj, hn⟩ := hw a k fun j hj =>
    ⟨(hP _ (all' j hj)).2.2, fun he => by simpa [ended_of_Ended he] using (hP _ (all' j hj)).2.1⟩
  exact (one j hj (all' j hj)).2 hn

/-- The TIMER's step faults, or changes the timer alone (R370). -/
theorem timer_next (s : State) :
    ∃ t, agentStep s .timer = .next t ∧ ((∃ k, t = s.raise k) ∨ ∃ tm, t = { s with tim := tm }) := by
  refine ⟨_, rfl, ?_⟩
  unfold timerTick
  split
  · exact .inl ⟨_, rfl⟩
  · exact .inr ⟨_, rfl⟩

/-- UART_RX's step does nothing on an empty line, faults, or delivers the head of IN (R373). -/
theorem uartRx_next (s : State) :
    ∃ t, agentStep s .uartRx = .next t ∧ (t = s ∨ (∃ k, t = s.raise k) ∨
      ∃ b rest, s.uart.rxne = false ∧ s.uart.input = b :: rest ∧
        t = { s with uart := { s.uart with input := rest, rdr := b.setWidth 9, rxne := true } }) := by
  refine ⟨_, rfl, ?_⟩
  unfold uartRxArrive
  split
  · exact .inl rfl
  · rename_i b rest hin
    split
    · exact .inr (.inl ⟨_, rfl⟩)
    · rename_i hx
      exact .inr (.inr ⟨b, rest, by simpa using hx, hin, rfl⟩)

end Sys2Proof.Machine
end

