-- ==== Sys2Proof/Tests/Slice0.lean ====
section
/-! SUPPORT. Tests. Expected values come from spec/95_test_vectors.md (V-, S- and P- names) or are worked out by hand from
the rule named. Theorems `witness_<Obligation>` show that the hypotheses of a statement can be met, clause by clause, at
the ends of their ranges. -/

namespace Sys2Proof.Tests

open Sys2Proof Sys2Proof.Machine Sys2Proof.Config

/-! ### Small states -/

/-- The common premises of 95_test_vectors.md: no pin error, a paced receiver. -/
def common : State := { State.reset with cfg := { defaultParams with pinErrorPossible := false, rxPaced := true } }

/-- `common` with Xi = v. -/
def withX (i : RegIx) (v : Word) : State := common.setX i v

/-- `common` with Xi = v and Xj = w. -/
def withXs (i : RegIx) (v : Word) (j : RegIx) (w : Word) : State := (common.setX i v).setX j w

/-- `common` with an open group. -/
def inside (r : Option Reg) (ops : List StagedOp) (poison : Option Cause) : State :=
  { common with desc := .opened r ops poison }

/-- `common` with four more backed bytes, at 0x2000_0000. -/
def withRam (i : RegIx) (v : Word) : State :=
  { common with cfg := { common.cfg with backed := ⟨0x20000000, 4⟩ :: common.cfg.backed } }.setX i v

/-- The outcome is a next state with property `p`. -/
def nextHas (o : Stepped) (p : State → Bool) : Bool :=
  match o with
  | .next t => p t
  | .fault _ | .refused _ => false

/-- The kind of the fault a next state records. -/
def faultIs (k : FaultKind) (t : State) : Bool := decide (t.fault = some ⟨k, t.pc⟩)

def regCr1 : Reg := ⟨timBaseDefault, timCr1⟩
def regSr : Reg := ⟨timBaseDefault, timSr⟩
def regArr : Reg := ⟨timBaseDefault, timArr⟩
def regPsc : Reg := ⟨timBaseDefault, timPsc⟩
def regOdr : Reg := ⟨gpioBase, gpioOdr⟩
def regBsrr : Reg := ⟨gpioBase, gpioBsrr⟩
def regIsr : Reg := ⟨uartBaseDefault, uartIsr⟩
def regTdr : Reg := ⟨uartBaseDefault, uartTdr⟩

/-- `common` with a 16-bit TIM ARR and PSC, an 8-bit TIM SR and an 8-bit TDR of the bytes alone. -/
def narrow : State := { common with cfg := { common.cfg with regtab :=
  [⟨0#4, .tim, timBaseDefault, [timCr1, { timSr with width := .byte }, { timPsc with width := .half },
     { timArr with width := .half }]⟩,
   ⟨1#4, .gpio, gpioBase, [gpioOdr, gpioBsrr]⟩,
   ⟨2#4, .uart, uartBaseDefault, [{ uartIsr with width := .byte }, uartRdr,
     { uartTdr with width := .byte, fields := [⟨.tdr, 0, 7, .wo⟩] }]⟩] } }
def narrowArr : Reg := ⟨timBaseDefault, { timArr with width := .half }⟩
def narrowPsc : Reg := ⟨timBaseDefault, { timPsc with width := .half }⟩

/-! ### Runs -/

/-- The state after a step, the same state where there is none. -/
def stepped (s : State) : State :=
  match step s with
  | .next t => t
  | .fault _ | .refused _ => s

/-- The run from a state. -/
def runOf (s : State) : Nat → State
  | 0 => s
  | k + 1 => stepped (runOf s k)

theorem runOf_isRun (s : State) : IsRun (runOf s) := by
  intro k
  show step (runOf s k) = .next (stepped (runOf s k)) ∨ _ ∧ stepped (runOf s k) = runOf s k
  unfold stepped
  cases step (runOf s k) <;> simp

theorem runOf_stays {s : State} {n : Nat} (h : ended (runOf s n) = true) (m : Nat) : runOf s (n + m) = runOf s n := by
  induction m with
  | zero => rfl
  | succ m ih =>
    show stepped (runOf s (n + m)) = _
    rw [ih, stepped, step_ended h]

/-- A run that ends is fair. -/
theorem runOf_fair {s : State} {n : Nat} (he : Ended (runOf s n)) : WeaklyFair (runOf s) := by
  intro a k h
  have hs := runOf_stays (ended_of_Ended he) k
  exact absurd (hs ▸ he) (h (n + k) (Nat.le_add_left k n)).2

/-! ### Well-formedness -/

/-- R134, R138: width code 3 is no command. -/
theorem test_ldv_width3_refused : (Instr.ldv 3#4 2#4 3#2).wellFormed = false := by decide
theorem test_stv_width3_refused : (Instr.stv 3#4 2#4 3#2).wellFormed = false := by decide
theorem test_ldv_width2_accepted : (Instr.ldv 3#4 2#4 2#2).wellFormed = true := by decide

/-- R201: a register that only the second block of an id has is found. -/
theorem test_resolve_second_block :
    resolve [⟨0#4, .tim, timBaseDefault, [timCr1]⟩, ⟨0#4, .tim, 0x50000000#32, [timSr]⟩] 0x01#8 =
      some ⟨0x50000000#32, timSr⟩ := by decide
/-- R43: the default profile is accepted. -/
theorem test_profile_accepted : accepted common.cfg = true := by decide
/-- R43 (a): an address that is no multiple of W/8. -/
theorem test_table_misaligned : alignedReg ⟨2#32, timSr⟩ = false := by decide
/-- R43 (b): a 16-bit register inside a 32-bit one. -/
theorem test_table_overlap :
    regsDisjoint ⟨0x40001000#32, timCr1⟩ ⟨0x40001002#32, { timSr with offset := 0#32, width := .half }⟩ = false := by
  decide
/-- R43 (c): a field past the register's width. -/
theorem test_table_field_range : fieldsInRange ⟨0#32, { timPsc with width := .byte }⟩ = false := by decide
/-- R42: lo above hi. -/
theorem test_table_field_reversed : fieldsInRange ⟨0#32, { timSr with fields := [⟨.uif, 1, 0, .rw⟩] }⟩ = false := by decide
/-- R43 (d): two fields that share a bit. -/
theorem test_table_fields_share :
    fieldsApart ⟨0#32, { timSr with fields := [⟨.uif, 0, 3, .rw⟩, bitField .cen 3 .rw] }⟩ = false := by decide
/-- R43 (e): an RW field in a write-only register. -/
theorem test_table_permission : fieldPermsContained ⟨0#32, { timSr with perm := .wo }⟩ = false := by decide
/-- R43 (f): a write-default that sets a reserved bit. -/
theorem test_table_wdef : wdefLegal ⟨0#32, { timSr with wdef := 2#32 }⟩ = false := by decide
/-- R43 (g): a register at an unbacked address. -/
theorem test_table_unbacked : accepted { defaultParams with backed := [] } = false := by decide
/-- R14, R42: an address past the last (log entry 10). -/
theorem test_table_address : addressFits ⟨0xFFFFFFF0#32, timSr⟩ = false ∧ addressFits ⟨0xFFFFFFE8#32, timSr⟩ = true := by
  decide
/-- R42: a block of TIM with a register of GPIO. -/
theorem test_table_names : namesAgree ⟨0#4, .tim, 0#32, [timCr1, gpioOdr]⟩ = false := by decide
/-- R11: registers of 8 and 16 bits. -/
theorem test_narrow_accepted :
    accepted narrow.cfg = true ∧ timerTable narrow.cfg.regtab = true ∧ uartTable narrow.cfg.regtab = true := by decide
/-- R11: a capacity out of range. -/
theorem test_capacity_zero : accepted { defaultParams with capacity := 0 } = false := by decide

/-! ### Decoding (95_test_vectors.md 2.1) -/

theorem test_decode_operand :
    decode 0x01201018#32 = .ok (.li 2#4 0x1018#16) ∧ decode 0x02204800#32 = .ok (.lih 2#4 0x4800#16) ∧
    decode 0x03500000#32 = .ok (.gets 5#4) := by decide
theorem test_decode_volatile :
    decode 0x10320002#32 = .ok (.ldv 3#4 2#4 2#2) ∧ decode 0x11320000#32 = .ok (.stv 3#4 2#4 0#2) ∧
    decode 0x10320003#32 = .error .badWidthCode ∧ decode 0x10320006#32 = .error .mustBeZero := by decide
theorem test_decode_reads :
    decode 0x20400100#32 = .ok (.rread 4#4 0x01#8) ∧ decode 0x21402003#32 = .ok (.rfield 4#4 0x20#8 3#8) ∧
    decode 0x20400101#32 = .error .mustBeZero := by decide
theorem test_decode_group :
    decode 0x22001100#32 = .ok (.dbegin 0x11#8) ∧ decode 0x23100009#32 = .ok (.dset 1#4 9#8) ∧
    decode 0x24190001#32 = .ok (.dseti 25#8 1#16) ∧ decode 0x25100009#32 = .ok (.dxor 1#4 9#8) ∧
    decode 0x26100000#32 = .ok (.dbits 1#4) ∧ decode 0x22101100#32 = .error .mustBeZero := by decide
theorem test_decode_write_modify :
    decode 0x27000000#32 = .ok .write ∧ decode 0x28000000#32 = .ok .modify ∧
    decode 0x27100000#32 = .error .mustBeZero := by decide
theorem test_decode_timer :
    decode 0x30100000#32 = .ok (.tstart 1#4) ∧ decode 0x310003E8#32 = .ok (.tstarti 1000#16) ∧
    decode 0x32000000#32 = .ok .tpoll ∧ decode 0x33000000#32 = .ok .tack ∧
    decode 0x34100000#32 = .ok (.delay 1#4) ∧ decode 0x350003E8#32 = .ok (.delayi 1000#16) ∧
    decode 0x351003E8#32 = .error .mustBeZero := by decide
theorem test_decode_gpio :
    decode 0x40000009#32 = .ok (.pon 9#16) ∧ decode 0x41000019#32 = .ok (.poff 25#16) := by decide
theorem test_decode_uart :
    decode 0x50100000#32 = .ok (.usend 1#4) ∧ decode 0x5100000A#32 = .ok (.usendi 0x0A#8) ∧
    decode 0x52100000#32 = .ok (.urecv 1#4) ∧ decode 0x53100000#32 = .ok (.uline 1#4) ∧
    decode 0x54000000#32 = .ok .lrev ∧ decode 0x55000000#32 = .ok .usendl ∧
    decode 0x5100010A#32 = .error .mustBeZero := by decide
/-- V-E28. -/
theorem test_decode_unknown :
    ([0x00000000#32, 0xFFFFFFFF#32, 0x04000000#32, 0x29000000#32, 0x36000000#32, 0x42000000#32, 0x56000000#32].all
      fun w => decide (decode w = .error .unknownOpcode)) = true := by decide
/-- V-E29. -/
theorem test_decode_bytes : decodeBytes [0x09#8, 0x00#8, 0x00#8, 0x40#8] = .ok (.pon 9#16, []) := by decide
theorem test_encode_words :
    encode (.stv 2#4 2#4 2#2) = 0x11220002#32 ∧ encode (.rfield 12#4 0x01#8 7#8) = 0x21C00107#32 ∧
    encode (.dseti 0x13#8 1#16) = 0x24130001#32 ∧ encode (.usendi 0x0A#8) = 0x5100000A#32 := by decide

/-! ### Operand commands -/

/-- V-O5. -/
theorem test_li_clears_upper :
    nextHas (exec (.li 0#4 0#16) (withX 0#4 0x12345678#32)) (fun t => decide (t.xAt 0#4 = some 0#32)) = true := by decide
/-- V-O3. -/
theorem test_lih_keeps_lower :
    nextHas (exec (.lih 2#4 0#16) (withX 2#4 0xFFFFFFFF#32)) (fun t => decide (t.xAt 2#4 = some 0x0000FFFF#32)) = true := by
  decide
/-- V-O4. -/
theorem test_lih_unwritten : nextHas (exec (.lih 3#4 1#16) common) (faultIs (.unwrittenRegister 3#4)) = true := by decide
/-- V-O6. -/
theorem test_gets_reads_status :
    nextHas (exec (.gets 5#4) { common with status := 0x0401#32 })
      (fun t => decide (t.xAt 5#4 = some 0x0401#32) && decide (t.status = 0x0401#32)) = true := by decide

/-! ### Volatile access -/

/-- V-V1. -/
theorem test_ldv_odr :
    nextHas (exec (.ldv 3#4 2#4 2#2) { withX 2#4 0x48001014#32 with odr := 0x0200#16 })
      (fun t => decide (t.xAt 3#4 = some 0x200#32) && decide (t.trace = [.load 0x48001014#32 .word 0x200#32])) = true := by
  decide
/-- V-V9. -/
theorem test_ldv_rdr_clears_rxne :
    nextHas (exec (.ldv 3#4 2#4 2#2)
        { withX 2#4 0x40013824#32 with uart := { Uart.reset with rxne := true, rdr := 0x41#9 } })
      (fun t => decide (t.xAt 3#4 = some 0x41#32) && !t.uart.rxne) = true := by decide
/-- V-V14: one register is both the value and the address. -/
theorem test_stv_value_is_address :
    nextHas (exec (.stv 2#4 2#4 2#2) { withX 2#4 0x48001018#32 with odr := 0x4800#16 })
      (fun t => decide (t.odr = 0x1018#16)) = true := by decide
/-- V-V8. -/
theorem test_stv_byte_too_wide :
    nextHas (exec (.stv 3#4 2#4 0#2) (withXs 2#4 0x60000000#32 3#4 0x100#32))
      (fun t => decide (t.status = 0x0501#32) && decide (t.trace = []) && decide (t.fault = none)) = true := by decide

/-! ### The Register Field Model -/

/-- V-F1. -/
theorem test_rread_sr :
    nextHas (exec (.rread 4#4 0x01#8) { common with tim := { Timer.reset with uif := true } })
      (fun t => decide (t.xAt 4#4 = some 1#32)) = true := by decide
/-- V-F2. -/
theorem test_rread_write_only :
    nextHas (exec (.rread 4#4 0x11#8) common)
      (fun t => decide (t.status = 0x0201#32) && decide (t.xAt 4#4 = none) && decide (t.trace = [])) = true := by decide
/-- P4, index 9. -/
theorem test_rfield_opm :
    nextHas (exec (.rfield 7#4 0x00#8 3#8) { common with tim := { Timer.reset with opm := true } })
      (fun t => decide (t.xAt 7#4 = some 1#32) && decide (t.trace = [.load 0x40001000#32 .word 8#32])) = true := by decide
/-- V-F21. -/
theorem test_rfield_unknown_field :
    nextHas (exec (.rfield 4#4 0x20#8 9#8) common) (fun t => decide (t.status = 0x0301#32)) = true := by decide
/-- P4, index 14. -/
theorem test_dbegin_unknown :
    nextHas (exec (.dbegin 0x3F#8) common)
      (fun t => decide (t.desc = .opened none [] (some .unknownRegister)) && decide (t.status = 0#32)) = true := by decide
/-- V-F25. -/
theorem test_dset_too_wide :
    nextHas (exec (.dset 1#4 0#8) ((inside (some regArr) [] none).setX 1#4 0x10000#32))
      (fun t => decide (t.desc = .opened (some regArr) [] (some .valueTooWide))) = true := by decide
/-- V-F14: the first poison is kept. -/
theorem test_dset_keeps_poison :
    nextHas (exec (.dset 1#4 3#8) ((inside (some regCr1) [] (some .unknownField)).setX 1#4 1#32))
      (fun t => decide (t.desc = .opened (some regCr1) [] (some .unknownField))) = true := by decide
/-- V-F9. -/
theorem test_dseti_too_wide :
    nextHas (exec (.dseti 3#8 2#16) (inside (some regCr1) [] none))
      (fun t => decide (t.desc = .opened (some regCr1) [] (some .valueTooWide))) = true := by decide
/-- V-F10. -/
theorem test_dseti_unknown_field :
    nextHas (exec (.dseti 5#8 1#16) (inside (some regSr) [] none))
      (fun t => decide (t.desc = .opened (some regSr) [] (some .unknownField))) = true := by decide
/-- V-F15, its staging. -/
theorem test_dxor_stages :
    nextHas (exec (.dxor 1#4 9#8) ((inside (some regOdr) [] none).setX 1#4 1#32))
      (fun t => decide (t.desc = .opened (some regOdr) [.xor (bitField (.odr 9) 9 .rw) 1#32] none)) = true := by decide
/-- V-F7. -/
theorem test_dbits_reserved :
    nextHas (exec (.dbits 1#4) ((inside (some regCr1) [] none).setX 1#4 0x10#32))
      (fun t => decide (t.desc = .opened (some regCr1) [] (some .reservedBit))) = true := by decide
/-- V-F17: a write starts from the write-default. -/
theorem test_write_odr :
    nextHas (exec .write { inside (some regOdr) [.set (bitField (.odr 4) 4 .rw) 1#32] none with odr := 0x0003#16 })
      (fun t => decide (t.odr = 0x0010#16) && decide (t.desc = .none)) = true := by decide
/-- V-F19 with ResetWins: set and reset of one pin. -/
theorem test_write_both_reset_wins :
    nextHas (exec .write
        { inside (some regBsrr) [.set (bitField (.bs 3) 3 .wo) 1#32, .set (bitField (.br 3) 19 .wo) 1#32] none with
          cfg := { common.cfg with bsrrBoth := .resetWins }, odr := 0xFFFF#16 })
      (fun t => decide (t.odr = 0xFFF7#16) && decide (t.trace = [.store 0x48001018#32 .word 0x00080008#32])) = true := by
  decide
/-- V-F16: a modify keeps the other fields. -/
theorem test_modify_store_odr :
    nextHas (engineStep { common with
        odr := 0x0003#16
        cont := .modifyStore regOdr [.set (bitField (.odr 4) 4 .rw) 1#32] 0x0003#32 .group })
      (fun t => decide (t.odr = 0x0013#16) && decide (t.status = 0#32) && decide (t.pc = 1)) = true := by decide
/-- V-F12. -/
theorem test_modify_write_only :
    nextHas (exec .modify (inside (some regBsrr) [] none))
      (fun t => decide (t.status = 0x0201#32) && decide (t.desc = .none)) = true := by decide

/-! ### The timer -/

/-- V-T1, its first step. -/
theorem test_tstart_stores_period :
    nextHas (exec (.tstart 1#4) (withX 1#4 5#32))
      (fun t => decide (t.tim.arr = 5#16) && !t.tim.cen && decide (t.trace = [.store 0x4000102C#32 .word 5#32])) = true := by
  decide
/-- V-T2. -/
theorem test_tstart_too_wide :
    nextHas (exec (.tstart 1#4) (withX 1#4 0x10000#32))
      (fun t => decide (t.status = 0x0501#32) && decide (t.trace = [])) = true := by decide
/-- R207, R260 with a 16-bit ARR: a store of two bytes. -/
theorem test_tstarti_half :
    nextHas (exec (.tstarti 5#16) narrow)
      (fun t => decide (t.tim.arr = 5#16) && decide (t.trace = [.store 0x4000102C#32 .half 5#32])) = true := by decide
/-- R260 with an 8-bit SR: a load of one byte. -/
theorem test_tpoll_byte :
    nextHas (exec .tpoll { narrow with tim := { Timer.reset with uif := true } })
      (fun t => decide (t.tst = .expired) && decide (t.trace = [.load 0x40001010#32 .byte 1#32])) = true := by decide
/-- V-T9, its first step: a period of 0 is stored. -/
theorem test_tstarti_zero : nextHas (exec (.tstarti 0#16) common) (fun t => decide (t.tim.arr = 0#16)) = true := by decide
/-- V-T4, its last load. -/
theorem test_tpoll_expired :
    nextHas (exec .tpoll { common with tim := { Timer.reset with uif := true } })
      (fun t => decide (t.tst = .expired) && t.tim.uif && decide (t.pc = 1)) = true := by decide
/-- V-T5, its store. -/
theorem test_tack_store_clears :
    nextHas (engineStep { common with
        tim := { Timer.reset with uif := true }
        cont := .modifyStore regSr [.set (bitField .uif 0 .rw) 0#32] 1#32 .acknowledged })
      (fun t => !t.tim.uif && decide (t.tst = .idle) && decide (t.trace = [.store 0x40001010#32 .word 0#32])) = true := by
  decide
/-- V-T7. -/
theorem test_delay_zero :
    nextHas (exec (.delay 1#4) { withX 1#4 0#32 with tst := .expired })
      (fun t => decide (t.pc = 1) && decide (t.trace = []) && decide (t.tst = .expired)) = true := by decide
/-- S6. -/
theorem test_delayi_zero :
    nextHas (exec (.delayi 0#16) common) (fun t => decide (t.pc = 1) && decide (t.trace = [])) = true := by decide
/-- V-T8, the store of CR1. -/
theorem test_delayi_store_cr1 :
    nextHas (engineStep { common with
        cont := .modifyStore regCr1 [.set (bitField .opm 3 .rw) 1#32, .set (bitField .cen 0 .rw) 1#32] 0#32
          (.started true) })
      (fun t => t.tim.cen && t.tim.opm && decide (t.cont = .pollUif true) &&
        decide (t.trace = [.store 0x40001000#32 .word 9#32])) = true := by decide
/-- V-T3, the last tick. -/
theorem test_tick_update :
    tickTimer { Timer.reset with cen := true, opm := true, arr := 5#16, cnt := 4#16 } =
      { Timer.reset with opm := true, arr := 5#16, uif := true } := by decide
/-- V-T11, the tick. -/
theorem test_tick_overrun :
    faultIs (.timerOverrunPeriod 4#16 2#16)
      (timerTick { common with tim := { Timer.reset with cen := true, arr := 2#16, cnt := 4#16 } }) = true := by decide

/-! ### GPIO -/

/-- V-G3. -/
theorem test_pon_15 :
    nextHas (exec (.pon 15#16) { common with odr := 0x8001#16 })
      (fun t => decide (t.odr = 0x8001#16) && decide (t.trace = [.store 0x48001018#32 .word 0x8000#32])) = true := by decide
/-- V-G5. -/
theorem test_pon_16 :
    nextHas (exec (.pon 16#16) common) (fun t => decide (t.status = 0x0601#32) && decide (t.trace = [])) = true := by decide
/-- V-G4. -/
theorem test_poff_0 :
    nextHas (exec (.poff 0#16) { common with odr := 0xFFFF#16 })
      (fun t => decide (t.odr = 0xFFFE#16) && decide (t.trace = [.store 0x48001018#32 .word 0x00010000#32])) = true := by
  decide
/-- V-G6. -/
theorem test_poff_25 :
    nextHas (exec (.poff 25#16) common) (fun t => decide (t.status = 0x0601#32) && decide (t.trace = [])) = true := by
  decide

/-! ### The UART -/

/-- V-U2. -/
theorem test_usend_too_wide :
    nextHas (exec (.usend 1#4) (withX 1#4 0x100#32)) (fun t => decide (t.status = 0x0501#32)) = true := by decide
/-- V-X4. -/
theorem test_usend_unwritten : nextHas (exec (.usend 1#4) common) (faultIs (.unwrittenRegister 1#4)) = true := by decide
/-- V-U3, its store. -/
theorem test_usendi_store :
    nextHas (engineStep { common with cont := .sendStore 0x42#8 [] })
      (fun t => decide (t.uart.tdr = 0x42#8) && !t.uart.txe && decide (t.pc = 1) &&
        decide (t.trace = [.store 0x40013828#32 .word 0x42#32])) = true := by decide
/-- R207, R310 with an 8-bit TDR: a store of one byte. -/
theorem test_usendi_byte :
    nextHas (engineStep { narrow with cont := .sendStore 0x42#8 [] })
      (fun t => decide (t.uart.tdr = 0x42#8) && decide (t.trace = [.store 0x40013828#32 .byte 0x42#32])) = true := by decide
/-- V-U4, its load of RDR. -/
theorem test_urecv_load :
    nextHas (engineStep { common with
        uart := { Uart.reset with rxne := true, rdr := 0x68#9 }, cont := .recvLoad (.byte 1#4) })
      (fun t => decide (t.xAt 1#4 = some 0x68#32) && !t.uart.rxne && decide (t.pc = 1)) = true := by decide
/-- V-U7, its second byte. -/
theorem test_uline_overflow :
    nextHas (engineStep { common with
        cfg := { common.cfg with capacity := 1 }, lb := [0x61#8]
        uart := { Uart.reset with rxne := true, rdr := 0x62#9 }, cont := .recvLoad (.line 1#4 0) })
      (fun t => decide (t.lb = [0x61#8]) && decide (t.reports = [.overflow 0x62#8]) &&
        decide (t.cont = .recvPoll (.line 1#4 1) none)) = true := by decide
/-- V-U6: a byte that fits is appended with the next load of ISR. -/
theorem test_uline_keeps_byte :
    nextHas (engineStep { common with
        uart := { Uart.reset with rxne := true, rdr := 0x61#9 }, cont := .recvLoad (.line 1#4 0) })
      (fun t => decide (t.lb = []) && decide (t.cont = .recvPoll (.line 1#4 0) (some 0x61#8))) = true ∧
    nextHas (engineStep { common with cont := .recvPoll (.line 1#4 0) (some 0x61#8) })
      (fun t => decide (t.lb = [0x61#8])) = true := by decide
/-- V-U7, its terminator. -/
theorem test_uline_terminator :
    nextHas (engineStep { common with
        cfg := { common.cfg with capacity := 1 }, lb := [0x61#8]
        uart := { Uart.reset with rxne := true, rdr := 0x0A#9 }, cont := .recvLoad (.line 1#4 1) })
      (fun t => decide (t.xAt 1#4 = some 1#32) && decide (t.status = 0x00010002#32) && decide (t.lb = [0x61#8])) = true := by
  decide
/-- P2, index 1. -/
theorem test_lrev :
    nextHas (exec .lrev { common with lb := [0x68#8, 0x65#8, 0x6C#8] })
      (fun t => decide (t.lb = [0x6C#8, 0x65#8, 0x68#8])) = true := by decide
/-- V-U10. -/
theorem test_usendl_empty :
    nextHas (exec .usendl common) (fun t => decide (t.pc = 1) && decide (t.trace = [])) = true := by decide
/-- P2, index 2: after the first byte's store the second is polled for. -/
theorem test_usendl_goes_on :
    nextHas (engineStep { common with cont := .sendStore 0x6F#8 [0x6C#8] })
      (fun t => decide (t.cont = .sendPoll 0x6C#8 []) && decide (t.pc = 0)) = true := by decide
/-- V-U12. -/
theorem test_uart_overrun :
    nextHas (agentStep { State.reset with uart := { Uart.reset with rxne := true, input := [0x78#8] } } .uartRx)
      (faultIs (.uartOverrun 0x78#8)) = true := by decide
/-- V-U1, its UART_TX step. -/
theorem test_uart_drain :
    nextHas (agentStep { State.reset with uart := { Uart.reset with txe := false, tdr := 0x41#8 } } .uartTx)
      (fun t => decide (t.uart.output = [0x41#8]) && t.uart.txe) = true := by decide

/-! ### The step -/

/-- V-X1: the ENGINE fetches the illegal word. -/
theorem test_step_illegal :
    nextHas (step (State.reset.withFetchWord 32 0)) (faultIs (.illegalCommand 0#32)) = true := by decide
/-- V-X2, R381: the run of an empty program has ended. -/
theorem test_step_empty : step State.reset = .fault .ended := rfl
/-- R381: after the end no agent steps, though the receiver has a byte to take. -/
theorem test_step_after_end :
    let s := { State.reset with turns := [Agent.uartRx], uart := { Uart.reset with input := [0x78#8] } }
    enabled s .uartRx = true ∧ step s = .fault .ended := ⟨rfl, rfl⟩
/-- V-G1 as the first step after reset. -/
theorem test_step_runs_word :
    nextHas (step (State.reset.withFetchWord 32 0x40000009)) (fun t => decide (t.odr = 0x0200#16)) = true := by decide

/-! ### Witnesses: encoding and the step -/

theorem witness_DecodeOfEncode :
    (Instr.ldv 15#4 0#4 2#2).wellFormed = true ∧ (Instr.dseti 255#8 0xFFFF#16).wellFormed = true := by decide
theorem witness_EncodeOfDecode : decode 0x24FFFFFF#32 = .ok (.dseti 255#8 0xFFFF#16) := by decide
theorem witness_DecodeFollowsOpcodeMap :
    ⟨"STV", 0x11000000#32, 0xFF00FFFC#32, true⟩ ∈ opcodeMap ∧
    RowMatches ⟨"STV", 0x11000000#32, 0xFF00FFFC#32, true⟩ 0x11FF0002#32 := by decide
theorem witness_DecodeOfEncodedBytes : (Instr.stv 15#4 15#4 2#2).wellFormed = true := by decide
theorem witness_StepRunsDecodedCommand :
    let s := { common with prog := [0x54000000#32] }
    s.fault = none ∧ s.cont = .none ∧ s.prog[s.pc]? = some 0x54000000#32 ∧ decode 0x54000000#32 = .ok .lrev ∧
    nextAgent s = some .engine := by decide
/-- An agent offered and enabled; the ENGINE alone enabled; a step; the end of a run. -/
theorem witness_StepFollowsSchedule :
    (let s := { common with turns := [Agent.uartTx], uart := { Uart.reset with txe := false } }
     s.fault = none ∧ s.pc ≤ s.prog.length ∧ ¬Ended s ∧ s.turns = [.uartTx] ∧ enabled s .uartTx = true) ∧
    (let s := { common with prog := [0x54000000#32] }
     s.fault = none ∧ s.pc ≤ s.prog.length ∧ ¬Ended s ∧ s.turns = [] ∧ deviceEnabled s = false ∧
     enabled s .engine = true ∧ nextHas (step s) (fun _ => true) = true) ∧
    (common.fault = none ∧ common.pc ≤ common.prog.length ∧ Ended common) := by
  unfold Ended
  decide
/-- A run of one command. -/
theorem witness_StepFollowsSchedule_run :
    let s := { common with prog := [0x54000000#32] }
    IsRun (runOf s) ∧ EndsAt (runOf s) 1 := by
  refine ⟨runOf_isRun _, by unfold Ended; decide, fun m hm => ?_⟩
  obtain rfl : m = 0 := by omega
  unfold Ended
  decide
theorem witness_IllegalWordFaults :
    let s := { common with prog := [0x10320003#32] }
    s.cont = .none ∧ s.prog[s.pc]? = some 0x10320003#32 ∧ decode 0x10320003#32 = .error .badWidthCode := by decide
/-- V-F22, V-F23, V-F24. -/
theorem witness_IllFormedGroupFaults :
    (let s := { common with prog := [0x24000001#32] }
     s.cont = .none ∧ s.prog[s.pc]? = some 0x24000001#32 ∧ decode 0x24000001#32 = .ok (.dseti 0#8 1#16) ∧
     (inGroup (.dseti 0#8 1#16) = true ↔ s.desc = .none)) ∧
    (let s := { inside (some regCr1) [] none with prog := [0x01100000#32] }
     s.cont = .none ∧ s.prog[s.pc]? = some 0x01100000#32 ∧ decode 0x01100000#32 = .ok (.li 1#4 0#16) ∧
     (inGroup (.li 1#4 0#16) = true ↔ s.desc = .none)) ∧
    (let s := inside (some regCr1) [] none
     s.cont = .none ∧ s.pc = s.prog.length ∧ s.desc ≠ .none) := by decide
theorem witness_FaultsArePrecise :
    nextHas (step { common with prog := [0#32] }) (fun t => decide (t.fault ≠ none)) = true ∧
    { common with fault := some ⟨.illegalCommand 0#32, 0⟩ }.fault ≠ none := by decide

/-! ### Witnesses: operand commands and volatile access -/

theorem witness_OperandCommandResults :
    common.desc = .none ∧ (withX 15#4 0xFFFFFFFF#32).desc = .none ∧
    (withX 15#4 0xFFFFFFFF#32).xAt 15#4 = some 0xFFFFFFFF#32 ∧ common.xAt 15#4 = none := by decide
theorem witness_LoadAddressExpansion : common.desc = .none := by decide
/-- A readable register, a write-only one, and one of 16 bits. -/
theorem witness_LdvLoadsDeviceRegister :
    (let s := withX 2#4 0x48001014#32
     s.desc = .none ∧ accepted s.cfg = true ∧ regOdr ∈ regsOf s.cfg.regtab ∧ DeviceReg regOdr ∧
     widthOfCode 2#2 = some regOdr.decl.width ∧ s.xAt 2#4 = some (addrOf regOdr)) ∧
    (let s := withX 0#4 0x48001018#32
     regBsrr ∈ regsOf s.cfg.regtab ∧ DeviceReg regBsrr ∧ s.xAt 0#4 = some (addrOf regBsrr)) ∧
    (let s := narrow.setX 2#4 0x4000102C#32
     s.desc = .none ∧ accepted s.cfg = true ∧ narrowArr ∈ regsOf s.cfg.regtab ∧ DeviceReg narrowArr ∧
     widthOfCode 1#2 = some narrowArr.decl.width ∧ s.xAt 2#4 = some (addrOf narrowArr)) := by decide
/-- The last backed byte, and the whole word. -/
theorem witness_LdvLoadsUndeclaredAddress :
    (let s := withRam 2#4 0x20000003#32
     s.desc = .none ∧ widthOfCode 0#2 = some .byte ∧ s.xAt 2#4 = some 0x20000003#32 ∧
     backedAt s.cfg 0x20000003#32 = true ∧ (0x20000003#32).toNat % Width.byte.bytes = 0 ∧
     overlapped s.cfg.regtab 0x20000003#32 .byte = none) ∧
    (let s := withRam 2#4 0x20000000#32
     widthOfCode 2#2 = some .word ∧ s.xAt 2#4 = some 0x20000000#32 ∧
     backedAt s.cfg 0x20000000#32 = true ∧ (0x20000000#32).toNat % Width.word.bytes = 0 ∧
     overlapped s.cfg.regtab 0x20000000#32 .word = none) := by decide
theorem witness_StvStoresDeviceRegister :
    (let s := withXs 2#4 0x40013828#32 3#4 0xFF#32
     s.desc = .none ∧ accepted s.cfg = true ∧ regTdr ∈ regsOf s.cfg.regtab ∧ DeviceReg regTdr ∧
     widthOfCode 2#2 = some regTdr.decl.width ∧ regTdr.decl.perm ≠ .ro ∧ (0xFF#32).toNat < 2 ^ regTdr.decl.width.bits ∧
     0xFF#32 &&& reservedMask regTdr = 0#32 ∧ StoreAllowed s regTdr.decl.name 0xFF#32 = true ∧
     s.xAt 2#4 = some (addrOf regTdr) ∧ s.xAt 3#4 = some 0xFF#32) ∧
    (let s := (narrow.setX 2#4 0x4000102C#32).setX 3#4 0xFFFF#32
     s.desc = .none ∧ accepted s.cfg = true ∧ narrowArr ∈ regsOf s.cfg.regtab ∧ DeviceReg narrowArr ∧
     widthOfCode 1#2 = some narrowArr.decl.width ∧ narrowArr.decl.perm ≠ .ro ∧
     (0xFFFF#32).toNat < 2 ^ narrowArr.decl.width.bits ∧ 0xFFFF#32 &&& reservedMask narrowArr = 0#32 ∧
     StoreAllowed s narrowArr.decl.name 0xFFFF#32 = true ∧ s.xAt 2#4 = some (addrOf narrowArr) ∧
     s.xAt 3#4 = some 0xFFFF#32) := by decide
/-- V-X5's order: unwritten; the first address past GPIO's; V-V4; V-V3. -/
theorem witness_LdvFaultOrder :
    (common.desc = .none ∧ widthOfCode 2#2 = some .word ∧ common.xAt 2#4 = none) ∧
    (let s := withX 2#4 0x4800101C#32
     s.xAt 2#4 = some 0x4800101C#32 ∧ backedAt s.cfg 0x4800101C#32 = false) ∧
    (let s := withX 2#4 0x48001015#32
     s.xAt 2#4 = some 0x48001015#32 ∧ widthOfCode 1#2 = some .half ∧ backedAt s.cfg 0x48001015#32 = true ∧
     (0x48001015#32).toNat % Width.half.bytes ≠ 0) ∧
    (let s := withX 2#4 0x48001014#32
     widthOfCode 0#2 = some .byte ∧ backedAt s.cfg 0x48001014#32 = true ∧
     (0x48001014#32).toNat % Width.byte.bytes = 0 ∧ overlapped s.cfg.regtab 0x48001014#32 .byte = some regOdr ∧
     ¬(addrOf regOdr = 0x48001014#32 ∧ regOdr.decl.width = .byte)) := by decide
theorem witness_StvFaultOrder_registers :
    (common.desc = .none ∧ widthOfCode 2#2 = some .word ∧ common.xAt 2#4 = none) ∧
    (let s := withX 2#4 0#32
     s.xAt 2#4 = some 0#32 ∧ s.xAt 3#4 = none) ∧
    (let s := withXs 2#4 0#32 3#4 0x100#32
     widthOfCode 0#2 = some .byte ∧ s.xAt 2#4 = some 0#32 ∧ s.xAt 3#4 = some 0x100#32 ∧
     2 ^ Width.byte.bits ≤ (0x100#32).toNat) := by decide
theorem witness_StvFaultOrder_addresses :
    (let s := withXs 2#4 0x4800101C#32 3#4 0xFF#32
     s.xAt 3#4 = some 0xFF#32 ∧ (0xFF#32).toNat < 2 ^ Width.byte.bits ∧ backedAt s.cfg 0x4800101C#32 = false) ∧
    (let s := withXs 2#4 0x48001015#32 3#4 0xFFFF#32
     s.xAt 3#4 = some 0xFFFF#32 ∧ (0xFFFF#32).toNat < 2 ^ Width.half.bits ∧ backedAt s.cfg 0x48001015#32 = true ∧
     (0x48001015#32).toNat % Width.half.bytes ≠ 0) ∧
    (let s := withRam 2#4 0x20000000#32
     backedAt s.cfg 0x20000000#32 = true ∧ (0x20000000#32).toNat % Width.word.bytes = 0 ∧
     overlapped s.cfg.regtab 0x20000000#32 .word = none) ∧
    (overlapped common.cfg.regtab 0x48001014#32 .half = some regOdr ∧ regOdr.decl.width ≠ .half) ∧
    (overlapped common.cfg.regtab 0x4001381C#32 .word = some regIsr ∧ regIsr.decl.perm = .ro) := by decide
/-- V-V6, V-V11, V-V12, V-V13. -/
theorem witness_StvFaultOrder_guards :
    (overlapped common.cfg.regtab 0x48001014#32 .word = some regOdr ∧ addrOf regOdr = 0x48001014#32 ∧
      regOdr.decl.width = .word ∧ regOdr.decl.perm ≠ .ro ∧ 0x10000#32 &&& reservedMask regOdr ≠ 0#32) ∧
    (overlapped common.cfg.regtab 0x40001000#32 .word = some regCr1 ∧ addrOf regCr1 = 0x40001000#32 ∧
      2#32 &&& reservedMask regCr1 = 0#32 ∧ regCr1.decl.name = .timCr1 ∧ StoreAllowed common .timCr1 2#32 = false) ∧
    (overlapped common.cfg.regtab 0x40013828#32 .word = some regTdr ∧ addrOf regTdr = 0x40013828#32 ∧
      0x141#32 &&& reservedMask regTdr = 0#32 ∧ regTdr.decl.name = .uartTdr ∧
      { common with uart := { Uart.reset with txe := false } }.uart.txe = false ∧
      common.uart.txe = true ∧ (0x141#32).getLsbD 8 = true) := by decide

/-! ### Witnesses: the Register Field Model -/

theorem witness_RegisterReadsReturnValues :
    common.desc = .none ∧ accepted common.cfg = true ∧ resolve common.cfg.regtab 0x00#8 = some regCr1 ∧
    DeviceReg regCr1 ∧ canRead regCr1 = true ∧ fieldAt regCr1 5#8 = some (bitField .uifremap 11 .rw) ∧
    readable (bitField .uifremap 11 .rw).perm = true := by decide
/-- A register with a readable permission and a write-only field. -/
def mixed : Reg := ⟨timBaseDefault, { timSr with fields := [bitField .uif 0 .wo] }⟩
theorem witness_RegisterReadErrors :
    common.desc = .none ∧ resolve common.cfg.regtab 0x04#8 = none ∧ resolve common.cfg.regtab 0xFF#8 = none ∧
    (resolve common.cfg.regtab 0x11#8 = some regBsrr ∧ canRead regBsrr = false) ∧
    (resolve common.cfg.regtab 0x01#8 = some regSr ∧ canRead regSr = true ∧ fieldAt regSr 1#8 = none) ∧
    (let s := { common with cfg := { common.cfg with regtab := [⟨0#4, .tim, timBaseDefault, [mixed.decl]⟩] } }
     s.desc = .none ∧ resolve s.cfg.regtab 0x01#8 = some mixed ∧ canRead mixed = true ∧
     fieldAt mixed 0#8 = some (bitField .uif 0 .wo) ∧ readable (bitField .uif 0 .wo).perm = false) := by decide
theorem witness_DbeginOpensGroup :
    common.desc = .none ∧ resolve common.cfg.regtab 0x22#8 = some regTdr ∧ resolve common.cfg.regtab 0x23#8 = none := by
  decide
/-- The largest value that fits, for each staging command. -/
theorem witness_StagingStages :
    let s := (inside (some regArr) [] none).setX 1#4 0xFFFF#32
    s.desc = .opened (some regArr) [] none ∧ fieldAt regArr 0#8 = some ⟨.arr, 0, 15, .rw⟩ ∧
    writable Perm.rw = true ∧ (0xFFFF#32).toNat < 2 ^ (15 - 0 + 1) ∧ s.xAt 1#4 = some 0xFFFF#32 ∧
    0xFFFF#32 &&& declaredMask regArr &&& ~~~writableMask regArr = 0#32 ∧ 0xFFFF#32 &&& reservedMask regArr = 0#32 ∧
    (0xFFFF#32).toNat < 2 ^ regArr.decl.width.bits := by decide
theorem witness_StagingStages_commands :
    Stages ((inside (some regArr) [] none).setX 1#4 0xFFFF#32) (.dset 1#4 0#8) 0#8 (.set · 0xFFFF#32) 0xFFFF#32 ∧
    Stages (inside (some regArr) [] none) (.dseti 0#8 0xFFFF#16) 0#8 (.set · ((0xFFFF#16).setWidth 32))
      ((0xFFFF#16).setWidth 32) ∧
    Stages ((inside (some regArr) [] none).setX 1#4 0xFFFF#32) (.dxor 1#4 0#8) 0#8 (.xor · 0xFFFF#32) 0xFFFF#32 :=
  ⟨.dset _ _ _ (by decide), .dseti _ _, .dxor _ _ _ (by decide)⟩
/-- V-F14, V-F10, an unwritable field, V-F25's least value too wide, V-F8, V-F26, the least value too wide for 16 bits. -/
theorem witness_StagingPoisons :
    ((inside (some regCr1) [] (some .unknownField)).desc = .opened (some regCr1) [] (some .unknownField)) ∧
    (fieldAt regSr 1#8 = none) ∧
    (fieldAt regIsr 0#8 = some (bitField .ore 3 .ro) ∧ writable Perm.ro = false) ∧
    (fieldAt regArr 0#8 = some ⟨.arr, 0, 15, .rw⟩ ∧ writable Perm.rw = true ∧ 2 ^ (15 - 0 + 1) ≤ (0x10000#32).toNat) ∧
    (8#32 &&& declaredMask regIsr &&& ~~~writableMask regIsr ≠ 0#32) ∧
    (0x10000#32 &&& declaredMask regOdr &&& ~~~writableMask regOdr = 0#32 ∧ 0x10000#32 &&& reservedMask regOdr ≠ 0#32) ∧
    (let s := (inside (some narrowPsc) [] none).setX 1#4 0x10000#32
     s.desc = .opened (some narrowPsc) [] none ∧ s.xAt 1#4 = some 0x10000#32 ∧
     0x10000#32 &&& declaredMask narrowPsc &&& ~~~writableMask narrowPsc = 0#32 ∧
     0x10000#32 &&& reservedMask narrowPsc = 0#32 ∧ 2 ^ narrowPsc.decl.width.bits ≤ (0x10000#32).toNat) ∧
    (inside none [] (some .unknownRegister)).xAt 1#4 = none := by decide
theorem opsLegal_arr : OpsLegal regArr [.set ⟨.arr, 0, 15, .rw⟩ 0xFFFF#32] := by
  intro o ho
  rw [List.mem_singleton.1 ho]
  decide
theorem witness_WriteStoresOnce :
    let ops := [StagedOp.set ⟨.arr, 0, 15, .rw⟩ 0xFFFF#32]
    let s := inside (some regArr) ops none
    (s.desc = .opened (some regArr) ops none ∧ accepted s.cfg = true ∧ regArr ∈ regsOf s.cfg.regtab ∧
      DeviceReg regArr ∧ canWrite regArr = true ∧
      StoreAllowed s regArr.decl.name (applyOps regArr ops regArr.decl.wdef) = true) ∧ OpsLegal regArr ops :=
  ⟨by decide, opsLegal_arr⟩
theorem opsLegal_udis : OpsLegal regCr1 [.set (bitField .udis 1 .rw) 1#32] := by
  intro o ho
  rw [List.mem_singleton.1 ho]
  decide
theorem opsLegal_tdr : OpsLegal regTdr [.set ⟨.tdr, 0, 8, .wo⟩ 0x100#32] := by
  intro o ho
  rw [List.mem_singleton.1 ho]
  decide
/-- The guard of CR1, and both guards of TDR. -/
theorem witness_WriteStoresOnce_guards :
    (let ops := [StagedOp.set (bitField .udis 1 .rw) 1#32]
     let s := inside (some regCr1) ops none
     (s.desc = .opened (some regCr1) ops none ∧ accepted s.cfg = true ∧ regCr1 ∈ regsOf s.cfg.regtab ∧
       DeviceReg regCr1 ∧ canWrite regCr1 = true ∧
       guardFault s .timCr1 (applyOps regCr1 ops regCr1.decl.wdef) = some (.unmodelledDeviceMode .timCr1 2#32)) ∧
     OpsLegal regCr1 ops) ∧
    (let ops := [StagedOp.set ⟨.tdr, 0, 8, .wo⟩ 0x100#32]
     let s := inside (some regTdr) ops none
     (s.desc = .opened (some regTdr) ops none ∧ regTdr ∈ regsOf s.cfg.regtab ∧ DeviceReg regTdr ∧
       canWrite regTdr = true ∧
       guardFault s .uartTdr (applyOps regTdr ops regTdr.decl.wdef) = some (.unmodelledDeviceMode .uartTdr 0x100#32) ∧
       guardFault { s with uart := { s.uart with txe := false } } .uartTdr (applyOps regTdr ops regTdr.decl.wdef) =
         some (.txOverwrite 0x100#32)) ∧
     OpsLegal regTdr ops) :=
  ⟨⟨by decide, opsLegal_udis⟩, ⟨by decide, opsLegal_tdr⟩⟩
theorem witness_ModifyLoadsThenStores :
    let ops := [StagedOp.set ⟨.arr, 0, 15, .rw⟩ 0xFFFF#32]
    let s := inside (some regArr) ops none
    (s.fault = none ∧ s.desc = .opened (some regArr) ops none ∧ accepted s.cfg = true ∧
      regArr ∈ regsOf s.cfg.regtab ∧ DeviceReg regArr ∧ canRead regArr = true ∧ canWrite regArr = true) ∧
    OpsLegal regArr ops ∧
    ∀ v u, LoadRule s regArr v u →
      StoreAllowed u regArr.decl.name (applyOps regArr ops (modifyBase regArr v)) = true :=
  ⟨by decide, opsLegal_arr, fun _ _ _ => rfl⟩
/-- The guard of CR1, whatever the load gave. -/
theorem witness_ModifyLoadsThenStores_guard :
    let ops := [StagedOp.set (bitField .udis 1 .rw) 1#32]
    let s := inside (some regCr1) ops none
    (s.fault = none ∧ s.desc = .opened (some regCr1) ops none ∧ accepted s.cfg = true ∧
      regCr1 ∈ regsOf s.cfg.regtab ∧ DeviceReg regCr1 ∧ canRead regCr1 = true ∧ canWrite regCr1 = true) ∧
    OpsLegal regCr1 ops ∧
    ∀ v u, LoadRule s regCr1 v u →
      ∃ k, guardFault u regCr1.decl.name (applyOps regCr1 ops (modifyBase regCr1 v)) = some k := by
  refine ⟨by decide, opsLegal_udis, fun v u _ => ⟨_, if_pos ?_⟩⟩
  simp [applyOps, applyOp, insertField, bitField]
/-- V-F13, V-F11, V-F12, and a poisoned group on a readable and writable register. -/
theorem witness_GroupFailuresReport :
    ((inside none [] (some .unknownRegister)).desc = .opened none [] (some .unknownRegister)) ∧
    (canWrite regIsr = false ∧ canRead regBsrr = false) ∧
    ((inside (some regCr1) [] (some .reservedBit)).desc = .opened (some regCr1) [] (some .reservedBit) ∧
      canWrite regCr1 = true ∧ canRead regCr1 = true) := by decide
theorem witness_StoredValuesRespectFields :
    (regLegal regArr = true ∧
      fieldMask ⟨.arr, 0, 15, .rw⟩ &&& ~~~0xFFFF#32 = 0#32 ∧ 0xFFFF#32 &&& reservedMask regArr = 0#32 ∧
      0xFFFF#32 &&& ~~~widthMask regArr = 0#32) ∧ OpsLegal regArr [.set ⟨.arr, 0, 15, .rw⟩ 0xFFFF#32] :=
  ⟨by decide, opsLegal_arr⟩

/-! ### Witnesses: the drivers -/

theorem witness_StartCommandsStartCount :
    let s := withX 1#4 0xFFFF#32
    Ready s ∧ accepted s.cfg = true ∧ ServesTimer s.cfg.regtab timBaseDefault ∧ ModesClear s.tim ∧
    (0xFFFF#32).toNat ≤ 0xFFFF ∧ s.xAt 1#4 = some 0xFFFF#32 ∧ 0xFFFF#32 = (0xFFFF#16).setWidth 32 := by decide
theorem witness_DriverOperandErrors :
    (let s := withX 1#4 0x10000#32
     s.desc = .none ∧ ServesTimer s.cfg.regtab timBaseDefault ∧ s.xAt 1#4 = some 0x10000#32 ∧
     0xFFFF < (0x10000#32).toNat) ∧
    (common.desc = .none ∧ common.xAt 1#4 = none) ∧
    ((withX 1#4 0x100#32).xAt 1#4 = some 0x100#32 ∧ 0xFF < (0x100#32).toNat) := by decide
theorem witness_TpollWaitsForUpdate :
    Ready common ∧ accepted common.cfg = true ∧ ServesTimer common.cfg.regtab timBaseDefault ∧
    common.tim.uif = false ∧ { Timer.reset with uif := true }.uif = true ∧
    { common with tim := { Timer.reset with uif := true } }.tim.uif = true := by decide
/-- A TPOLL with one tick to come, in a run that ends. -/
def pollRun : Nat → State := runOf { common with
  prog := [0x32000000#32], cont := .pollUif false, tim := { Timer.reset with cen := true, opm := true, arr := 1#16 },
  turns := [.timer, .engine] }
theorem witness_TpollWaitsForUpdate_fair :
    IsRun pollRun ∧ WeaklyFair pollRun ∧ accepted (pollRun 0).cfg = true ∧
    ServesTimer (pollRun 0).cfg.regtab timBaseDefault ∧ (pollRun 0).fault = none ∧
    (pollRun 0).cont = .pollUif false ∧ (pollRun 0).tim.cen = true ∧
    (pollRun 0).tim.cnt.toNat < (pollRun 0).tim.arr.toNat :=
  ⟨runOf_isRun _, runOf_fair (n := 2) (by unfold Ended; decide), by decide, by decide, by decide, by decide, by decide,
    by decide⟩
theorem witness_TackClearsUpdate :
    Ready common ∧ accepted common.cfg = true ∧ ServesTimer common.cfg.regtab timBaseDefault := by decide
theorem witness_ZeroDelayCompletes :
    common.desc = .none ∧
    (let s := withX 1#4 0#32
     s.desc = .none ∧ ServesTimer s.cfg.regtab timBaseDefault ∧ s.xAt 1#4 = some 0#32) := by decide
/-- V-T8's order of ticks and polls; the least delay; the greatest. -/
theorem witness_DelayTakesItsTicks :
    (let s := withX 1#4 3#32
     Ready s ∧ accepted s.cfg = true ∧ ServesTimer s.cfg.regtab timBaseDefault ∧ ModesClear s.tim ∧
     s.tim.uif = false ∧ (3#32).toNat ≤ 0xFFFF ∧ s.tim.cnt.toNat < (3#32).toNat ∧ s.xAt 1#4 = some 3#32 ∧
     (∀ a ∈ [Agent.timer, .engine, .timer, .engine], a = .engine ∨ a = .timer) ∧
     s.tim.cnt.toNat + [Agent.timer, .engine, .timer, .engine].count .timer + 1 = (3#32).toNat) ∧
    (let s := withX 1#4 1#32
     s.tim.cnt.toNat < (1#32).toNat ∧ s.xAt 1#4 = some 1#32 ∧
     s.tim.cnt.toNat + ([] : List Agent).count .timer + 1 = (1#32).toNat) ∧
    (let s := { common with tim := { Timer.reset with cnt := 0xFFFE#16 } }
     Ready s ∧ ModesClear s.tim ∧ s.tim.uif = false ∧ (0xFFFF#32).toNat ≤ 0xFFFF ∧
     s.tim.cnt.toNat < (0xFFFF#32).toNat ∧ 0xFFFF#32 = (0xFFFF#16).setWidth 32 ∧
     s.tim.cnt.toNat + [Agent.engine].count .timer + 1 = (0xFFFF#32).toNat) := by decide
theorem witness_StaleFlagDelayReturnsAtOnce :
    let s := { withX 1#4 0xFFFF#32 with tim := { Timer.reset with uif := true } }
    Ready s ∧ accepted s.cfg = true ∧ ServesTimer s.cfg.regtab timBaseDefault ∧ ModesClear s.tim ∧
    s.tim.uif = true ∧ 0xFFFF#32 ≠ 0#32 ∧ (0xFFFF#32).toNat ≤ 0xFFFF ∧ s.xAt 1#4 = some 0xFFFF#32 ∧
    1#32 ≠ 0#32 ∧ (1#32).toNat ≤ 0xFFFF ∧ 1#32 = (1#16).setWidth 32 := by decide
theorem witness_PinCommandsSetLevel :
    common.desc = .none ∧ accepted common.cfg = true ∧ ServesGpio common.cfg.regtab gpioBase ∧
    (15#16).toNat < 16 ∧ (0#16).toNat < 16 := by decide
theorem witness_PinOutOfRangeReports : common.desc = .none ∧ 16 ≤ (16#16).toNat ∧ 16 ≤ (0xFFFF#16).toNat := by decide
theorem witness_PinsAreIndependent :
    common.desc = .none ∧ accepted common.cfg = true ∧ ServesGpio common.cfg.regtab gpioBase := by decide
theorem witness_SendCommandsStoreByte :
    let s := withX 1#4 0xFF#32
    Ready s ∧ accepted s.cfg = true ∧ ServesUart s.cfg.regtab uartBaseDefault ∧ s.uart.txe = true ∧
    s.xAt 1#4 = some ((0xFF#8).setWidth 32) := by decide
theorem witness_SendWaitsForEmpty :
    let s := { withX 1#4 0x41#32 with uart := { Uart.reset with txe := false }, lb := [0x41#8, 0x42#8] }
    Ready s ∧ accepted s.cfg = true ∧ ServesUart s.cfg.regtab uartBaseDefault ∧ s.uart.txe = false ∧
    s.xAt 1#4 = some ((0x41#8).setWidth 32) ∧ s.lb = 0x41#8 :: [0x42#8] := by decide
/-- The state after a poll that goes on with `c`, in its run. -/
theorem stepped_of_poll {s t u : State} {e : Except Stop State} (h : step s = commit u e) (he : e = .ok t) :
    stepped s = t := by
  rw [stepped, h, he]
  rfl
/-- A send that polls with the transmitter full, in a run that ends. -/
def sendState : State := { common with
  prog := [0x51000041#32], cont := .sendPoll 0x41#8 [], uart := { Uart.reset with txe := false },
  turns := [.uartTx, .engine, .engine, .uartTx] }
/-- The load of ISR that a state's next poll makes. -/
def isrLoad (s : State) : BusEvent := .load 0x4001381C#32 .word (isrValue s.uart (draw s.draws))
def sendPolled : State := { takeTurn (stepped sendState) with
  draws := 1, cont := .sendStore 0x41#8 [], trace := [isrLoad (stepped sendState)] }
theorem sendState_run : runOf sendState 2 = sendPolled :=
  stepped_of_poll (u := takeTurn (stepped sendState)) (e := sendPoll (takeTurn (stepped sendState)) 0x41#8 []) rfl
    (sendPoll_profile (by decide) (base := uartBaseDefault) (by decide) 0x41#8 [])
theorem witness_SendWaitsForEmpty_fair :
    IsRun (runOf sendState) ∧ WeaklyFair (runOf sendState) ∧ accepted sendState.cfg = true ∧
    ServesUart sendState.cfg.regtab uartBaseDefault ∧ sendState.fault = none ∧ sendState.cont = .sendPoll 0x41#8 [] := by
  refine ⟨runOf_isRun _, runOf_fair (n := 4) ?_, by decide, by decide, by decide, by decide⟩
  show Ended (stepped (stepped (runOf sendState 2)))
  rw [sendState_run, Ended]
  decide
theorem witness_UrecvReceivesByte :
    Ready common ∧ accepted common.cfg = true ∧ ServesUart common.cfg.regtab uartBaseDefault ∧
    common.uart.rxne = false ∧ { common with uart := { Uart.reset with rxne := true } }.uart.rxne = true ∧
    { common with uart := { Uart.reset with input := [0x68#8] } }.uart.input = 0x68#8 :: [] := by decide
/-- A receive that polls with a byte to come, in a run that ends. -/
def recvState : State := { common with
  prog := [0x52100000#32], cont := .recvPoll (.byte 1#4) none, uart := { Uart.reset with input := [0x68#8] },
  turns := [.uartRx, .engine, .engine] }
def recvPolled : State := { takeTurn (stepped recvState) with
  draws := 1, cont := .recvLoad (.byte 1#4), trace := [isrLoad (stepped recvState)] }
theorem recvState_run : runOf recvState 2 = recvPolled :=
  stepped_of_poll (u := takeTurn (stepped recvState)) (e := recvPoll (takeTurn (stepped recvState)) (.byte 1#4) none)
    rfl (recvPoll_profile (by decide) (base := uartBaseDefault) (by decide) (.byte 1#4) none)
theorem witness_UrecvReceivesByte_fair :
    IsRun (runOf recvState) ∧ WeaklyFair (runOf recvState) ∧ accepted recvState.cfg = true ∧
    ServesUart recvState.cfg.regtab uartBaseDefault ∧ recvState.fault = none ∧
    recvState.cont = .recvPoll (.byte 1#4) none ∧ recvState.uart.input ≠ [] := by
  refine ⟨runOf_isRun _, runOf_fair (n := 3) ?_, by decide, by decide, by decide, by decide, by decide⟩
  show Ended (stepped (runOf recvState 2))
  rw [recvState_run, Ended]
  decide
/-- V-U5's empty line, and V-U7's line that overflows. -/
theorem witness_UlineFramesLine :
    (let s := { common with uart := { Uart.reset with input := [0x0A#8] } }
     Ready s ∧ accepted s.cfg = true ∧ ServesUart s.cfg.regtab uartBaseDefault ∧ s.uart.rxne = false ∧
     s.uart.input = [] ++ 0x0A#8 :: [] ∧ 0x0A#8 ∉ ([] : List Byte)) ∧
    (let s := { common with
       cfg := { common.cfg with capacity := 1 }, uart := { Uart.reset with input := [0x61#8, 0x62#8, 0x0A#8, 0x63#8] } }
     Ready s ∧ accepted s.cfg = true ∧ ServesUart s.cfg.regtab uartBaseDefault ∧ s.uart.rxne = false ∧
     s.uart.input = [0x61#8, 0x62#8] ++ 0x0A#8 :: [0x63#8] ∧ 0x0A#8 ∉ [0x61#8, 0x62#8]) := by decide
/-- The echo of an empty line: ULINE's poll, its load, LREV, USENDL, USENDI's poll, its store, the drain. -/
def echoState : State := { common with
  prog := (expand (.echoline 1#4)).map encode, uart := { Uart.reset with input := [0x0A#8] },
  turns := [.uartRx, .engine, .engine, .engine, .engine, .engine, .engine, .uartTx] }
def echoPolled : State := { takeTurn (stepped echoState) with
  draws := 1, cont := .recvLoad (.line 1#4 0), trace := [isrLoad (stepped echoState)] }
theorem echoState_line : runOf echoState 2 = echoPolled :=
  stepped_of_poll (u := takeTurn (stepped echoState))
    (e := recvPoll { takeTurn (stepped echoState) with lb := [] } (.line 1#4 0) none) rfl
    (recvPoll_profile (by decide) (base := uartBaseDefault) (by decide) (.line 1#4 0) none)
/-- After the line's end, LREV and USENDL. -/
def echoHeld : State := stepped (stepped (stepped echoPolled))
def echoSending : State := { takeTurn echoHeld with
  draws := 2, cont := .sendStore 0x0A#8 [], trace := echoHeld.trace ++ [isrLoad echoHeld] }
theorem echoState_send : runOf echoState 6 = echoSending := by
  have h : runOf echoState 6 = stepped (stepped (stepped (stepped (runOf echoState 2)))) := rfl
  rw [h, echoState_line]
  exact stepped_of_poll (u := takeTurn echoHeld) (e := sendPoll (takeTurn echoHeld) 0x0A#8 []) (by rfl)
    (sendPoll_profile (by decide) (base := uartBaseDefault) (by decide) 0x0A#8 [])
theorem witness_UlineFramesLine_echo :
    IsRun (runOf echoState) ∧ EndsAt (runOf echoState) 8 ∧ Ready echoState ∧ echoState.cont = .none ∧
    accepted echoState.cfg = true ∧ ServesUart echoState.cfg.regtab uartBaseDefault ∧
    echoState.prog.drop echoState.pc = (expand (.echoline 1#4)).map encode ∧ echoState.uart.txe = true ∧
    echoState.uart.rxne = false ∧ echoState.uart.input = [] ++ 0x0A#8 :: [] := by
  refine ⟨runOf_isRun _, ⟨?_, ?_⟩, by decide⟩
  · show Ended (stepped (stepped (runOf echoState 6)))
    rw [echoState_send, Ended]
    decide
  · intro m hm he
    have hs := runOf_stays (ended_of_Ended he) (7 - m)
    rw [show m + (7 - m) = 7 by omega] at hs
    rw [← hs, show runOf echoState 7 = stepped echoSending from congrArg stepped echoState_send, Ended] at he
    revert he
    decide
theorem witness_LrevReverses : common.desc = .none ∧ common.lb.length ≤ 1 := by decide
theorem witness_UsendlSendsBuffer :
    (let s := { common with uart := { Uart.reset with txe := false } }
     s.desc = .none ∧ s.lb = []) ∧
    (let s := { common with lb := [0x61#8, 0x62#8] }
     Ready s ∧ accepted s.cfg = true ∧ ServesUart s.cfg.regtab uartBaseDefault ∧ s.uart.txe = true ∧
     s.lb = 0x61#8 :: [0x62#8]) := by decide
theorem witness_FirstStepsMakeOneTransaction :
    (let s := { withXs 1#4 0xFFFF#32 2#4 0xFF#32 with lb := [0x61#8] }
     accepted s.cfg = true ∧ s.desc = .none ∧ ServesTimer s.cfg.regtab timBaseDefault ∧
     ServesUart s.cfg.regtab uartBaseDefault ∧ (0xFFFF#32).toNat ≤ 0xFFFF ∧ 0xFFFF#32 ≠ 0#32 ∧
     s.xAt 1#4 = some 0xFFFF#32 ∧ 0xFFFF#32 = (0xFFFF#16).setWidth 32 ∧ s.xAt 2#4 = some ((0xFF#8).setWidth 32) ∧
     s.lb = 0x61#8 :: []) ∧
    (let s := inside (some regCr1) [] none
     accepted s.cfg = true ∧ s.desc = .opened (some regCr1) [] none ∧ regCr1 ∈ regsOf s.cfg.regtab ∧
     DeviceReg regCr1 ∧ canRead regCr1 = true ∧ canWrite regCr1 = true) := by decide

/-! ### Witnesses: devices and frames -/

/-- The last tick of a period, a count at the period, and the ticks before the last. -/
theorem witness_TimerTickCounts :
    (let s := { common with tim := { Timer.reset with cen := true, arr := 5#16, cnt := 4#16 } }
     enabled s .timer = true ∧ s.tim.cnt.toNat + 1 = s.tim.arr.toNat) ∧
    (let s := { common with tim := { Timer.reset with cen := true, arr := 5#16, cnt := 5#16 } }
     enabled s .timer = true ∧ s.tim.arr.toNat ≤ s.tim.cnt.toNat) ∧
    (let s := { common with tim := { Timer.reset with cen := true, arr := 0xFFFF#16 } }
     enabled s .timer = true ∧ s.tim.cnt.toNat + 0xFFFE < s.tim.arr.toNat) := by decide
theorem witness_UartAgentsMoveBytes :
    enabled { common with uart := { Uart.reset with txe := false } } .uartTx = true ∧
    (let s := { common with uart := { Uart.reset with input := [0x78#8] } }
     s.uart.input = 0x78#8 :: [] ∧ s.uart.rxne = false) ∧
    (let s := { common with uart := { Uart.reset with rxne := true, input := [0x78#8] } }
     s.uart.input = 0x78#8 :: [] ∧ s.uart.rxne = true ∧ s.cfg.rxPaced = true) := by decide
theorem witness_BsrrStorePerPin : 15 < 16 ∧ (0#32).getLsbD 15 = false ∧ (0#32).getLsbD (15 + 16) = false := by decide
theorem witness_CommandStepFrame :
    nextHas (exec (.li 15#4 1#16) common) (fun _ => true) = true ∧ destOf (.li 15#4 1#16) ≠ some 14#4 := by decide
theorem witness_NoTransactionFrame :
    (nextHas (exec (.dbegin 0x11#8) common) (fun _ => true) = true ∧ keepsStatus (.dbegin 0x11#8) = true) ∧
    nextHas (exec .lrev common) (fun _ => true) = true ∧ nextHas (exec (.li 0#4 0#16) common) (fun _ => true) = true := by
  decide
theorem witness_LoadStepFrame :
    nextHas (exec .tpoll common) (fun t => decide (t.trace.length = 1)) = true ∧
    nextHas (exec (.ldv 3#4 2#4 2#2) { withX 2#4 0x40013824#32 with uart := { Uart.reset with rxne := true } })
      (fun t => !t.uart.rxne) = true := by decide
/-- A step that stores, and one that faults. -/
theorem witness_StoreStepFrame :
    nextHas (exec (.pon 0#16) common) (fun t => decide (t.trace.length = 1)) = true ∧
    nextHas (exec (.stv 1#4 2#4 2#2) common) (fun t => decide (t.fault ≠ none)) = true := by decide
theorem witness_AgentsKeepToTheirState :
    nextHas (agentStep { common with tim := { Timer.reset with cen := true } } .timer) (fun _ => true) = true ∧
    nextHas (agentStep { common with uart := { Uart.reset with txe := false } } .uartTx) (fun _ => true) = true ∧
    nextHas (agentStep { common with uart := { Uart.reset with input := [0x78#8] } } .uartRx) (fun _ => true) = true ∧
    nextHas (agentStep { common with prog := [0x54000000#32] } .engine) (fun _ => true) = true := by decide
theorem witness_HistoryOnlyGrows :
    nextHas (step { common with prog := [0x40000009#32] }) (fun t => decide (t.trace.length = 1)) = true := by decide
theorem witness_PinsChangeOnlyByStores :
    nextHas (step { common with prog := [0x40000009#32] }) (fun t => decide (t.odr ≠ common.odr)) = true := by decide
theorem witness_InvalidFieldErrorTouchesNothing :
    nextHas (exec (.pon 16#16) common)
      (fun t => decide (t.pc = common.pc + 1) && decide (t.status.extractLsb' 0 8 = 1#8)) = true ∧
    keepsStatus (.pon 16#16) = false := by decide
theorem witness_RereadingReturnsSameValue :
    common.desc = .none ∧ accepted common.cfg = true ∧
    (resolve common.cfg.regtab 0x10#8 = some regOdr ∧ DeviceReg regOdr ∧ canRead regOdr = true ∧
      regOdr.decl.name ≠ .uartRdr ∧ regOdr.decl.name ≠ .gpioBsrr ∧ regOdr.decl.name ≠ .uartTdr ∧
      regOdr.decl.name ≠ .uartIsr) ∧
    (resolve common.cfg.regtab 0x20#8 = some regIsr ∧ DeviceReg regIsr ∧ canRead regIsr = true) ∧ 1#4 ≠ 2#4 := by decide

/-! ### Witnesses: the whole machine -/

/-- A launch as the host gives it. -/
def launchOf (c : Params) : Launch :=
  ⟨c, [0x53100000#32], Vector.replicate 16 none, [0x0A#8], false, 0#16, 0#16, 0#16, 0#8, 0#8, []⟩
theorem witness_LaunchMeetsPremises :
    (State.launch (launchOf common.cfg)).isSome = true ∧
    accepted (launchOf { common.cfg with capacity := 0 }).cfg = false := by decide
/-- A state part-way through MODIFY that has the invariant. -/
theorem witness_invariant :
    Inv { common with prog := [0x28000000#32], cont := .modifyStore regCr1 [] 0#32 .group } where
  pc_le := by decide
  cont_pc := by decide
  cont_desc := by decide
  status := by decide
  desc := trivial
  cont := ⟨by decide, fun _ => ⟨by decide, by decide, fun _ h => by cases h⟩⟩
  send := fun _ _ _ _ _ h => by cases h
  receive := fun _ _ _ _ h => by cases h
  modify := fun _ _ _ _ _ _ _ h => by
    cases h
    exact ⟨by decide, by decide, fun _ h => by cases h⟩
  lb := by decide
  kept := fun _ _ h => by cases h
  modes := by decide
  ore := by decide
  rdr := by decide
  trace := fun _ h => by cases h
  fault := fun _ h => by cases h
theorem witness_StepKeepsInvariant :
    nextHas (step { common with prog := [0x28000000#32], cont := .modifyStore regCr1 [] 0#32 .group })
      (fun t => decide (t.pc = 1)) = true := by decide
/-- A state between commands that has the invariant, for the witnesses below. -/
theorem inv_between_commands {s : State}
    (h : s.pc = 0 ∧ s.cont = .none ∧ s.desc = .none ∧ s.status = 0#32 ∧ s.lb = [] ∧ s.trace = [] ∧ s.fault = none)
    (hm : ModesClear s.tim) (hu : s.uart.ore = false ∧ s.uart.rdr.getLsbD 8 = false) : Inv s := by
  obtain ⟨h1, h2, h3, h4, h5, h6, h7⟩ := h
  refine ⟨by omega, by simp [h2], by simp [h2], by rw [h4]; decide, by rw [h3]; exact trivial,
    by rw [h2]; exact trivial, by simp [h2], by simp [h2], by simp [h2], by simp [h5],
    by simp [h2], hm, hu.1, hu.2, by simp [h6],
    by simp [h7]⟩
/-- `common` with a one-command program that reads X2 and X3, the transmitter empty or not. -/
def rawState (w0 v2 v3 : Word) (txe : Bool) : State :=
  { withXs 2#4 v2 3#4 v3 with prog := [w0], uart := { Uart.reset with txe := txe }, turns := [.engine] }
theorem witness_BusFaultsComeFromRawAccess_invariant (w0 v2 v3 : Word) (txe : Bool) : Inv (rawState w0 v2 v3 txe) :=
  inv_between_commands ⟨rfl, rfl, rfl, rfl, rfl, rfl, rfl⟩ ⟨rfl, rfl, rfl, rfl⟩ ⟨rfl, by show (0#9).getLsbD 8 = false; decide⟩
/-- Kinds 1, 2, 3 and 5 at an LDV and three STV. -/
theorem witness_BusFaultsComeFromRawAccess :
    (common.cfg.regtab = profile timBaseDefault uartBaseDefault ∧ accepted common.cfg = true) ∧
    nextHas (step (rawState 0x10320002#32 0x60000000#32 0#32 true))
      (faultIs (.hardFault 0x60000000#32 .word .load false)) = true ∧
    nextHas (step (rawState 0x11320002#32 0x4001381C#32 0#32 true))
      (faultIs (.unmodelledAccess 0x4001381C#32 .word .store)) = true ∧
    nextHas (step (rawState 0x11320002#32 0x48001014#32 0x10000#32 true))
      (faultIs (.reservedWrite 0x48001014#32 0x10000#32)) = true ∧
    nextHas (step (rawState 0x11320002#32 0x40013828#32 0x41#32 false)) (faultIs (.txOverwrite 0x41#32)) = true := by
  decide
/-- Kind 6. -/
theorem witness_BusFaultsComeFromRawAccess_overrun :
    let s := { State.reset with
      prog := [0x54000000#32], turns := [Agent.uartRx], uart := { Uart.reset with rxne := true, input := [0x78#8] } }
    Inv s ∧ accepted s.cfg = true ∧ s.cfg.regtab = profile timBaseDefault uartBaseDefault ∧
    nextHas (step s) (faultIs (.uartOverrun 0x78#8)) = true :=
  ⟨inv_between_commands ⟨rfl, rfl, rfl, rfl, rfl, rfl, rfl⟩ ⟨rfl, rfl, rfl, rfl⟩
    ⟨rfl, by show (0#9).getLsbD 8 = false; decide⟩, by decide, by decide, by decide⟩

end Sys2Proof.Tests
end

/-! ### Loads and stores of a device register (20_memory.md R92 to R98) -/

namespace Sys2Proof.Machine

open Sys2Proof.Config

theorem Width.bits_le (n : Width) : n.bits ≤ 32 := by cases n <;> decide

/-- Nothing of a value lies above its low `n` bits exactly when it is below `2 ^ n`. -/
theorem and_not_ones_eq_zero (n : Nat) (v : Word) : v &&& ~~~ones n = 0#32 ↔ v.toNat < 2 ^ n := by
  constructor
  · intro h
    refine Nat.lt_pow_two_of_testBit _ fun i hi => ?_
    by_cases h32 : i < 32
    · have hb := congrArg (BitVec.getLsbD · i) h
      simp only [BitVec.getLsbD_and, BitVec.getLsbD_not, ones_bit h32, h32, Nat.not_lt.2 hi] at hb
      exact (by simpa using hb : v.getLsbD i = false)
    · exact BitVec.getLsbD_of_ge v i (by omega)
  · intro h
    refine BitVec.eq_of_getLsbD_eq fun i hi => ?_
    simp only [BitVec.getLsbD_and, BitVec.getLsbD_not, ones_bit hi, hi, decide_true, Bool.true_and,
      BitVec.getLsbD_zero]
    by_cases hin : i < n
    · simp [hin]
    · have hv : v.getLsbD i = false :=
        Nat.testBit_lt_two_pow (lt_of_lt_of_le h (Nat.pow_le_pow_right (by decide) (by omega)))
      simp [hv]

/-- A value has no bit outside a register of W bits exactly when it is below `2 ^ W` (R14, R84). -/
theorem within_width_iff {r : Reg} {v : Word} : v &&& ~~~widthMask r = 0#32 ↔ v.toNat < 2 ^ r.decl.width.bits :=
  and_not_ones_eq_zero _ v

/-- A word cut to W bits is below `2 ^ W`. -/
theorem and_widthMask_lt (r : Reg) (v : Word) : (v &&& widthMask r).toNat < 2 ^ r.decl.width.bits :=
  within_width_iff.1 (by rw [BitVec.and_assoc, BitVec.and_not_self]; exact BitVec.and_zero)

/-- A register shows a word of value `n` as `ShowsNumber` says, in its own width (log entry 23). -/
theorem shown_rule (s : State) (r : Reg) {w : Word} {n : Nat} (hw : w.toNat = n) :
    ∃ v u, (Except.ok (shown s r w) : Except Stop (Word × State)) = .ok (v, u) ∧ v.toNat < 2 ^ r.decl.width.bits ∧
      ShowsNumber s r n v u := by
  subst hw
  unfold shown ShowsNumber
  by_cases h : w.toNat < 2 ^ r.decl.width.bits
  · simp only [within_width_iff.2 h, h, if_true]
    exact ⟨_, _, rfl, h, rfl, rfl⟩
  · simp only [mt within_width_iff.1 h, h, if_false]
    exact ⟨_, _, rfl, and_widthMask_lt r _, rfl⟩

/-- The word CR1 shows is the number it holds (R92). -/
theorem cr1Value_toNat (t : Timer) : (cr1Value t).toNat = cr1Number t := by
  have bits : ∀ a b c d e f : Bool,
      (flagAt a 0 ||| flagAt b 1 ||| flagAt c 2 ||| flagAt d 3 ||| flagAt e 7 ||| flagAt f 11).toNat =
        a.toNat + 2 * b.toNat + 4 * c.toNat + 8 * d.toNat + 128 * e.toNat + 2048 * f.toNat := by decide
  exact bits _ _ _ _ _ _

theorem srValue_toNat (t : Timer) : (srValue t).toNat = t.uif.toNat := by
  simp only [srValue]
  cases t.uif <;> rfl

/-- A bit every width has survives the cut to it. -/
theorem and_widthMask_bit (r : Reg) (v : Word) {i : Nat} (hi : i < 8) : (v &&& widthMask r).getLsbD i = v.getLsbD i := by
  have hw : i < r.decl.width.bits := lt_of_lt_of_le hi (by cases r.decl.width <;> decide)
  rw [BitVec.getLsbD_and, widthMask, ones_bit (by omega)]
  simp [hw]

/-- A load of a device register has a result, one that R92's table allows. -/
theorem deviceLoad_rule (s : State) {r : Reg} (hd : DeviceReg r) :
    ∃ v u, deviceLoad s r = .ok (v, u) ∧ LoadRule s r v u := by
  unfold deviceLoad LoadRule
  cases hn : r.decl.name with
  | timCr1 => exact shown_rule s r (cr1Value_toNat s.tim)
  | timSr => exact shown_rule s r (srValue_toNat s.tim)
  | timPsc => exact shown_rule s r (BitVec.toNat_setWidth_of_le (by decide))
  | timArr => exact shown_rule s r (BitVec.toNat_setWidth_of_le (by decide))
  | gpioOdr => exact shown_rule s r (BitVec.toNat_setWidth_of_le (by decide))
  | gpioBsrr => exact ⟨_, _, rfl, and_widthMask_lt r _, rfl⟩
  | uartIsr =>
    obtain ⟨hore, hrxne, htxe⟩ := isrValue_bits s.uart s.nextDraw
    refine ⟨_, _, rfl, and_widthMask_lt r _, rfl, ?_, ?_, ?_⟩ <;> rw [and_widthMask_bit r _ (by decide)] <;>
      assumption
  | uartRdr => exact shown_rule _ r (BitVec.toNat_setWidth_of_le (by decide))
  | uartTdr => exact ⟨_, _, rfl, and_widthMask_lt r _, rfl⟩
  | other l => simp [DeviceReg, namesDevice, hn] at hd

/-- A set/reset store leaves each pin at the level R97 says. -/
theorem bsrrPins_bit (both : BsrrBoth) (odr : Half) (v : Word) {p : Nat} (hp : p < 16) :
    (bsrrPins both odr v).getLsbD p = pinAfter both (odr.getLsbD p) (v.getLsbD p) (v.getLsbD (p + 16)) := by
  cases both <;> simp [bsrrPins, pinAfter, hp, Nat.add_comm 16 p, Bool.or_comm, Bool.and_comm]

/-- A store that the guards of R93 and R98 let through has the effect R93 to R98 say. -/
theorem deviceStore_rule {s : State} {r : Reg} {v : Word} (ha : StoreAllowed s r.decl.name v = true) :
    ∃ u, deviceStore s r v = .ok u ∧ StoreRule s r.decl.name v u := by
  unfold deviceStore
  cases hn : r.decl.name with
  | timCr1 =>
    simp only [hn, StoreAllowed, Bool.and_eq_true, Bool.not_eq_true'] at ha
    obtain ⟨⟨⟨h1, h2⟩, h7⟩, h11⟩ := ha
    exact ⟨_, by simp only [h1, h2, h7, h11]; rfl, rfl⟩
  | timSr => exact ⟨_, rfl, rfl⟩
  | timPsc => exact ⟨_, rfl, rfl⟩
  | timArr => exact ⟨_, rfl, rfl⟩
  | gpioOdr => exact ⟨_, rfl, rfl⟩
  | gpioBsrr => exact ⟨_, rfl, _, rfl, fun p hp => bsrrPins_bit _ _ _ hp⟩
  | uartTdr =>
    simp only [hn, StoreAllowed, Bool.and_eq_true, Bool.not_eq_true'] at ha
    obtain ⟨hx, h8⟩ := ha
    exact ⟨_, by simp only [hx, h8]; rfl, rfl⟩
  | uartIsr => simp [hn, StoreAllowed] at ha
  | uartRdr => simp [hn, StoreAllowed] at ha
  | other l => simp [hn, StoreAllowed] at ha

/-- LOAD RULE: a load at a device register's own address and width, in an accepted table, gives a value and a side effect
of R92 and one Load event, and leaves the ENGINE's own state (R90). -/
theorem memRead_device {s : State} (ha : accepted s.cfg = true) {r : Reg} (hr : r ∈ regsOf s.cfg.regtab)
    (hd : DeviceReg r) :
    ∃ v u, LoadRule s r v u ∧ u.x = s.x ∧ u.pc = s.pc ∧
      memRead s (addrOf r) r.decl.width =
        .ok (v, { u with trace := s.trace ++ [.load (addrOf r) r.decl.width v] }) := by
  obtain ⟨v, u, hl, hrule⟩ := deviceLoad_rule s hd
  have hm := memRead_declared ha hr hl
  rcases deviceLoad_next hl with rfl | rfl | ⟨-, rfl | rfl⟩ <;> exact ⟨v, _, hrule, rfl, rfl, hm⟩

/-- STORE RULE: a store that fits, sets no reserved bit and passes the guards, at a writable register's own address and
width in an accepted table, has the device effect and one Store event, and leaves the ENGINE's own state (R91). -/
theorem memWrite_device {s : State} (ha : accepted s.cfg = true) {r : Reg} (hr : r ∈ regsOf s.cfg.regtab)
    (hp : r.decl.perm ≠ .ro) {v : Word} (hz : v &&& reservedMask r = 0#32)
    (hg : StoreAllowed s r.decl.name v = true) :
    ∃ u, StoreRule s r.decl.name v u ∧ u.pc = s.pc ∧
      memWrite s (addrOf r) r.decl.width v =
        .ok { u with trace := s.trace ++ [.store (addrOf r) r.decl.width v] } := by
  obtain ⟨u, hs, hrule⟩ := deviceStore_rule hg
  have hm := memWrite_declared ha hr hp hz hs
  rcases deviceStore_next hs with ⟨_, rfl, -, -⟩ | ⟨_, rfl, -⟩ | ⟨_, rfl, -, -⟩ <;> exact ⟨_, hrule, rfl, hm⟩

/-- In an accepted table a field's bits are bits of a word (R42, R43). -/
theorem field_in_word {c : Params} (ha : accepted c = true) {r : Reg} (hr : r ∈ regsOf c.regtab) {f : Field}
    (hf : f ∈ r.decl.fields) : f.lo ≤ f.hi ∧ f.hi < 32 := by
  obtain ⟨hlegal, -⟩ := accepted_parts ha
  obtain ⟨-, hrange, -⟩ := regLegal_parts (hlegal r hr)
  simp only [fieldsInRange, List.all_eq_true, Bool.and_eq_true, decide_eq_true_eq] at hrange
  obtain ⟨hlo, hhi⟩ := hrange f hf
  exact ⟨hlo, lt_of_lt_of_le hhi (Width.bits_le _)⟩

theorem statusWord_ok : statusWord .ok = 0#32 := rfl

/-- The end of a command that puts the value `w` of its one load into Xd; `u` is the state its load's rule leaves (R352). -/
theorem complete_setX_loaded {s u : State} (hx : u.x = s.x) (hpc : u.pc = s.pc) (d : RegIx) (w : Word)
    (l : List BusEvent) :
    ({ u with trace := l }.setX d w).complete .ok =
      { u with x := wrote s d w, trace := l, status := 0#32, cont := .none, pc := s.pc + 1 } := by
  simp [State.complete, State.setX, hx, hpc, statusWord_ok]

/-- Settles O13: the LDV's one load is a load of a device register in an accepted table, with `memRead_device`'s result. -/
theorem ldvLoadsDeviceRegister : Obligations.LdvLoadsDeviceRegister := by
  intro s d b wc r hdesc ha hr hd hwc hb
  obtain ⟨v, u, hrule, hx, hpc, hm⟩ := memRead_device ha hr hd
  refine ⟨v, u, hrule, ?_⟩
  simp only [exec, execLdv, hwc, outsideGroup_none hdesc, getX_some hb, bind, Except.bind, hm, commit_ok,
    complete_setX_loaded hx hpc]

/-- Settles O15: the STV's one store passes every check of R91, so `memWrite_device` gives its effect. -/
theorem stvStoresDeviceRegister : Obligations.StvStoresDeviceRegister := by
  intro s v b wc r t hdesc ha hr _ hwc hp ht hz hg hb hv
  obtain ⟨u, hrule, hpc, hm⟩ := memWrite_device ha hr hp hz hg
  refine ⟨u, hrule, ?_⟩
  simp only [exec, execStv, hwc, outsideGroup_none hdesc, getX_some hb, getX_some hv, bind, Except.bind,
    Nat.not_le.2 ht, if_false, hm, commit_ok]
  simp [State.complete, hpc, statusWord_ok]

/-- Settles O18: both commands make the one load of `memRead_device`; RFIELD's value is the field's bits of it. -/
theorem registerReadsReturnValues : Obligations.RegisterReadsReturnValues := by
  intro s d sel fld r f hdesc ha hres hd hcan
  have hr := resolve_mem hres
  obtain ⟨v, u, hrule, hx, hpc, hm⟩ := memRead_device ha hr hd
  constructor
  · refine ⟨v, u, hrule, ?_⟩
    simp [exec, execRread, outsideGroup_none hdesc, hres, hcan, bind, Except.bind, hm, complete_setX_loaded hx hpc]
  · intro hf hfr
    refine ⟨v, extract v f, u, hrule, fun i => ?_, ?_⟩
    · obtain ⟨hlo, hhi⟩ := field_in_word ha hr (fieldAt_mem hf)
      exact extract_bit v i hlo hhi
    · simp [exec, execRfield, outsideGroup_none hdesc, hres, hcan, hf, hfr, bind, Except.bind, hm,
        complete_setX_loaded hx hpc]

end Sys2Proof.Machine

/-! ### The schedule (00_scope.md R9, 60_exceptions.md R381) -/

namespace Sys2Proof.Machine

open Sys2Proof.Config

/-- With the pc inside the program or at its end, `ended` decides the conditions of R381. -/
theorem ended_iff_Ended {s : State} (hp : s.pc ≤ s.prog.length) : ended s = true ↔ Ended s := by
  refine ⟨fun h => ?_, ended_of_Ended⟩
  obtain ⟨hf, hpc, hrest⟩ := ended_iff.1 h
  exact ⟨hf, Nat.le_antisymm hp hpc, hrest⟩

/-- While a run goes on some agent has a step: the ENGINE, or the transmitter with a byte to send (R100). -/
theorem exists_enabled {s : State} (hf : s.fault = none) (he : ended s = false) : ∃ a, enabled s a = true := by
  cases hd : engineDone s with
  | false => exact ⟨.engine, by simp [enabled, hf, hd]⟩
  | true => exact ⟨.uartTx, by simpa [ended, hf, hd, enabled, uartTxEnabled] using he⟩

/-- The agent that the schedule offers steps, if it is enabled (R9). -/
theorem step_offered {s : State} {a : Agent} (hf : s.fault = none) (he : ended s = false) (ho : offered s = a)
    (ha : enabled s a = true) : step s = agentStep (takeTurn s) a := by
  simp [step, machineStep, nextAgent, hf, he, ho, ha]

/-- A run stays at a state that meets the conditions of R381. -/
theorem IsRun.ended_stays {σ : Nat → State} (hr : IsRun σ) {k : Nat} (h : Ended (σ k)) : σ (k + 1) = σ k := by
  rcases hr k with h1 | ⟨-, h1⟩
  · rw [step_ended (ended_of_Ended h)] at h1
    cases h1
  · exact h1

/-- Settles O7, from what a step is (`step_next`, `step_offered`), and by induction along a run that has ended. -/
theorem stepFollowsSchedule : Obligations.StepFollowsSchedule := by
  refine ⟨fun s hf hp => ⟨fun h => step_ended (ended_of_Ended h), fun hne => ?_⟩, fun σ n hr hn m hm => ?_⟩
  · have he : ended s = false := by simpa using mt (ended_iff_Ended hp).1 hne
    refine ⟨exists_enabled hf he, fun a rest ht ha => ?_, fun ht hd ha => ?_, fun t ht => ?_⟩
    · exact step_offered hf he (by simp [offered, ht]) ha
    · exact step_offered hf he (by simp [offered, ht, hd]) ha
    · obtain ⟨-, -, a, ha, hs⟩ := step_next ht
      exact ⟨a, nextAgent_enabled ha, hs⟩
  · induction m, hm using Nat.le_induction with
    | base => rfl
    | succ m _ ih => rw [hr.ended_stays (ih ▸ hn.1), ih]

end Sys2Proof.Machine

/-! ### Frames: what a step of the ENGINE, and a command's first step, leave unchanged -/

namespace Sys2Proof.Machine

open Sys2Proof.Config

/-- What every step of the ENGINE from `s` to `t` keeps, and how it adds to TRACE and REPORTS (R10, R12, R18, R109). -/
structure EngineFrame (s t : State) : Prop where
  cfg : t.cfg = s.cfg
  prog : t.prog = s.prog
  input : t.uart.input = s.uart.input
  output : t.uart.output = s.uart.output
  rdr : t.uart.rdr = s.uart.rdr
  ore : t.uart.ore = s.uart.ore
  cnt : t.tim.cnt = s.tim.cnt
  turns : t.turns = s.turns
  choices : t.choices = s.choices
  trace : t.trace = s.trace ∨ ∃ e, t.trace = s.trace ++ [e]
  reports : t.reports = s.reports ∨ ∃ e, t.reports = s.reports ++ [e]

/-- What a command's first step keeps beside (R31, R37): REPORTS, and every result register but the destination `d`. -/
structure CommandFrame (d : Option RegIx) (s t : State) : Prop extends EngineFrame s t where
  reports_eq : t.reports = s.reports
  x : ∀ j, d ≠ some j → t.xAt j = s.xAt j

namespace CommandFrame

variable {d : Option RegIx} {s u : State}

theorem refl (d : Option RegIx) (s : State) : CommandFrame d s s where
  cfg := rfl
  prog := rfl
  input := rfl
  output := rfl
  rdr := rfl
  ore := rfl
  cnt := rfl
  turns := rfl
  choices := rfl
  trace := .inl rfl
  reports := .inl rfl
  reports_eq := rfl
  x _ _ := rfl

theorem raise (d : Option RegIx) (s : State) (k : FaultKind) : CommandFrame d s (s.raise k) :=
  { refl d s with }

theorem complete (h : CommandFrame d s u) (o : Result) : CommandFrame d s (u.complete o) :=
  { h with }

theorem advance (h : CommandFrame d s u) : CommandFrame d s u.advance :=
  { h with }

theorem setX (h : CommandFrame none s u) (i : RegIx) (v : Word) : CommandFrame (some i) s (u.setX i v) :=
  { h with
    x j hj := by
      have hij : i.toNat ≠ j.toNat := fun he => hj (congrArg some (BitVec.eq_of_toNat_eq he))
      rw [← h.x j nofun]
      exact Vector.getElem_set_ne i.isLt j.isLt hij }

end CommandFrame

/-- A load keeps the command frame: it changes `draws`, RXNE and TRACE alone. -/
theorem memRead_commandFrame {s u : State} {a : Word} {n : Width} {v : Word} (h : memRead s a n = .ok (v, u)) :
    CommandFrame none s u := by
  obtain ⟨k, rx, -, rfl⟩ := memRead_frame h
  exact { CommandFrame.refl none s with trace := .inr ⟨_, rfl⟩ }

/-- A store keeps the command frame: a device store reaches neither the count, nor IN, OUT, the received byte or ORE. -/
theorem memWrite_commandFrame {s u : State} {a : Word} {n : Width} {v : Word} (h : memWrite s a n v = .ok u) :
    CommandFrame none s u := by
  obtain ⟨r, w, -, -, -, -, hd, rfl⟩ := memWrite_frame h
  rcases deviceStore_next hd with ⟨_, rfl, -, hcnt⟩ | ⟨_, rfl, -⟩ | ⟨_, rfl, -, -⟩
  · exact { CommandFrame.refl none s with cnt := hcnt, trace := .inr ⟨_, rfl⟩ }
  · exact { CommandFrame.refl none s with trace := .inr ⟨_, rfl⟩ }
  · exact { CommandFrame.refl none s with trace := .inr ⟨_, rfl⟩ }

theorem modifyLoad_commandFrame {s t : State} {r : Reg} {ops : List StagedOp} {next : AfterModify}
    (h : modifyLoad s r ops next = .ok t) : CommandFrame none s t := by
  obtain ⟨v, u, hm, rfl⟩ := modifyLoad_next h
  exact { memRead_commandFrame hm with }

theorem sendPoll_commandFrame {s t : State} {b : Byte} {rest : List Byte} (h : sendPoll s b rest = .ok t) :
    CommandFrame none s t := by
  obtain ⟨r, f, v, u, -, -, hm, rfl⟩ := sendPoll_next h
  exact { memRead_commandFrame hm with }

theorem recvPoll_commandFrame {s t : State} {k : Receive} {kept : Option Byte} (h : recvPoll s k kept = .ok t) :
    CommandFrame none s t := by
  obtain ⟨r, f, v, u, -, -, hm, rfl⟩ := recvPoll_next h
  cases kept with
  | none => exact { memRead_commandFrame hm with }
  | some b => exact { memRead_commandFrame hm with }

theorem startTimer_commandFrame {s t : State} {n : Word} {delay : Bool} (h : startTimer s n delay = .ok t) :
    CommandFrame none s t := by
  obtain ⟨r, f, u, -, -, hm, rfl⟩ := startTimer_next h
  exact { memWrite_commandFrame hm with }

theorem checkedStart_commandFrame {s t : State} {n : Word} {delay : Bool} (h : checkedStart s n delay = .ok t) :
    CommandFrame none s t := by
  rcases checkedStart_next h with rfl | rfl | h
  · exact { CommandFrame.refl none s with }
  · exact { CommandFrame.refl none s with }
  · exact startTimer_commandFrame h

theorem pinStore_commandFrame {s t : State} {p : Half} {bit : Nat} (h : pinStore s p bit = .ok t) :
    CommandFrame none s t := by
  rcases pinStore_next h with ⟨-, rfl⟩ | ⟨r, u, -, -, hm, rfl⟩
  · exact { CommandFrame.refl none s with }
  · unfold completePin
    split
    · exact { memWrite_commandFrame hm with }
    · exact { memWrite_commandFrame hm with }

/-- One load of a poll of UIF, and what follows it: the command goes on, or TPOLL ends, or a delay acknowledges (R260). -/
theorem pollUif_next {s t : State} {delay : Bool} (h : pollUif s delay = .ok t) :
    ∃ r f v u, regNamed s.cfg.regtab .timSr = some r ∧ fieldNamed r .uif = some f ∧
      memRead (if delay then { s with tst := .counting } else s) (addrOf r) r.decl.width = .ok (v, u) ∧
      (extract v f ≠ 1#32 ∧ t = { u with cont := .pollUif delay } ∨
        extract v f = 1#32 ∧ (delay = true ∧ t = { u with cont := .ackModify } ∨
          delay = false ∧ t = { u with tst := .expired }.complete .ok)) := by
  simp only [pollUif, bind_ok, needReg_ok, needField_ok] at h
  obtain ⟨r, hr, f, hf, ⟨v, u⟩, hm, h⟩ := h
  refine ⟨r, f, v, u, hr, hf, hm, ?_⟩
  split at h
  · rename_i he
    cases delay <;> cases h <;> simp [he]
  · rename_i he
    cases h
    exact .inl ⟨he, rfl⟩

theorem pollUif_commandFrame {s t : State} {delay : Bool} (h : pollUif s delay = .ok t) : CommandFrame none s t := by
  obtain ⟨r, f, v, u, -, -, hm, ht⟩ := pollUif_next h
  have hu : CommandFrame none s u := by cases delay <;> exact { memRead_commandFrame hm with }
  rcases ht with ⟨-, rfl⟩ | ⟨-, ⟨-, rfl⟩ | ⟨-, rfl⟩⟩ <;> exact { hu with }

theorem ackLoad_commandFrame {s t : State} (h : ackLoad s = .ok t) : CommandFrame none s t := by
  obtain ⟨r, f, -, -, hm⟩ := ackLoad_next h
  exact modifyLoad_commandFrame hm

end Sys2Proof.Machine

/-! ### What a command's first step can do: the commands that do more than one thing (60_exceptions.md R350) -/

namespace Sys2Proof.Machine

open Sys2Proof.Config

variable {s t : State} {d v b : RegIx} {wc : BitVec 2} {sel fld : Byte} {imm : Half}

/-- A command outside a group that reads its operand first (R31). -/
theorem outsideGroup_getX_next {i : Instr} {f : Word → Except Stop State}
    (h : outsideGroup s i (getX s v >>= f) = .next t) :
    (s.desc = .none ∧ ∃ w, s.xAt v = some w ∧ f w = .ok t) ∨ ∃ k, t = s.raise k := by
  refine (outsideGroup_next h).imp_left fun ⟨hd, hb⟩ => ⟨hd, ?_⟩
  obtain ⟨w, hw, hb⟩ := bind_ok.1 hb
  exact ⟨w, getX_ok hw, hb⟩

/-- A staging command that reads its operand first (R31, R213). -/
theorem insideGroup_getX_next {i : Instr} {f : Option Reg → List StagedOp → Option Cause → Word → Except Stop State}
    (h : insideGroup s i (fun r ops p => getX s v >>= f r ops p) = .next t) :
    (∃ r ops p w, s.desc = .opened r ops p ∧ s.xAt v = some w ∧ f r ops p w = .ok t) ∨ ∃ k, t = s.raise k := by
  refine (insideGroup_next h).imp_left fun ⟨r, ops, p, hd, hb⟩ => ?_
  obtain ⟨w, hw, hb⟩ := bind_ok.1 hb
  exact ⟨r, ops, p, w, hd, getX_ok hw, hb⟩

/-- LDV: one load, whose value is its result (R181). -/
theorem exec_ldv_next (h : exec (.ldv d b wc) s = .next t) :
    (s.desc = .none ∧ ∃ n a w u, widthOfCode wc = some n ∧ s.xAt b = some a ∧ memRead s a n = .ok (w, u) ∧
      t = (u.setX d w).complete .ok) ∨
    ∃ k, t = s.raise k := by
  simp only [exec, execLdv] at h
  split at h
  · cases h
    exact .inr ⟨_, rfl⟩
  · rename_i n hn
    refine (outsideGroup_getX_next h).imp_left fun ⟨hd, a, ha, hb⟩ => ⟨hd, ?_⟩
    obtain ⟨⟨w, u⟩, hm, hb⟩ := bind_ok.1 hb
    exact ⟨n, a, w, u, hn, ha, hm, (Except.ok.inj hb).symm⟩

/-- STV: a report that the value is too wide, or one store (R182). -/
theorem exec_stv_next (h : exec (.stv v b wc) s = .next t) :
    (s.desc = .none ∧ ∃ n a w, widthOfCode wc = some n ∧ s.xAt b = some a ∧ s.xAt v = some w ∧
      (2 ^ n.bits ≤ w.toNat ∧ t = s.report .valueTooWide ∨
        ∃ u, w.toNat < 2 ^ n.bits ∧ memWrite s a n w = .ok u ∧ t = u.complete .ok)) ∨
    ∃ k, t = s.raise k := by
  simp only [exec, execStv] at h
  split at h
  · cases h
    exact .inr ⟨_, rfl⟩
  · rename_i n hn
    refine (outsideGroup_getX_next h).imp_left fun ⟨hd, a, ha, hb⟩ => ⟨hd, ?_⟩
    obtain ⟨w, hw, hb⟩ := bind_ok.1 hb
    refine ⟨n, a, w, hn, ha, getX_ok hw, ?_⟩
    split at hb
    · rename_i hwide
      exact .inl ⟨hwide, (Except.ok.inj hb).symm⟩
    · rename_i hfits
      obtain ⟨u, hm, hb⟩ := bind_ok.1 hb
      exact .inr ⟨u, Nat.lt_of_not_le hfits, hm, (Except.ok.inj hb).symm⟩

/-- RREAD: a report, or one load of a readable register, whose value is its result (R210). -/
theorem exec_rread_next (h : exec (.rread d sel) s = .next t) :
    (s.desc = .none ∧ ((∃ c, t = s.report c) ∨
      ∃ r w u, resolve s.cfg.regtab sel = some r ∧ canRead r = true ∧
        memRead s (addrOf r) r.decl.width = .ok (w, u) ∧ t = (u.setX d w).complete .ok)) ∨
    ∃ k, t = s.raise k := by
  refine (outsideGroup_next h).imp_left fun ⟨hd, hb⟩ => ⟨hd, ?_⟩
  split at hb
  · exact .inl ⟨_, (Except.ok.inj hb).symm⟩
  · rename_i r hr
    split at hb
    · exact .inl ⟨_, (Except.ok.inj hb).symm⟩
    · rename_i hc
      obtain ⟨⟨w, u⟩, hm, hb⟩ := bind_ok.1 hb
      exact .inr ⟨r, w, u, hr, by simpa using hc, hm, (Except.ok.inj hb).symm⟩

/-- RFIELD: a report, or one load of a readable register, a readable field of whose value is its result (R211). -/
theorem exec_rfield_next (h : exec (.rfield d sel fld) s = .next t) :
    (s.desc = .none ∧ ((∃ c, t = s.report c) ∨
      ∃ r f w u, resolve s.cfg.regtab sel = some r ∧ canRead r = true ∧ fieldAt r fld = some f ∧
        readable f.perm = true ∧ memRead s (addrOf r) r.decl.width = .ok (w, u) ∧
        t = (u.setX d (extract w f)).complete .ok)) ∨
    ∃ k, t = s.raise k := by
  refine (outsideGroup_next h).imp_left fun ⟨hd, hb⟩ => ⟨hd, ?_⟩
  split at hb
  · exact .inl ⟨_, (Except.ok.inj hb).symm⟩
  · rename_i r hr
    split at hb
    · exact .inl ⟨_, (Except.ok.inj hb).symm⟩
    · rename_i hc
      split at hb
      · exact .inl ⟨_, (Except.ok.inj hb).symm⟩
      · rename_i f hf
        split at hb
        · exact .inl ⟨_, (Except.ok.inj hb).symm⟩
        · rename_i hp
          obtain ⟨⟨w, u⟩, hm, hb⟩ := bind_ok.1 hb
          exact .inr ⟨r, f, w, u, hr, by simpa using hc, hf, by simpa using hp, hm, (Except.ok.inj hb).symm⟩

/-- DBEGIN: a group is opened on the register named, or a poisoned one on none (R212). -/
theorem exec_dbegin_next (h : exec (.dbegin sel) s = .next t) :
    (s.desc = .none ∧
      (resolve s.cfg.regtab sel = none ∧ t = { s with desc := .opened none [] (some .unknownRegister) }.advance ∨
        ∃ r, resolve s.cfg.regtab sel = some r ∧ t = { s with desc := .opened (some r) [] none }.advance)) ∨
    ∃ k, t = s.raise k := by
  refine (outsideGroup_next h).imp_left fun ⟨hd, hb⟩ => ⟨hd, ?_⟩
  split at hb
  · rename_i hr
    exact .inl ⟨hr, (Except.ok.inj hb).symm⟩
  · rename_i r hr
    exact .inr ⟨r, hr, (Except.ok.inj hb).symm⟩

/-- WRITE: the group is closed; a report, or one store of a clean group to a writable register (R217). -/
theorem exec_write_next (h : exec .write s = .next t) :
    (∃ r ops p, s.desc = .opened r ops p ∧ ((∃ c, t = { s with desc := .none }.report c) ∨
      ∃ q u, r = some q ∧ p = none ∧ canWrite q = true ∧ writeReg { s with desc := .none } q ops = .ok u ∧
        t = u.complete .ok)) ∨
    ∃ k, t = s.raise k := by
  refine (insideGroup_next h).imp_left fun ⟨r, ops, p, hd, hb⟩ => ⟨r, ops, p, hd, ?_⟩
  match r, p with
  | none, _ => exact .inl ⟨_, (Except.ok.inj hb).symm⟩
  | some q, p =>
    simp only at hb
    split at hb
    · exact .inl ⟨_, (Except.ok.inj hb).symm⟩
    · rename_i hc
      match p with
      | some c => exact .inl ⟨_, (Except.ok.inj hb).symm⟩
      | none =>
        obtain ⟨u, hm, hb⟩ := bind_ok.1 hb
        exact .inr ⟨q, u, rfl, rfl, by simpa using hc, hm, (Except.ok.inj hb).symm⟩

/-- MODIFY: the group is closed; a report, or the load of a clean group's readable and writable register (R218). -/
theorem exec_modify_next (h : exec .modify s = .next t) :
    (∃ r ops p, s.desc = .opened r ops p ∧ ((∃ c, t = { s with desc := .none }.report c) ∨
      ∃ q, r = some q ∧ p = none ∧ canRead q = true ∧ canWrite q = true ∧
        modifyLoad { s with desc := .none } q ops .group = .ok t)) ∨
    ∃ k, t = s.raise k := by
  refine (insideGroup_next h).imp_left fun ⟨r, ops, p, hd, hb⟩ => ⟨r, ops, p, hd, ?_⟩
  match r, p with
  | none, _ => exact .inl ⟨_, (Except.ok.inj hb).symm⟩
  | some q, p =>
    simp only at hb
    split at hb
    · exact .inl ⟨_, (Except.ok.inj hb).symm⟩
    · rename_i hc
      obtain ⟨hr, hw⟩ : canRead q = true ∧ canWrite q = true := by simpa using hc
      match p with
      | some c => exact .inl ⟨_, (Except.ok.inj hb).symm⟩
      | none => exact .inr ⟨q, rfl, rfl, hr, hw, hb⟩

/-- DELAYI: nothing to wait for, or a start (R266). -/
theorem exec_delayi_next (h : exec (.delayi imm) s = .next t) :
    (s.desc = .none ∧ (imm = 0#16 ∧ t = s.complete .ok ∨
      imm ≠ 0#16 ∧ startTimer s (imm.setWidth 32) true = .ok t)) ∨
    ∃ k, t = s.raise k := by
  refine (outsideGroup_next h).imp_left fun ⟨hd, hb⟩ => ⟨hd, ?_⟩
  split at hb
  · rename_i hz
    exact .inl ⟨hz, (Except.ok.inj hb).symm⟩
  · rename_i hz
    exact .inr ⟨hz, hb⟩

/-- USEND: a report that the value is no byte, or the first poll of its send (R312). -/
theorem exec_usend_next (h : exec (.usend v) s = .next t) :
    (s.desc = .none ∧ ∃ w, s.xAt v = some w ∧ (0xFF < w.toNat ∧ t = s.report .valueTooWide ∨
      w.toNat ≤ 0xFF ∧ sendPoll s (w.extractLsb' 0 8) [] = .ok t)) ∨
    ∃ k, t = s.raise k := by
  refine (outsideGroup_getX_next h).imp_left fun ⟨hd, w, hw, hb⟩ => ⟨hd, w, hw, ?_⟩
  split at hb
  · rename_i hwide
    exact .inl ⟨hwide, (Except.ok.inj hb).symm⟩
  · rename_i hfits
    exact .inr ⟨Nat.le_of_not_lt hfits, hb⟩

/-- USENDL: an empty line, or the first poll of its first byte's send (R317). -/
theorem exec_usendl_next (h : exec .usendl s = .next t) :
    (s.desc = .none ∧ (s.lb = [] ∧ t = s.complete .ok ∨ ∃ c rest, s.lb = c :: rest ∧ sendPoll s c rest = .ok t)) ∨
    ∃ k, t = s.raise k := by
  refine (outsideGroup_next h).imp_left fun ⟨hd, hb⟩ => ⟨hd, ?_⟩
  split at hb
  · rename_i hl
    exact .inl ⟨hl, (Except.ok.inj hb).symm⟩
  · rename_i c rest hl
    exact .inr ⟨c, rest, hl, hb⟩

end Sys2Proof.Machine

/-! ### Frames of a command's first step and of an ENGINE step -/

namespace Sys2Proof.Machine

open Sys2Proof.Config

variable {s t : State}

/-- FRAME OF A COMMAND: its first step keeps the command frame of its destination (R31, R37, R109). A fault keeps all of
it; the cases are those of a step that is no fault. -/
theorem exec_commandFrame (i : Instr) (h : exec i s = .next t) : CommandFrame (destOf i) s t := by
  by_cases hf : ∃ k, t = s.raise k
  · obtain ⟨k, rfl⟩ := hf
    exact .raise _ s k
  have own := CommandFrame.refl none s
  cases i with
  | li d imm =>
    obtain ⟨-, ⟨⟩⟩ := (outsideGroup_next h).resolve_right hf
    exact (own.setX d _).complete _
  | lih d imm =>
    obtain ⟨-, w, -, ⟨⟩⟩ := (outsideGroup_getX_next h).resolve_right hf
    exact (own.setX d _).complete _
  | gets d =>
    obtain ⟨-, ⟨⟩⟩ := (outsideGroup_next h).resolve_right hf
    exact (own.setX d _).advance
  | ldv d b wc =>
    obtain ⟨-, n, a, w, u, -, -, hm, rfl⟩ := (exec_ldv_next h).resolve_right hf
    exact ((memRead_commandFrame hm).setX d w).complete _
  | stv v b wc =>
    obtain ⟨-, n, a, w, -, -, -, ⟨-, rfl⟩ | ⟨u, -, hm, rfl⟩⟩ := (exec_stv_next h).resolve_right hf
    · exact own.complete _
    · exact (memWrite_commandFrame hm).complete _
  | rread d sel =>
    obtain ⟨-, ⟨c, rfl⟩ | ⟨r, w, u, -, -, hm, rfl⟩⟩ := (exec_rread_next h).resolve_right hf
    · exact (CommandFrame.refl _ s).complete _
    · exact ((memRead_commandFrame hm).setX d w).complete _
  | rfield d sel fld =>
    obtain ⟨-, ⟨c, rfl⟩ | ⟨r, f, w, u, -, -, -, -, hm, rfl⟩⟩ := (exec_rfield_next h).resolve_right hf
    · exact (CommandFrame.refl _ s).complete _
    · exact ((memRead_commandFrame hm).setX d _).complete _
  | dbegin sel =>
    obtain ⟨-, ⟨-, rfl⟩ | ⟨r, -, rfl⟩⟩ := (exec_dbegin_next h).resolve_right hf
    · exact { own with }
    · exact { own with }
  | dset v fld =>
    obtain ⟨r, ops, p, w, -, -, ⟨⟩⟩ := (insideGroup_getX_next h).resolve_right hf
    exact { own with }
  | dseti fld imm =>
    obtain ⟨r, ops, p, -, ⟨⟩⟩ := (insideGroup_next h).resolve_right hf
    exact { own with }
  | dxor v fld =>
    obtain ⟨r, ops, p, w, -, -, ⟨⟩⟩ := (insideGroup_getX_next h).resolve_right hf
    exact { own with }
  | dbits v =>
    obtain ⟨r, ops, p, w, -, -, ⟨⟩⟩ := (insideGroup_getX_next h).resolve_right hf
    exact { own with }
  | write =>
    obtain ⟨r, ops, p, -, ⟨c, rfl⟩ | ⟨q, u, -, -, -, hm, rfl⟩⟩ := (exec_write_next h).resolve_right hf
    · exact { own with }
    · exact { memWrite_commandFrame hm with }
  | modify =>
    obtain ⟨r, ops, p, -, ⟨c, rfl⟩ | ⟨q, -, -, -, -, hm⟩⟩ := (exec_modify_next h).resolve_right hf
    · exact { own with }
    · exact { modifyLoad_commandFrame hm with }
  | tstart v =>
    obtain ⟨-, n, -, hb⟩ := (outsideGroup_getX_next h).resolve_right hf
    exact checkedStart_commandFrame hb
  | tstarti imm => exact startTimer_commandFrame ((outsideGroup_next h).resolve_right hf).2
  | tpoll => exact pollUif_commandFrame ((outsideGroup_next h).resolve_right hf).2
  | tack => exact ackLoad_commandFrame ((outsideGroup_next h).resolve_right hf).2
  | delay v =>
    obtain ⟨-, n, -, hb⟩ := (outsideGroup_getX_next h).resolve_right hf
    exact checkedStart_commandFrame hb
  | delayi imm =>
    obtain ⟨-, ⟨-, rfl⟩ | ⟨-, hb⟩⟩ := (exec_delayi_next h).resolve_right hf
    · exact own.complete _
    · exact startTimer_commandFrame hb
  | pon imm => exact pinStore_commandFrame ((outsideGroup_next h).resolve_right hf).2
  | poff imm => exact pinStore_commandFrame ((outsideGroup_next h).resolve_right hf).2
  | usend v =>
    obtain ⟨-, w, -, ⟨-, rfl⟩ | ⟨-, hb⟩⟩ := (exec_usend_next h).resolve_right hf
    · exact own.complete _
    · exact sendPoll_commandFrame hb
  | usendi b => exact sendPoll_commandFrame ((outsideGroup_next h).resolve_right hf).2
  | urecv d => exact recvPoll_commandFrame ((outsideGroup_next h).resolve_right hf).2
  | uline d => exact { recvPoll_commandFrame ((outsideGroup_next h).resolve_right hf).2 with }
  | lrev =>
    obtain ⟨-, ⟨⟩⟩ := (outsideGroup_next h).resolve_right hf
    exact { own with }
  | usendl =>
    obtain ⟨-, ⟨-, rfl⟩ | ⟨c, rest, -, hb⟩⟩ := (exec_usendl_next h).resolve_right hf
    · exact own.complete _
    · exact sendPoll_commandFrame hb

/-- Settles O47: the command frame of the first step, part by part. -/
theorem commandStepFrame : Obligations.CommandStepFrame := by
  intro i s t h
  have f := exec_commandFrame i h
  exact ⟨f.x, f.cfg, f.prog, f.reports_eq, f.input, f.output, f.rdr, f.ore, f.cnt, f.turns, f.choices⟩

theorem modifyStore_commandFrame {r : Reg} {ops : List StagedOp} {v : Word} {next : AfterModify}
    (h : modifyStore s r ops v next = .ok t) : CommandFrame none s t := by
  obtain ⟨u, hm, rfl⟩ := modifyStore_next h
  have hu := memWrite_commandFrame hm
  match next with
  | .group => exact { hu with }
  | .started false => exact { hu with }
  | .started true => exact { hu with }
  | .acknowledged => exact { hu with }

theorem startModify_commandFrame {delay : Bool} (h : startModify s delay = .ok t) : CommandFrame none s t := by
  obtain ⟨r, fo, fe, -, -, -, hm⟩ := startModify_next h
  exact modifyLoad_commandFrame hm

theorem sendStore_commandFrame {b : Byte} {rest : List Byte} (h : sendStore s b rest = .ok t) :
    CommandFrame none s t := by
  obtain ⟨r, f, u, -, -, hm, ⟨-, rfl⟩ | ⟨c, cs, -, rfl⟩⟩ := sendStore_next h
  · exact (memWrite_commandFrame hm).complete _
  · exact { memWrite_commandFrame hm with }

/-- A received byte is the one step of a command that may add a report: the byte dropped from a full line (R315). -/
theorem recvLoad_engineFrame {k : Receive} (h : recvLoad s k = .ok t) : EngineFrame s t := by
  obtain ⟨r, f, v, u, -, -, hm, rfl⟩ := recvLoad_next h
  have hu := memRead_commandFrame hm
  unfold received
  split
  · exact { hu.toEngineFrame with }
  · split
    · exact { hu.toEngineFrame with }
    · split
      · exact { hu.toEngineFrame with }
      · exact { hu.toEngineFrame with reports := .inr ⟨_, congrArg (· ++ _) hu.reports_eq⟩ }

/-- A step's next state keeps the ENGINE's frame if the step's result does. -/
theorem commit_engineFrame {e : Except Stop State} (h : commit s e = .next t) (he : e = .ok t → EngineFrame s t) :
    EngineFrame s t := by
  rcases commit_next h with h | ⟨k, -, rfl⟩
  · exact he h
  · exact (CommandFrame.raise none s k).toEngineFrame

/-- FRAME OF THE ENGINE: the first step of a command, and each later one (R10, R12, R18, R109). -/
theorem engineStep_frame (h : engineStep s = .next t) : EngineFrame s t := by
  unfold engineStep at h
  generalize s.cont = c at h
  cases c with
  | none =>
    rcases fetchStep_next h with ⟨k, rfl⟩ | ⟨w, i, -, -, hi⟩
    · exact (CommandFrame.raise none s k).toEngineFrame
    · exact (exec_commandFrame i hi).toEngineFrame
  | modifyStore r ops v next =>
    exact commit_engineFrame h fun he => (modifyStore_commandFrame he).toEngineFrame
  | startModify delay => exact commit_engineFrame h fun he => (startModify_commandFrame he).toEngineFrame
  | pollUif delay => exact commit_engineFrame h fun he => (pollUif_commandFrame he).toEngineFrame
  | ackModify => exact commit_engineFrame h fun he => { (ackLoad_commandFrame he).toEngineFrame with }
  | sendPoll b rest => exact commit_engineFrame h fun he => (sendPoll_commandFrame he).toEngineFrame
  | sendStore b rest => exact commit_engineFrame h fun he => (sendStore_commandFrame he).toEngineFrame
  | recvPoll k kept => exact commit_engineFrame h fun he => (recvPoll_commandFrame he).toEngineFrame
  | recvLoad k => exact commit_engineFrame h recvLoad_engineFrame

/-- UART_RX's step changes FAULT alone or the UART alone, and of the UART not OUT (R373). -/
theorem uartRxArrive_next (s : State) :
    (∃ k, uartRxArrive s = s.raise k) ∨
      ∃ u, uartRxArrive s = { s with uart := u } ∧ u.output = s.uart.output := by
  obtain ⟨t, ht, h⟩ := uartRx_next s
  cases ht
  rcases h with h | h | ⟨b, rest, -, -, h⟩
  · exact .inr ⟨s.uart, h, rfl⟩
  · exact .inl h
  · exact .inr ⟨_, h, rfl⟩

/-- Settles O51, agent by agent. -/
theorem agentsKeepToTheirState : Obligations.AgentsKeepToTheirState := by
  intro s t a h
  refine ⟨?_, ?_, ?_, ?_⟩ <;> rintro rfl
  · obtain ⟨u, hu, hk | ⟨tm, rfl⟩⟩ := timer_next s
    · exact .inl (by cases hu.symm.trans h; exact hk)
    · exact .inr (by cases hu.symm.trans h; rfl)
  · cases h
    rfl
  · cases h
    rcases uartRxArrive_next s with hk | ⟨u, hu, -⟩
    · exact .inl hk
    · exact .inr (by rw [hu])
  · have f := engineStep_frame h
    exact ⟨f.input, f.output, f.rdr, f.ore, f.cnt⟩

/-- What a step of any agent keeps, and how it adds to the run's record (R12, R37, R40). -/
theorem agentStep_history {a : Agent} (h : agentStep s a = .next t) :
    t.cfg = s.cfg ∧ t.prog = s.prog ∧ (t.trace = s.trace ∨ ∃ e, t.trace = s.trace ++ [e]) ∧
    (t.reports = s.reports ∨ ∃ e, t.reports = s.reports ++ [e]) ∧
    (t.uart.output = s.uart.output ∨ t.uart.output = s.uart.output ++ [s.uart.tdr]) := by
  cases a with
  | engine =>
    have f := engineStep_frame h
    exact ⟨f.cfg, f.prog, f.trace, f.reports, .inl f.output⟩
  | timer =>
    obtain ⟨u, hu, ⟨k, rfl⟩ | ⟨tm, rfl⟩⟩ := timer_next s <;> cases hu.symm.trans h <;>
      exact ⟨rfl, rfl, .inl rfl, .inl rfl, .inl rfl⟩
  | uartTx =>
    cases h
    exact ⟨rfl, rfl, .inl rfl, .inl rfl, .inr rfl⟩
  | uartRx =>
    cases h
    rcases uartRxArrive_next s with ⟨k, hk⟩ | ⟨u, hu, ho⟩
    · rw [hk]
      exact ⟨rfl, rfl, .inl rfl, .inl rfl, .inl rfl⟩
    · rw [hu]
      exact ⟨rfl, rfl, .inl rfl, .inl rfl, .inl ho⟩

/-- Settles O52: a step is one agent's, after the model's schedule has moved on. -/
theorem historyOnlyGrows : Obligations.HistoryOnlyGrows := by
  intro s t h
  obtain ⟨-, -, a, -, ha⟩ := step_next h
  exact agentStep_history (s := takeTurn s) ha

end Sys2Proof.Machine

/-! ### Commands that make no transaction (10_state.md R33) -/

namespace Sys2Proof.Machine

/-- Settles O48: the commands named, one by one; a fault changes none of this. -/
theorem noTransactionFrame : Obligations.NoTransactionFrame := by
  intro i s t h hi
  by_cases hf : ∃ k, t = s.raise k
  · obtain ⟨k, rfl⟩ := hf
    exact ⟨rfl, rfl, rfl, rfl, rfl, rfl, fun _ => rfl, fun _ => rfl⟩
  cases i with
  | li d imm =>
    obtain ⟨-, ⟨⟩⟩ := (outsideGroup_next h).resolve_right hf
    exact ⟨rfl, rfl, rfl, rfl, rfl, rfl, fun _ => rfl, nofun⟩
  | lih d imm =>
    obtain ⟨-, w, -, ⟨⟩⟩ := (outsideGroup_getX_next h).resolve_right hf
    exact ⟨rfl, rfl, rfl, rfl, rfl, rfl, fun _ => rfl, nofun⟩
  | gets d =>
    obtain ⟨-, ⟨⟩⟩ := (outsideGroup_next h).resolve_right hf
    exact ⟨rfl, rfl, rfl, rfl, rfl, rfl, fun _ => rfl, fun _ => rfl⟩
  | dbegin sel =>
    obtain ⟨-, ⟨-, rfl⟩ | ⟨r, -, rfl⟩⟩ := (exec_dbegin_next h).resolve_right hf <;>
      exact ⟨rfl, rfl, rfl, rfl, rfl, rfl, fun _ => rfl, fun _ => rfl⟩
  | dset v fld =>
    obtain ⟨r, ops, p, w, -, -, ⟨⟩⟩ := (insideGroup_getX_next h).resolve_right hf
    exact ⟨rfl, rfl, rfl, rfl, rfl, rfl, fun _ => rfl, fun _ => rfl⟩
  | dseti fld imm =>
    obtain ⟨r, ops, p, -, ⟨⟩⟩ := (insideGroup_next h).resolve_right hf
    exact ⟨rfl, rfl, rfl, rfl, rfl, rfl, fun _ => rfl, fun _ => rfl⟩
  | dxor v fld =>
    obtain ⟨r, ops, p, w, -, -, ⟨⟩⟩ := (insideGroup_getX_next h).resolve_right hf
    exact ⟨rfl, rfl, rfl, rfl, rfl, rfl, fun _ => rfl, fun _ => rfl⟩
  | dbits v =>
    obtain ⟨r, ops, p, w, -, -, ⟨⟩⟩ := (insideGroup_getX_next h).resolve_right hf
    exact ⟨rfl, rfl, rfl, rfl, rfl, rfl, fun _ => rfl, fun _ => rfl⟩
  | lrev =>
    obtain ⟨-, ⟨⟩⟩ := (outsideGroup_next h).resolve_right hf
    exact ⟨rfl, rfl, rfl, rfl, rfl, rfl, absurd rfl, nofun⟩
  | _ => simp [keepsStatus] at hi

end Sys2Proof.Machine

/-! ### The devices and TRACE: what a step of the ENGINE does to them (20_memory.md R88 to R98) -/

namespace Sys2Proof.Machine

open Sys2Proof.Config

variable {s t : State}

/-- What a step of the ENGINE from `s` to `t` does to the timer, the pins and TRACE: it makes no store and keeps both, or
makes one store, to a declared register, of no reserved bit, that changes the pins only at ODR or BSRR (R91, R93 to R97). -/
def StoreFrame (s t : State) : Prop :=
  (t.tim = s.tim ∧ t.odr = s.odr ∧ (t.trace = s.trace ∨ ∃ a n v, t.trace = s.trace ++ [.load a n v])) ∨
  ∃ r v, overlapped s.cfg.regtab (addrOf r) r.decl.width = some r ∧ v &&& reservedMask r = 0#32 ∧
    t.trace = s.trace ++ [.store (addrOf r) r.decl.width v] ∧
    (ModesClear s.tim → ModesClear t.tim) ∧
    (t.odr = s.odr ∨ r.decl.name = .gpioOdr ∨ r.decl.name = .gpioBsrr)

theorem StoreFrame.refl (s : State) : StoreFrame s s := .inl ⟨rfl, rfl, .inl rfl⟩

theorem StoreFrame.raise (s : State) (k : FaultKind) : StoreFrame s (s.raise k) := .refl s

theorem memRead_storeFrame {a : Word} {n : Width} {v : Word} (h : memRead s a n = .ok (v, t)) : StoreFrame s t := by
  obtain ⟨k, rx, -, rfl⟩ := memRead_frame h
  exact .inl ⟨rfl, rfl, .inr ⟨a, n, v, rfl⟩⟩

theorem memWrite_storeFrame {a : Word} {n : Width} {v : Word} (h : memWrite s a n v = .ok t) : StoreFrame s t := by
  obtain ⟨r, u, hr, rfl, rfl, hz, hd, rfl⟩ := memWrite_frame h
  refine .inr ⟨r, v, hr, hz, rfl, ?_⟩
  rcases deviceStore_next hd with ⟨tm, rfl, hmodes, -⟩ | ⟨o, rfl, hname⟩ | ⟨b, rfl, -, -⟩
  · exact ⟨hmodes, .inl rfl⟩
  · exact ⟨id, .inr hname⟩
  · exact ⟨id, .inl rfl⟩

theorem modifyLoad_storeFrame {r : Reg} {ops : List StagedOp} {next : AfterModify}
    (h : modifyLoad s r ops next = .ok t) : StoreFrame s t := by
  obtain ⟨v, u, hm, rfl⟩ := modifyLoad_next h
  exact (memRead_storeFrame hm :)

theorem modifyStore_storeFrame {r : Reg} {ops : List StagedOp} {v : Word} {next : AfterModify}
    (h : modifyStore s r ops v next = .ok t) : StoreFrame s t := by
  obtain ⟨u, hm, rfl⟩ := modifyStore_next h
  have hu := memWrite_storeFrame hm
  match next with
  | .group => exact hu
  | .started false => exact hu
  | .started true => exact hu
  | .acknowledged => exact hu

theorem sendPoll_storeFrame {b : Byte} {rest : List Byte} (h : sendPoll s b rest = .ok t) : StoreFrame s t := by
  obtain ⟨r, f, v, u, -, -, hm, rfl⟩ := sendPoll_next h
  exact (memRead_storeFrame hm :)

theorem sendStore_storeFrame {b : Byte} {rest : List Byte} (h : sendStore s b rest = .ok t) : StoreFrame s t := by
  obtain ⟨r, f, u, -, -, hm, ⟨-, rfl⟩ | ⟨c, cs, -, rfl⟩⟩ := sendStore_next h
  · exact (memWrite_storeFrame hm :)
  · exact (memWrite_storeFrame hm :)

theorem recvPoll_storeFrame {k : Receive} {kept : Option Byte} (h : recvPoll s k kept = .ok t) : StoreFrame s t := by
  obtain ⟨r, f, v, u, -, -, hm, rfl⟩ := recvPoll_next h
  cases kept with
  | none => exact (memRead_storeFrame hm :)
  | some b => exact (memRead_storeFrame hm :)

theorem recvLoad_storeFrame {k : Receive} (h : recvLoad s k = .ok t) : StoreFrame s t := by
  obtain ⟨r, f, v, u, -, -, hm, rfl⟩ := recvLoad_next h
  have hu := memRead_storeFrame hm
  unfold received
  split
  · exact hu
  · split
    · exact hu
    · split
      · exact hu
      · exact hu

theorem startTimer_storeFrame {n : Word} {delay : Bool} (h : startTimer s n delay = .ok t) : StoreFrame s t := by
  obtain ⟨r, f, u, -, -, hm, rfl⟩ := startTimer_next h
  exact (memWrite_storeFrame hm :)

theorem checkedStart_storeFrame {n : Word} {delay : Bool} (h : checkedStart s n delay = .ok t) : StoreFrame s t := by
  rcases checkedStart_next h with rfl | rfl | h
  · exact .refl s
  · exact .refl s
  · exact startTimer_storeFrame h

theorem startModify_storeFrame {delay : Bool} (h : startModify s delay = .ok t) : StoreFrame s t := by
  obtain ⟨r, fo, fe, -, -, -, hm⟩ := startModify_next h
  exact (modifyLoad_storeFrame hm :)

theorem pollUif_storeFrame {delay : Bool} (h : pollUif s delay = .ok t) : StoreFrame s t := by
  obtain ⟨r, f, v, u, -, -, hm, ht⟩ := pollUif_next h
  have hu : StoreFrame s u := by cases delay <;> exact (memRead_storeFrame hm :)
  rcases ht with ⟨-, rfl⟩ | ⟨-, ⟨-, rfl⟩ | ⟨-, rfl⟩⟩ <;> exact hu

theorem ackLoad_storeFrame (h : ackLoad s = .ok t) : StoreFrame s t := by
  obtain ⟨r, f, -, -, hm⟩ := ackLoad_next h
  exact (modifyLoad_storeFrame hm :)

theorem pinStore_storeFrame {p : Half} {bit : Nat} (h : pinStore s p bit = .ok t) : StoreFrame s t := by
  rcases pinStore_next h with ⟨-, rfl⟩ | ⟨r, u, -, -, hm, rfl⟩
  · exact .refl s
  · unfold completePin
    split
    · exact (memWrite_storeFrame hm :)
    · exact (memWrite_storeFrame hm :)

/-- A command's first step makes at most one transaction (R18): the cases are those of a step that is no fault. -/
theorem exec_storeFrame (i : Instr) (h : exec i s = .next t) : StoreFrame s t := by
  by_cases hf : ∃ k, t = s.raise k
  · obtain ⟨k, rfl⟩ := hf
    exact .raise s k
  have own := StoreFrame.refl s
  cases i with
  | li d imm | lih d imm | gets d | dbegin sel | dset v fld | dseti fld imm | dxor v fld | dbits v | lrev =>
    obtain ⟨htrace, htim, hodr, -⟩ := noTransactionFrame _ s t h (by simp [keepsStatus])
    exact .inl ⟨htim, hodr, .inl htrace⟩
  | ldv d b wc =>
    obtain ⟨-, n, a, w, u, -, -, hm, rfl⟩ := (exec_ldv_next h).resolve_right hf
    exact (memRead_storeFrame hm :)
  | stv v b wc =>
    obtain ⟨-, n, a, w, -, -, -, ⟨-, rfl⟩ | ⟨u, -, hm, rfl⟩⟩ := (exec_stv_next h).resolve_right hf
    · exact own
    · exact (memWrite_storeFrame hm :)
  | rread d sel =>
    obtain ⟨-, ⟨c, rfl⟩ | ⟨r, w, u, -, -, hm, rfl⟩⟩ := (exec_rread_next h).resolve_right hf
    · exact own
    · exact (memRead_storeFrame hm :)
  | rfield d sel fld =>
    obtain ⟨-, ⟨c, rfl⟩ | ⟨r, f, w, u, -, -, -, -, hm, rfl⟩⟩ := (exec_rfield_next h).resolve_right hf
    · exact own
    · exact (memRead_storeFrame hm :)
  | write =>
    obtain ⟨r, ops, p, -, ⟨c, rfl⟩ | ⟨q, u, -, -, -, hm, rfl⟩⟩ := (exec_write_next h).resolve_right hf
    · exact own
    · exact (memWrite_storeFrame hm :)
  | modify =>
    obtain ⟨r, ops, p, -, ⟨c, rfl⟩ | ⟨q, -, -, -, -, hm⟩⟩ := (exec_modify_next h).resolve_right hf
    · exact own
    · exact (modifyLoad_storeFrame hm :)
  | tstart v =>
    obtain ⟨-, n, -, hb⟩ := (outsideGroup_getX_next h).resolve_right hf
    exact checkedStart_storeFrame hb
  | tstarti imm => exact startTimer_storeFrame ((outsideGroup_next h).resolve_right hf).2
  | tpoll => exact pollUif_storeFrame ((outsideGroup_next h).resolve_right hf).2
  | tack => exact ackLoad_storeFrame ((outsideGroup_next h).resolve_right hf).2
  | delay v =>
    obtain ⟨-, n, -, hb⟩ := (outsideGroup_getX_next h).resolve_right hf
    exact checkedStart_storeFrame hb
  | delayi imm =>
    obtain ⟨-, ⟨-, rfl⟩ | ⟨-, hb⟩⟩ := (exec_delayi_next h).resolve_right hf
    · exact own
    · exact startTimer_storeFrame hb
  | pon imm => exact pinStore_storeFrame ((outsideGroup_next h).resolve_right hf).2
  | poff imm => exact pinStore_storeFrame ((outsideGroup_next h).resolve_right hf).2
  | usend v =>
    obtain ⟨-, w, -, ⟨-, rfl⟩ | ⟨-, hb⟩⟩ := (exec_usend_next h).resolve_right hf
    · exact own
    · exact sendPoll_storeFrame hb
  | usendi b => exact sendPoll_storeFrame ((outsideGroup_next h).resolve_right hf).2
  | urecv d => exact recvPoll_storeFrame ((outsideGroup_next h).resolve_right hf).2
  | uline d => exact (recvPoll_storeFrame ((outsideGroup_next h).resolve_right hf).2 :)
  | usendl =>
    obtain ⟨-, ⟨-, rfl⟩ | ⟨c, rest, -, hb⟩⟩ := (exec_usendl_next h).resolve_right hf
    · exact own
    · exact sendPoll_storeFrame hb

theorem commit_storeFrame {e : Except Stop State} (h : commit s e = .next t) (he : e = .ok t → StoreFrame s t) :
    StoreFrame s t := by
  rcases commit_next h with h | ⟨k, -, rfl⟩
  · exact he h
  · exact .raise s k

theorem engineStep_storeFrame (h : engineStep s = .next t) : StoreFrame s t := by
  unfold engineStep at h
  generalize s.cont = c at h
  cases c with
  | none =>
    rcases fetchStep_next h with ⟨k, rfl⟩ | ⟨w, i, -, -, hi⟩
    · exact .raise s k
    · exact exec_storeFrame i hi
  | modifyStore r ops v next => exact commit_storeFrame h modifyStore_storeFrame
  | startModify delay => exact commit_storeFrame h startModify_storeFrame
  | pollUif delay => exact commit_storeFrame h pollUif_storeFrame
  | ackModify => exact commit_storeFrame h (ackLoad_storeFrame (s := { s with tst := .expired }))
  | sendPoll b rest => exact commit_storeFrame h sendPoll_storeFrame
  | sendStore b rest => exact commit_storeFrame h sendStore_storeFrame
  | recvPoll k kept => exact commit_storeFrame h recvPoll_storeFrame
  | recvLoad k => exact commit_storeFrame h recvLoad_storeFrame

/-- Settles O53: the pins are no device agent's, and a step of the ENGINE changes them only by its one store. -/
theorem pinsChangeOnlyByStores : Obligations.PinsChangeOnlyByStores := by
  intro s t h hne
  obtain ⟨-, -, a, -, ha⟩ := step_next h
  cases a with
  | engine =>
    rcases engineStep_storeFrame ha with ⟨-, ho, -⟩ | ⟨r, v, hr, -, htr, -, ho⟩
    · exact absurd ho hne
    · exact ⟨r, v, overlapped_mem hr, ho.resolve_left hne, htr⟩
  | timer =>
    obtain ⟨u, hu, ⟨k, rfl⟩ | ⟨tm, rfl⟩⟩ := timer_next (takeTurn s) <;> cases hu.symm.trans ha <;> exact absurd rfl hne
  | uartTx =>
    cases ha
    exact absurd rfl hne
  | uartRx =>
    cases ha
    rcases uartRxArrive_next (takeTurn s) with ⟨k, hk⟩ | ⟨u, hu, -⟩
    · exact absurd (by rw [hk]; rfl) hne
    · exact absurd (by rw [hu]; rfl) hne

end Sys2Proof.Machine

/-! ### The ENGINE's half of the invariant (10_state.md R32 to R39) -/

namespace Sys2Proof.Machine

open Sys2Proof.Config

/-- STATUS of every outcome is one R34 allows. -/
theorem statusWord_legal (o : Result) : StatusLegal (statusWord o) := by
  unfold StatusLegal
  rw [statusWord_kind, statusWord_cause, statusWord_count]
  cases o with
  | ok => decide
  | invalidField c => cases c <;> decide
  | bufferOverflow k => simp [kindField, causeField]
  | pinOperation => decide

/-- What MODIFY checks before its load, and what the drivers' modifies meet by R260: the register is readable and writable
and every operation is validated. -/
def ModifyLegal (r : Reg) (ops : List StagedOp) : Prop := canRead r = true ∧ canWrite r = true ∧ OpsLegal r ops

/-- What the invariant says of CONT, apart from where the pc stands (R39). -/
def ContHolds (s : State) : Prop :=
  match s.cont with
  | .modifyStore r ops _ next =>
    r ∈ regsOf s.cfg.regtab ∧ (next = .group → ModifyLegal r ops) ∧
    ∀ base, ServesTimer s.cfg.regtab base → ModifyLegal r ops
  | .sendStore _ _ => ∀ base, accepted s.cfg = true → ServesUart s.cfg.regtab base → s.uart.txe = true
  | .recvLoad _ => ∀ base, accepted s.cfg = true → ServesUart s.cfg.regtab base → s.uart.rxne = true
  | .recvPoll _ (some _) => s.lb.length < s.cfg.capacity
  | .recvPoll _ none | .none | .startModify _ | .pollUif _ | .ackModify | .sendPoll _ _ => True

/-- What the invariant says of the ENGINE's registers, pc, CONT and FAULT apart (R34 to R36). -/
structure RegistersLegal (s : State) : Prop where
  status : StatusLegal s.status
  desc : DescLegal s.cfg.regtab s.desc
  lb : s.lb.length ≤ s.cfg.capacity

/-- A command runs: nothing has faulted, the pc stands at a word of the program, and the registers are legal. -/
structure Running (s : State) : Prop extends RegistersLegal s where
  fault : s.fault = none
  pc_lt : s.pc < s.prog.length

/-- What the invariant says of the ENGINE after a step: nothing has faulted and it is between commands, or part-way through
one that runs. -/
def EngineHolds (s : State) : Prop :=
  (s.fault = none ∧ RegistersLegal s ∧ s.pc ≤ s.prog.length ∧ s.cont = .none) ∨ (Running s ∧ s.desc = .none ∧ ContHolds s)

/-- What the invariant says of the devices and of TRACE (R52, R91, R93, R205). -/
structure DevicesHold (s : State) : Prop where
  modes : ModesClear s.tim
  ore : s.uart.ore = false
  rdr : s.uart.rdr.getLsbD 8 = false
  trace : ∀ e ∈ s.trace, NoReservedStore s.cfg.regtab e

variable {s t u : State}

theorem Inv.devicesHold (h : Inv s) : DevicesHold s := { h with }

/-- The invariant of a state that has not faulted is its two halves. -/
theorem Inv.of_halves (he : EngineHolds t) (hd : DevicesHold t) : Inv t := by
  rcases he with ⟨hf, hr, hpc, hc⟩ | ⟨hr, hdesc, hc⟩
  · exact { hr, hd with
      pc_le := hpc, cont_pc := by simp [hc], cont_desc := by simp [hc], cont := by rw [hc]; trivial
      send := by simp [hc], receive := by simp [hc], modify := by simp [hc], kept := by simp [hc], fault := by simp [hf] }
  · exact { hr, hd with
      pc_le := hr.pc_lt.le
      cont_pc := fun _ => hr.pc_lt
      cont_desc := fun _ => hdesc
      cont := by
        cases h : t.cont with
        | modifyStore r ops v next =>
          simp only [ContHolds, h] at hc
          exact ⟨hc.1, hc.2.1⟩
        | _ => trivial
      send := fun base b rest ha hb h => by
        simp only [ContHolds, h] at hc
        exact hc base ha hb
      receive := fun base k ha hb h => by
        simp only [ContHolds, h] at hc
        exact hc base ha hb
      modify := fun base r ops v next _ hb h => by
        simp only [ContHolds, h] at hc
        exact hc.2.2 base hb
      kept := fun k b h => by
        simpa only [ContHolds, h] using hc
      fault := by simp [hr.fault] }

/-- A state with FAULT set at the pc keeps the invariant: a fault changes nothing else (R356). -/
theorem Inv.raise (h : Inv s) (k : FaultKind) : Inv (s.raise k) :=
  { h with fault := fun f hf => by cases hf; rfl }

namespace Running

theorem complete (h : Running s) (o : Result) : EngineHolds (s.complete o) :=
  .inl ⟨h.fault, { h with status := statusWord_legal o }, h.pc_lt, rfl⟩

theorem advance (h : Running s) : EngineHolds s.advance :=
  .inl ⟨h.fault, { h with }, h.pc_lt, rfl⟩

theorem setX (h : Running s) (i : RegIx) (v : Word) : Running (s.setX i v) := { h with }

/-- The group is closed (R217, R218). -/
theorem closeGroup (h : Running s) : Running { s with desc := .none } := { h with desc := trivial }

theorem memRead (h : Running s) {a : Word} {n : Width} {v : Word} (hm : memRead s a n = .ok (v, u)) : Running u := by
  obtain ⟨k, rx, -, rfl⟩ := memRead_frame hm
  exact { h with }

theorem memWrite (h : Running s) {a : Word} {n : Width} {v : Word} (hm : memWrite s a n v = .ok u) : Running u := by
  obtain ⟨r, w, -, -, -, -, -, rfl⟩ := memWrite_frame hm
  exact { h with }

end Running

/-- A load leaves the table and DESC. -/
theorem memRead_keeps {a : Word} {n : Width} {v : Word} (hm : memRead s a n = .ok (v, u)) :
    u.cfg = s.cfg ∧ u.desc = s.desc := by
  obtain ⟨k, rx, -, rfl⟩ := memRead_frame hm
  exact ⟨rfl, rfl⟩

/-- A store leaves DESC. -/
theorem memWrite_desc {a : Word} {n : Width} {v : Word} (hm : memWrite s a n v = .ok u) : u.desc = s.desc := by
  obtain ⟨r, w, -, -, -, -, -, rfl⟩ := memWrite_frame hm
  rfl

/-! #### The steps with a transaction -/

theorem modifyLoad_holds (h : Running s) (hd : s.desc = .none) {r : Reg} {ops : List StagedOp} {next : AfterModify}
    (hr : r ∈ regsOf s.cfg.regtab) (hgroup : next = .group → ModifyLegal r ops)
    (htimer : ∀ base, ServesTimer s.cfg.regtab base → ModifyLegal r ops) (he : modifyLoad s r ops next = .ok t) :
    EngineHolds t := by
  obtain ⟨v, u, hm, rfl⟩ := modifyLoad_next he
  obtain ⟨hcfg, hdesc⟩ := memRead_keeps hm
  refine .inr ⟨{ h.memRead hm with }, hdesc.trans hd, ?_⟩
  show r ∈ regsOf u.cfg.regtab ∧ _ ∧ ∀ base, ServesTimer u.cfg.regtab base → _
  rw [hcfg]
  exact ⟨hr, hgroup, htimer⟩

theorem modifyStore_holds (h : Running s) (hd : s.desc = .none) {r : Reg} {ops : List StagedOp} {v : Word}
    {next : AfterModify} (he : modifyStore s r ops v next = .ok t) : EngineHolds t := by
  obtain ⟨u, hm, rfl⟩ := modifyStore_next he
  have hu := h.memWrite hm
  match next with
  | .group => exact hu.complete .ok
  | .started false => exact Running.complete (s := { u with tst := .counting }) { hu with } .ok
  | .started true => exact .inr ⟨{ hu with }, (memWrite_desc hm).trans hd, trivial⟩
  | .acknowledged => exact Running.complete (s := { u with tst := .idle }) { hu with } .ok

/-- A start's modify of CR1 sets OPM and CEN, which in the profile are writable bits of a readable and writable register
(R46, R260). -/
theorem startModify_holds (h : Running s) (hd : s.desc = .none) {delay : Bool} (he : startModify s delay = .ok t) :
    EngineHolds t := by
  obtain ⟨r, fo, fe, hr, hfo, hfe, hm⟩ := startModify_next he
  refine modifyLoad_holds h hd (regNamed_mem hr) (by simp) (fun base hb => ?_) hm
  cases hr.symm.trans hb.1
  cases hfo
  cases hfe
  refine ⟨rfl, rfl, fun o ho => ?_⟩
  obtain rfl | rfl : o = _ ∨ o = _ := by simpa using ho
  · exact ⟨by simp [timCr1, bitField], rfl, by decide⟩
  · exact ⟨by simp [timCr1, bitField], rfl, by decide⟩

/-- An acknowledge's modify of SR clears UIF, in the profile a writable bit of a readable and writable register (R46,
R260). -/
theorem ackLoad_holds (h : Running s) (hd : s.desc = .none) (he : ackLoad s = .ok t) : EngineHolds t := by
  obtain ⟨r, f, hr, hf, hm⟩ := ackLoad_next he
  refine modifyLoad_holds h hd (regNamed_mem hr) (by simp) (fun base hb => ?_) hm
  cases hr.symm.trans hb.2.1
  cases hf
  refine ⟨rfl, rfl, fun o ho => ?_⟩
  cases List.mem_singleton.1 ho
  exact ⟨by simp [timSr], rfl, by decide⟩

theorem startTimer_holds (h : Running s) (hd : s.desc = .none) {n : Word} {delay : Bool}
    (he : startTimer s n delay = .ok t) : EngineHolds t := by
  obtain ⟨r, f, u, -, -, hm, rfl⟩ := startTimer_next he
  exact .inr ⟨{ h.memWrite hm with }, (memWrite_desc hm).trans hd, trivial⟩

theorem checkedStart_holds (h : Running s) (hd : s.desc = .none) {n : Word} {delay : Bool}
    (he : checkedStart s n delay = .ok t) : EngineHolds t := by
  rcases checkedStart_next he with rfl | rfl | hm
  · exact h.complete _
  · exact h.complete .ok
  · exact startTimer_holds h hd hm

theorem pollUif_holds (h : Running s) (hd : s.desc = .none) {delay : Bool} (he : pollUif s delay = .ok t) :
    EngineHolds t := by
  obtain ⟨r, f, v, u, -, -, hm, ht⟩ := pollUif_next he
  have hu : Running u ∧ u.desc = .none := by
    cases delay with
    | false => exact ⟨h.memRead hm, (memRead_keeps hm).2.trans hd⟩
    | true => exact ⟨Running.memRead (s := { s with tst := .counting }) { h with } hm, (memRead_keeps hm).2.trans hd⟩
  obtain ⟨hu, hdu⟩ := hu
  rcases ht with ⟨-, rfl⟩ | ⟨-, ⟨-, rfl⟩ | ⟨-, rfl⟩⟩
  · exact .inr ⟨{ hu with }, hdu, trivial⟩
  · exact .inr ⟨{ hu with }, hdu, trivial⟩
  · exact Running.complete (s := { u with tst := .expired }) { hu with } .ok

theorem pinStore_holds (h : Running s) {p : Half} {bit : Nat} (he : pinStore s p bit = .ok t) : EngineHolds t := by
  rcases pinStore_next he with ⟨-, rfl⟩ | ⟨r, u, -, -, hm, rfl⟩
  · exact h.complete _
  · have hu := h.memWrite hm
    unfold completePin
    split
    · exact Running.complete (s := u.drawn) { hu with } _
    · exact hu.complete _

/-- A send goes on to its store only where, with the profile's registers, its poll has seen TXE set (R310). -/
theorem sendPoll_holds (h : Running s) (hd : s.desc = .none) {b : Byte} {rest : List Byte}
    (he : sendPoll s b rest = .ok t) : EngineHolds t := by
  have ht : ∀ base, accepted s.cfg = true → ServesUart s.cfg.regtab base → t.cont = .sendStore b rest →
      t.uart.txe = true := by
    intro base ha hb hc
    cases (sendPoll_profile ha hb b rest).symm.trans he
    simpa using hc
  obtain ⟨r, f, v, u, -, -, hm, rfl⟩ := sendPoll_next he
  obtain ⟨hcfg, hdesc⟩ := memRead_keeps hm
  refine .inr ⟨{ h.memRead hm with }, hdesc.trans hd, ?_⟩
  unfold ContHolds
  by_cases hv : extract v f = 1#32
  · simp only [hv, if_true, hcfg] at ht ⊢
    exact fun base ha hb => ht base ha hb trivial
  · simp only [hv, if_false]

theorem sendStore_holds (h : Running s) (hd : s.desc = .none) {b : Byte} {rest : List Byte}
    (he : sendStore s b rest = .ok t) : EngineHolds t := by
  obtain ⟨r, f, u, -, -, hm, ⟨-, rfl⟩ | ⟨c, cs, -, rfl⟩⟩ := sendStore_next he
  · exact (h.memWrite hm).complete .ok
  · exact .inr ⟨{ h.memWrite hm with }, (memWrite_desc hm).trans hd, trivial⟩

/-- A receive goes on to its load of RDR only where, with the profile's registers, its poll has seen RXNE set (R311); the
byte kept before has a place in LB (R315). -/
theorem recvPoll_holds (h : Running s) (hd : s.desc = .none) {k : Receive} {kept : Option Byte}
    (hk : kept ≠ none → s.lb.length < s.cfg.capacity) (he : recvPoll s k kept = .ok t) : EngineHolds t := by
  have ht : ∀ base, accepted s.cfg = true → ServesUart s.cfg.regtab base → t.cont = .recvLoad k →
      t.uart.rxne = true := by
    intro base ha hb hc
    cases (recvPoll_profile ha hb k kept).symm.trans he
    simpa using hc
  have hkeep : Running (keepByte s kept) ∧ (keepByte s kept).cfg = s.cfg ∧ (keepByte s kept).desc = .none := by
    cases kept with
    | none => exact ⟨h, rfl, hd⟩
    | some b => exact ⟨{ h with lb := by simpa [keepByte] using hk (by simp) }, rfl, hd⟩
  obtain ⟨hrun, hkcfg, hkdesc⟩ := hkeep
  obtain ⟨r, f, v, u, -, -, hm, rfl⟩ := recvPoll_next he
  obtain ⟨hcfg, hdesc⟩ := memRead_keeps hm
  refine .inr ⟨{ hrun.memRead hm with }, hdesc.trans hkdesc, ?_⟩
  unfold ContHolds
  by_cases hv : extract v f = 1#32
  · simp only [hv, if_true, hcfg, hkcfg] at ht ⊢
    exact fun base ha hb => ht base ha hb trivial
  · simp only [hv, if_false]

/-- A received byte of a line is kept only where LB has a place for it (R315, R319). -/
theorem recvLoad_holds (h : Running s) (hd : s.desc = .none) {k : Receive} (he : recvLoad s k = .ok t) :
    EngineHolds t := by
  obtain ⟨r, f, v, u, -, -, hm, rfl⟩ := recvLoad_next he
  have hu := h.memRead hm
  have hdu := (memRead_keeps hm).2.trans hd
  unfold received
  split
  · exact (hu.setX _ _).complete .ok
  · split
    · exact (hu.setX _ _).complete _
    · split
      · rename_i hlt
        exact .inr ⟨{ hu with }, hdu, hlt⟩
      · exact .inr ⟨{ hu with }, hdu, trivial⟩

/-! #### Staging -/

/-- A staging command for a field keeps DESC legal: what it stages is validated (R206, R213 to R215). -/
theorem stageField_legal {tab : RegTab} {r : Option Reg} {ops : List StagedOp} {p : Option Cause}
    (h : DescLegal tab (.opened r ops p)) (i : Byte) (x : Word) {mk : Field → Word → StagedOp}
    (hmk : ∀ q f, f ∈ q.decl.fields → writable f.perm = true → fits x f = true → OpLegal q (mk f x)) :
    DescLegal tab (stageField r ops p i x mk) := by
  unfold stageField
  split
  · exact h
  · exact nofun
  · rename_i q
    obtain ⟨hq, hops⟩ := h
    split
    · exact ⟨hq, hops⟩
    · rename_i f hf
      split
      · exact ⟨hq, hops⟩
      · rename_i hw
        split
        · exact ⟨hq, hops⟩
        · rename_i hx
          refine ⟨hq, List.forall_mem_append.2 ⟨hops, fun o ho => ?_⟩⟩
          rw [List.mem_singleton.1 ho]
          exact hmk q f (fieldAt_mem hf) (by simpa using hw) (by simpa using hx)

/-- A value that DBITS accepts lies within the register's writable bits: it sets no declared bit that is not writable, no
reserved bit, and none beyond the width (R216). -/
theorem bits_within_writable {r : Reg} {x : Word} (hdecl : x &&& declaredMask r &&& ~~~writableMask r = 0#32)
    (hres : x &&& reservedMask r = 0#32) (hwide : x.toNat < 2 ^ r.decl.width.bits) :
    x &&& ~~~writableMask r = 0#32 := by
  have hw := within_width_iff.2 hwide
  refine BitVec.eq_of_getLsbD_eq fun i hi => ?_
  have h1 := congrArg (BitVec.getLsbD · i) hdecl
  have h2 := congrArg (BitVec.getLsbD · i) hres
  have h3 := congrArg (BitVec.getLsbD · i) hw
  simp only [reservedMask, BitVec.getLsbD_and, BitVec.getLsbD_not, BitVec.getLsbD_zero, hi, decide_true,
    Bool.true_and] at h1 h2 h3 ⊢
  revert h1 h2 h3
  generalize x.getLsbD i = a, (declaredMask r).getLsbD i = d, (writableMask r).getLsbD i = w,
    (widthMask r).getLsbD i = m
  revert a d w m
  decide

/-- DBITS keeps DESC legal (R206, R216). -/
theorem stageBits_legal {tab : RegTab} {r : Option Reg} {ops : List StagedOp} {p : Option Cause}
    (h : DescLegal tab (.opened r ops p)) (x : Word) : DescLegal tab (stageBits r ops p x) := by
  unfold stageBits
  split
  · exact h
  · exact nofun
  · rename_i q
    obtain ⟨hq, hops⟩ := h
    split
    · exact ⟨hq, hops⟩
    · rename_i hdecl
      split
      · exact ⟨hq, hops⟩
      · rename_i hres
        split
        · exact ⟨hq, hops⟩
        · rename_i hwide
          refine ⟨hq, List.forall_mem_append.2 ⟨hops, fun o ho => ?_⟩⟩
          rw [List.mem_singleton.1 ho]
          exact bits_within_writable (by simpa using hdecl) (by simpa using hres) (Nat.lt_of_not_le hwide)

/-- A staging command that leaves DESC legal. -/
theorem Running.stage (h : Running s) {d : Desc} (hd : DescLegal s.cfg.regtab d) :
    EngineHolds { s with desc := d }.advance :=
  Running.advance { h with desc := hd }

/-! #### A command's first step, and every step -/

/-- A command's first step that is no fault leaves the ENGINE between commands or part-way through this one. -/
theorem exec_holds (h : Running s) (i : Instr) (he : exec i s = .next t) : (∃ k, t = s.raise k) ∨ EngineHolds t := by
  by_cases hf : ∃ k, t = s.raise k
  · exact .inl hf
  refine .inr ?_
  cases i with
  | li d imm =>
    obtain ⟨-, ⟨⟩⟩ := (outsideGroup_next he).resolve_right hf
    exact (h.setX d _).complete _
  | lih d imm =>
    obtain ⟨-, w, -, ⟨⟩⟩ := (outsideGroup_getX_next he).resolve_right hf
    exact (h.setX d _).complete _
  | gets d =>
    obtain ⟨-, ⟨⟩⟩ := (outsideGroup_next he).resolve_right hf
    exact (h.setX d _).advance
  | ldv d b wc =>
    obtain ⟨-, n, a, w, u, -, -, hm, rfl⟩ := (exec_ldv_next he).resolve_right hf
    exact ((h.memRead hm).setX d w).complete _
  | stv v b wc =>
    obtain ⟨-, n, a, w, -, -, -, ⟨-, rfl⟩ | ⟨u, -, hm, rfl⟩⟩ := (exec_stv_next he).resolve_right hf
    · exact h.complete _
    · exact (h.memWrite hm).complete _
  | rread d sel =>
    obtain ⟨-, ⟨c, rfl⟩ | ⟨r, w, u, -, -, hm, rfl⟩⟩ := (exec_rread_next he).resolve_right hf
    · exact h.complete _
    · exact ((h.memRead hm).setX d w).complete _
  | rfield d sel fld =>
    obtain ⟨-, ⟨c, rfl⟩ | ⟨r, f, w, u, -, -, -, -, hm, rfl⟩⟩ := (exec_rfield_next he).resolve_right hf
    · exact h.complete _
    · exact ((h.memRead hm).setX d _).complete _
  | dbegin sel =>
    obtain ⟨-, ⟨-, rfl⟩ | ⟨r, hr, rfl⟩⟩ := (exec_dbegin_next he).resolve_right hf
    · exact h.stage (Option.some_ne_none _)
    · exact h.stage ⟨resolve_mem hr, nofun⟩
  | dset v fld =>
    obtain ⟨r, ops, p, w, hd, -, ⟨⟩⟩ := (insideGroup_getX_next he).resolve_right hf
    exact h.stage (stageField_legal (hd ▸ h.desc) _ _ fun _ _ hmem hw hx => ⟨hmem, hw, hx⟩)
  | dseti fld imm =>
    obtain ⟨r, ops, p, hd, ⟨⟩⟩ := (insideGroup_next he).resolve_right hf
    exact h.stage (stageField_legal (hd ▸ h.desc) _ _ fun _ _ hmem hw hx => ⟨hmem, hw, hx⟩)
  | dxor v fld =>
    obtain ⟨r, ops, p, w, hd, -, ⟨⟩⟩ := (insideGroup_getX_next he).resolve_right hf
    exact h.stage (stageField_legal (hd ▸ h.desc) _ _ fun _ _ hmem hw hx => ⟨hmem, hw, hx⟩)
  | dbits v =>
    obtain ⟨r, ops, p, w, hd, -, ⟨⟩⟩ := (insideGroup_getX_next he).resolve_right hf
    exact h.stage (stageBits_legal (hd ▸ h.desc) _)
  | write =>
    obtain ⟨r, ops, p, -, ⟨c, rfl⟩ | ⟨q, u, -, -, -, hm, rfl⟩⟩ := (exec_write_next he).resolve_right hf
    · exact h.closeGroup.complete _
    · exact (h.closeGroup.memWrite hm).complete _
  | modify =>
    obtain ⟨r, ops, p, hd, ⟨c, rfl⟩ | ⟨q, rfl, -, hr, hw, hm⟩⟩ := (exec_modify_next he).resolve_right hf
    · exact h.closeGroup.complete _
    · obtain ⟨hq, hops⟩ : DescLegal s.cfg.regtab (.opened (some q) ops p) := hd ▸ h.desc
      exact modifyLoad_holds h.closeGroup rfl hq (fun _ => ⟨hr, hw, hops⟩) (fun _ _ => ⟨hr, hw, hops⟩) hm
  | tstart v =>
    obtain ⟨hd, n, -, hb⟩ := (outsideGroup_getX_next he).resolve_right hf
    exact checkedStart_holds h hd hb
  | tstarti imm =>
    obtain ⟨hd, hb⟩ := (outsideGroup_next he).resolve_right hf
    exact startTimer_holds h hd hb
  | tpoll =>
    obtain ⟨hd, hb⟩ := (outsideGroup_next he).resolve_right hf
    exact pollUif_holds h hd hb
  | tack =>
    obtain ⟨hd, hb⟩ := (outsideGroup_next he).resolve_right hf
    exact ackLoad_holds h hd hb
  | delay v =>
    obtain ⟨hd, n, -, hb⟩ := (outsideGroup_getX_next he).resolve_right hf
    exact checkedStart_holds h hd hb
  | delayi imm =>
    obtain ⟨hd, ⟨-, rfl⟩ | ⟨-, hb⟩⟩ := (exec_delayi_next he).resolve_right hf
    · exact h.complete _
    · exact startTimer_holds h hd hb
  | pon imm => exact pinStore_holds h ((outsideGroup_next he).resolve_right hf).2
  | poff imm => exact pinStore_holds h ((outsideGroup_next he).resolve_right hf).2
  | usend v =>
    obtain ⟨hd, w, -, ⟨-, rfl⟩ | ⟨-, hb⟩⟩ := (exec_usend_next he).resolve_right hf
    · exact h.complete _
    · exact sendPoll_holds h hd hb
  | usendi b =>
    obtain ⟨hd, hb⟩ := (outsideGroup_next he).resolve_right hf
    exact sendPoll_holds h hd hb
  | urecv d =>
    obtain ⟨hd, hb⟩ := (outsideGroup_next he).resolve_right hf
    exact recvPoll_holds h hd (absurd rfl) hb
  | uline d =>
    obtain ⟨hd, hb⟩ := (outsideGroup_next he).resolve_right hf
    exact recvPoll_holds (s := { s with lb := [] }) { h with lb := Nat.zero_le _ } hd (absurd rfl) hb
  | lrev =>
    obtain ⟨-, ⟨⟩⟩ := (outsideGroup_next he).resolve_right hf
    exact Running.complete (s := { s with lb := s.lb.reverse }) { h with lb := by simpa using h.lb } .ok
  | usendl =>
    obtain ⟨hd, ⟨-, rfl⟩ | ⟨c, rest, -, hb⟩⟩ := (exec_usendl_next he).resolve_right hf
    · exact h.complete _
    · exact sendPoll_holds h hd hb

theorem commit_holds {e : Except Stop State} (h : commit s e = .next t) (he : e = .ok t → EngineHolds t) :
    (∃ k, t = s.raise k) ∨ EngineHolds t := by
  rcases commit_next h with h | ⟨k, -, rfl⟩
  · exact .inr (he h)
  · exact .inl ⟨k, rfl⟩

/-- The ENGINE's half of the invariant is kept by every step of the ENGINE. -/
theorem engineStep_holds (hi : Inv s) (hf : s.fault = none) (h : engineStep s = .next t) :
    (∃ k, t = s.raise k) ∨ EngineHolds t := by
  have run : s.pc < s.prog.length → Running s := fun hpc => { hi with fault := hf, pc_lt := hpc }
  unfold engineStep at h
  have hpc := hi.cont_pc
  have hdesc := hi.cont_desc
  have hkept := hi.kept
  generalize s.cont = c at h hpc hdesc hkept
  cases c with
  | none =>
    rcases fetchStep_next h with hk | ⟨w, i, hw, -, he⟩
    · exact .inl hk
    · exact exec_holds (run (List.getElem?_eq_some_iff.1 hw).1) i he
  | modifyStore r ops v next => exact commit_holds h (modifyStore_holds (run (hpc nofun)) (hdesc nofun))
  | startModify delay => exact commit_holds h (startModify_holds (run (hpc nofun)) (hdesc nofun))
  | pollUif delay => exact commit_holds h (pollUif_holds (run (hpc nofun)) (hdesc nofun))
  | ackModify =>
    exact commit_holds h (ackLoad_holds (s := { s with tst := .expired }) { run (hpc nofun) with } (hdesc nofun))
  | sendPoll b rest => exact commit_holds h (sendPoll_holds (run (hpc nofun)) (hdesc nofun))
  | sendStore b rest => exact commit_holds h (sendStore_holds (run (hpc nofun)) (hdesc nofun))
  | recvPoll k kept =>
    refine commit_holds h (recvPoll_holds (run (hpc nofun)) (hdesc nofun) fun hk => ?_)
    obtain ⟨b, rfl⟩ := Option.ne_none_iff_exists'.1 hk
    exact hkept k b rfl
  | recvLoad k => exact commit_holds h (recvLoad_holds (run (hpc nofun)) (hdesc nofun))

/-- The devices' half of the invariant is kept by every step of the ENGINE: TRACE grows at most by one load, or by one
store of no reserved bit (R91). -/
theorem engineStep_devicesHold (hi : DevicesHold s) (h : engineStep s = .next t) : DevicesHold t := by
  have f := engineStep_frame h
  have hmodes : ModesClear t.tim := by
    rcases engineStep_storeFrame h with ⟨htim, -, -⟩ | ⟨r, v, -, -, -, hm, -⟩
    · rw [htim]
      exact hi.modes
    · exact hm hi.modes
  refine ⟨hmodes, f.ore.trans hi.ore, by rw [f.rdr]; exact hi.rdr, ?_⟩
  rw [f.cfg]
  rcases engineStep_storeFrame h with ⟨-, -, htr | ⟨a, n, v, htr⟩⟩ | ⟨r, v, hr, hz, htr, -, -⟩ <;> rw [htr]
  · exact hi.trace
  · refine List.forall_mem_append.2 ⟨hi.trace, fun e he => ?_⟩
    rw [List.mem_singleton.1 he]
    trivial
  · refine List.forall_mem_append.2 ⟨hi.trace, fun e he => ?_⟩
    rw [List.mem_singleton.1 he]
    intro q hq
    cases hr.symm.trans hq
    exact hz

/-- A tick keeps the mode bits of CR1 (R370). -/
theorem tickTimer_modes {tm : Timer} (h : ModesClear tm) : ModesClear (tickTimer tm) := by
  unfold tickTimer
  split
  · exact h
  · exact h

/-- Every step of an agent, from a state that has not faulted, keeps the invariant. -/
theorem agentStep_inv {a : Agent} (hi : Inv s) (hf : s.fault = none) (h : agentStep s a = .next t) : Inv t := by
  cases a with
  | engine =>
    rcases engineStep_holds hi hf h with ⟨k, rfl⟩ | he
    · exact hi.raise k
    · exact .of_halves he (engineStep_devicesHold hi.devicesHold h)
  | timer =>
    cases h
    unfold timerTick
    split
    · exact hi.raise _
    · exact { hi with modes := tickTimer_modes hi.modes }
  | uartTx =>
    cases h
    exact { hi with send := fun _ _ _ _ _ _ => rfl }
  | uartRx =>
    obtain ⟨u, hu, rfl | ⟨k, rfl⟩ | ⟨b, rest, -, -, rfl⟩⟩ := uartRx_next s <;> cases hu.symm.trans h
    · exact hi
    · exact hi.raise k
    · exact { hi with receive := fun _ _ _ _ _ => rfl, rdr := by simp }

/-- Settles O58: a step is one agent's, after the model's schedule has moved on, and keeps the ENGINE's and the devices'
halves of the invariant. -/
theorem stepKeepsInvariant : Obligations.StepKeepsInvariant := by
  intro s t hi h
  obtain ⟨hf, -, a, -, ha⟩ := step_next h
  exact agentStep_inv (s := takeTurn s) { hi with } hf ha

end Sys2Proof.Machine

/-! ### Reset, launch, and the words of STATUS (70_reset_and_hazards.md R54, R401, R405; 10_state.md R34) -/

namespace Sys2Proof.Machine

open Sys2Proof.Config

/-- Where a launch starts, the invariant holds, whatever the host gave (R54, R401). -/
theorem launched_inv (l : Launch) : Inv (launched l) := by
  refine .of_halves (.inl ⟨rfl, ⟨?_, trivial, Nat.zero_le _⟩, Nat.zero_le _, rfl⟩)
    ⟨⟨rfl, rfl, rfl, rfl⟩, rfl, ?_, nofun⟩
  · show StatusLegal 0#32
    decide
  · show (l.rdr.setWidth 9).getLsbD 8 = false
    simp

/-- Where an accepted launch starts, the launch premises hold (R405). -/
theorem launched_premises {l : Launch} (ha : accepted l.cfg = true)
    (hs : tableServesProgram l.cfg.regtab l.prog = true) : LaunchPremises (launched l) :=
  ⟨⟨rfl, rfl, rfl, rfl, rfl, rfl, rfl, rfl⟩, rfl, ⟨ha, hs⟩, ⟨rfl, rfl, rfl, rfl, rfl, rfl, rfl⟩, ⟨rfl, rfl, rfl, rfl⟩⟩

/-- The launch that starts in the state after reset (log entries 5 and 6). -/
def resetLaunch : Launch where
  cfg := defaultParams
  prog := []
  x := Vector.replicate 16 none
  input := []
  opm := false
  psc := 0#16
  arr := 0xFFFF#16
  odr := 0#16
  tdr := 0#8
  rdr := 0#8
  turns := []

theorem launched_resetLaunch : launched resetLaunch = State.reset := rfl

/-- Settles O56: reset is where an accepted launch starts, and every launch with a run is accepted. -/
theorem launchMeetsPremises : Obligations.LaunchMeetsPremises := by
  refine ⟨?_, fun l => ⟨fun s h => ?_, fun h => ?_⟩⟩
  · rw [← launched_resetLaunch]
    exact ⟨launched_premises (by decide) rfl, launched_inv _⟩
  · unfold State.launch at h
    split at h
    · rename_i hc
      obtain ⟨ha, hs⟩ := Bool.and_eq_true_iff.1 hc
      cases h
      exact ⟨launched_premises ha hs, launched_inv l⟩
    · cases h
  · simp [State.launch, h]

/-- Settles O57: the values of R54 and R401 as `State.reset` gives them. -/
theorem resetState : Obligations.ResetState :=
  ⟨rfl, fun i => Vector.getElem_replicate i.isLt, rfl, rfl, rfl, rfl, rfl, rfl, rfl, rfl, rfl, rfl, rfl, ⟨rfl, rfl, rfl, rfl⟩,
    rfl, rfl, rfl, rfl⟩

/-- The STATUS word as a number: COUNT, CAUSE and KIND are its digits (R34). -/
theorem statusWord_toNat (o : Result) :
    (statusWord o).toNat = (countField o).toNat * 65536 + (causeField o).toNat * 256 + (kindField o).toNat := by
  have hcause := (causeField o).isLt
  have hkind := (kindField o).isLt
  rw [statusWord, BitVec.toNat_append, ← Nat.shiftLeft_add_eq_or_of_lt hkind, BitVec.toNat_append,
    ← Nat.shiftLeft_add_eq_or_of_lt hcause]
  simp only [Nat.shiftLeft_eq]
  omega

/-- Settles O60: the fields of each outcome, COUNT saturated (D48). -/
theorem statusCodes : Obligations.StatusCodes := by
  refine ⟨rfl, fun c => by cases c <;> rfl, rfl, fun k => ?_⟩
  simp [statusWord_toNat, countField, causeField, kindField]

end Sys2Proof.Machine

/-! ### Faults and reports of LDV and STV (41_volatile.md R181, R182; 20_memory.md R88 to R99) -/

namespace Sys2Proof.Machine

open Sys2Proof.Config

variable {s : State} {c : Params} {addr v : Word} {n : Width} {dir : Dir} {r : Reg}

/-! #### The checks of a transaction, in the order of R88 -/

theorem classify_unbacked (hb : backedAt c addr = false) :
    classify c addr n dir = .error (.raise (.hardFault addr n dir false)) := by
  simp [classify, hb]

theorem classify_misaligned (hb : backedAt c addr = true) (ha : addr.toNat % n.bytes ≠ 0) :
    classify c addr n dir = .error (.raise (.hardFault addr n dir true)) := by
  simp [classify, hb, ha]

theorem classify_mixed (hb : backedAt c addr = true) (ha : addr.toNat % n.bytes = 0)
    (ho : overlapped c.regtab addr n = some r) (hm : ¬(addrOf r = addr ∧ r.decl.width = n)) :
    classify c addr n dir = .error (.raise (.unmodelledAccess addr n dir)) := by
  simp [classify, hb, ha, ho, hm]

theorem classify_undeclared (hb : backedAt c addr = true) (ha : addr.toNat % n.bytes = 0)
    (ho : overlapped c.regtab addr n = none) : classify c addr n dir = .ok none := by
  simp [classify, hb, ha, ho]

theorem classify_exact (hb : backedAt c addr = true) (ha : addr.toNat % n.bytes = 0)
    (ho : overlapped c.regtab addr n = some r) (hm : addrOf r = addr ∧ r.decl.width = n) :
    classify c addr n dir = .ok (some r) := by
  simp [classify, hb, ha, ho, hm]

theorem memRead_classify_error {e : Stop} (h : classify s.cfg addr n .load = .error e) :
    memRead s addr n = .error e := by
  simp [memRead, h]

theorem memWrite_classify_error {e : Stop} (h : classify s.cfg addr n .store = .error e) :
    memWrite s addr n v = .error e := by
  simp [memWrite, h]

/-- A store to no declared register faults (R91, R99). -/
theorem memWrite_undeclared (h : classify s.cfg addr n .store = .ok none) :
    memWrite s addr n v = .error (.raise (.unmodelledAccess addr n .store)) := by
  simp [memWrite, h]

theorem memWrite_readOnly (h : classify s.cfg addr n .store = .ok (some r)) (hp : r.decl.perm = .ro) :
    memWrite s addr n v = .error (.raise (.unmodelledAccess addr n .store)) := by
  simp [memWrite, h, hp]

theorem memWrite_reserved (h : classify s.cfg addr n .store = .ok (some r)) (hp : r.decl.perm ≠ .ro)
    (hz : v &&& reservedMask r ≠ 0#32) : memWrite s addr n v = .error (.raise (.reservedWrite addr v)) := by
  simp [memWrite, h, hp, hz]

/-- The device guards stop a store with the fault of R93 or R98. -/
theorem deviceStore_guard {k : FaultKind} (h : guardFault s r.decl.name v = some k) :
    deviceStore s r v = .error (.raise k) := by
  unfold deviceStore
  cases hn : r.decl.name with
  | timCr1 =>
    simp only [hn, guardFault] at h
    split at h <;> cases h
    rename_i hbits
    simp only [hbits, if_true]
  | uartTdr =>
    simp only [hn, guardFault] at h
    split at h
    · rename_i ht
      cases h
      simp only [ht, if_true]
    · rename_i ht
      split at h <;> cases h
      rename_i h8
      simp [ht, h8]
  | _ => simp [hn, guardFault] at h

theorem memWrite_guard (h : classify s.cfg addr n .store = .ok (some r)) (hp : r.decl.perm ≠ .ro)
    (hz : v &&& reservedMask r = 0#32) {k : FaultKind} (hg : guardFault s r.decl.name v = some k) :
    memWrite s addr n v = .error (.raise k) := by
  simp [memWrite, h, hp, hz, deviceStore_guard hg]

/-! #### The commands -/

variable {d b w : RegIx} {wc : BitVec 2}

theorem exec_ldv_unwritten (hd : s.desc = .none) (hwc : widthOfCode wc = some n) (hb : s.xAt b = none) :
    exec (.ldv d b wc) s = .next (s.raise (.unwrittenRegister b)) := by
  simp only [exec, execLdv, hwc, outsideGroup_none hd, getX_none hb, bind, Except.bind, commit_raise]

/-- An LDV faults where its load does. -/
theorem exec_ldv_fault (hd : s.desc = .none) (hwc : widthOfCode wc = some n) (hb : s.xAt b = some addr) {k : FaultKind}
    (hm : memRead s addr n = .error (.raise k)) : exec (.ldv d b wc) s = .next (s.raise k) := by
  simp only [exec, execLdv, hwc, outsideGroup_none hd, getX_some hb, hm, bind, Except.bind, commit_raise]

/-- Settles O16: the register is read before the address is checked, and the checks are those of R88 in its order. -/
theorem ldvFaultOrder : Obligations.LdvFaultOrder := by
  intro s d b wc n hd hwc
  refine ⟨exec_ldv_unwritten hd hwc, fun addr hb => ⟨fun hn => ?_, fun hn ha => ?_, fun r hn ha ho hm => ?_⟩⟩
  · exact exec_ldv_fault hd hwc hb (memRead_classify_error (classify_unbacked hn))
  · exact exec_ldv_fault hd hwc hb (memRead_classify_error (classify_misaligned hn ha))
  · exact exec_ldv_fault hd hwc hb (memRead_classify_error (classify_mixed hn ha ho hm))

theorem exec_stv_unwritten_address (hd : s.desc = .none) (hwc : widthOfCode wc = some n) (hb : s.xAt b = none) :
    exec (.stv w b wc) s = .next (s.raise (.unwrittenRegister b)) := by
  simp only [exec, execStv, hwc, outsideGroup_none hd, getX_none hb, bind, Except.bind, commit_raise]

theorem exec_stv_unwritten_value (hd : s.desc = .none) (hwc : widthOfCode wc = some n) (hb : s.xAt b = some addr)
    (hw : s.xAt w = none) : exec (.stv w b wc) s = .next (s.raise (.unwrittenRegister w)) := by
  simp only [exec, execStv, hwc, outsideGroup_none hd, getX_some hb, getX_none hw, bind, Except.bind, commit_raise]

theorem exec_stv_tooWide (hd : s.desc = .none) (hwc : widthOfCode wc = some n) (hb : s.xAt b = some addr)
    (hw : s.xAt w = some v) (hv : 2 ^ n.bits ≤ v.toNat) : exec (.stv w b wc) s = .next (s.report .valueTooWide) := by
  simp only [exec, execStv, hwc, outsideGroup_none hd, getX_some hb, getX_some hw, hv, if_true, bind, Except.bind,
    commit_ok]

/-- An STV of a value that fits its width faults where its store does. -/
theorem exec_stv_fault (hd : s.desc = .none) (hwc : widthOfCode wc = some n) (hb : s.xAt b = some addr)
    (hw : s.xAt w = some v) (hv : v.toNat < 2 ^ n.bits) {k : FaultKind}
    (hm : memWrite s addr n v = .error (.raise k)) : exec (.stv w b wc) s = .next (s.raise k) := by
  simp only [exec, execStv, hwc, outsideGroup_none hd, getX_some hb, getX_some hw, Nat.not_le.2 hv, if_false, hm, bind,
    Except.bind, commit_raise]

/-- Settles O17: the two registers are read first, then the width is checked; a store of a value that fits meets the
checks of R88, R91, R93 and R98 in their order. -/
theorem stvFaultOrder : Obligations.StvFaultOrder := by
  intro s w b wc n hd hwc
  refine ⟨exec_stv_unwritten_address hd hwc, fun addr hb => ⟨exec_stv_unwritten_value hd hwc hb, fun v hw =>
    ⟨exec_stv_tooWide hd hwc hb hw, fun hv hn => ?_, fun hv hn ha => ?_, fun hv hn ha => ⟨fun ho => ?_, fun r ho => ?_⟩⟩⟩⟩
  · exact exec_stv_fault hd hwc hb hw hv (memWrite_classify_error (classify_unbacked hn))
  · exact exec_stv_fault hd hwc hb hw hv (memWrite_classify_error (classify_misaligned hn ha))
  · exact exec_stv_fault hd hwc hb hw hv (memWrite_undeclared (classify_undeclared hn ha ho))
  · have fault : ∀ {k}, memWrite s addr n v = .error (.raise k) → exec (.stv w b wc) s = .next (s.raise k) :=
      exec_stv_fault hd hwc hb hw hv
    refine ⟨fun hbad => ?_, fun haddr hwidth hp => ?_⟩
    · by_cases hm : addrOf r = addr ∧ r.decl.width = n
      · exact fault (memWrite_readOnly (classify_exact hn ha ho hm) (hbad.resolve_left (not_not_intro hm)))
      · exact fault (memWrite_classify_error (classify_mixed hn ha ho hm))
    · have hc : classify s.cfg addr n .store = .ok (some r) := classify_exact hn ha ho ⟨haddr, hwidth⟩
      refine ⟨fun hz => ?_, fun hz hname hg => ?_, fun hz hname ht => ?_, fun hz hname ht h8 => ?_⟩
      · exact fault (memWrite_reserved hc hp hz)
      · refine fault (memWrite_guard hc hp hz ?_)
        simp only [hname, guardFault, Option.ite_none_right_eq_some, and_true]
        simpa [StoreAllowed, imp_iff_not_or, or_assoc] using hg
      · exact fault (memWrite_guard hc hp hz (by simp [hname, guardFault, ht]))
      · exact fault (memWrite_guard hc hp hz (by simp [hname, guardFault, ht, h8]))

end Sys2Proof.Machine

/-! ### Operands of the drivers' commands (43_timer.md R261, R265, 45_uart.md R312) -/

namespace Sys2Proof.Machine

open Sys2Proof.Config

variable {s : State}

/-- A value fits the period field of the profile exactly when it is a 16-bit number (R46, R261). -/
theorem fits_arr (n : Word) : fits n ⟨.arr, 0, 15, .rw⟩ = decide (n.toNat ≤ 0xFFFF) :=
  decide_eq_decide.2 Nat.lt_succ_iff

/-- The checked start of TSTART and DELAY, with the profile's period field (R261, R265). -/
theorem checkedStart_profile {base : Word} (hb : ServesTimer s.cfg.regtab base) (n : Word) (delay : Bool) :
    checkedStart s n delay =
      if 0xFFFF < n.toNat then .ok (s.report .valueTooWide)
      else if delay && n == 0#32 then .ok (s.complete .ok)
      else startTimer s n delay := by
  have hr : needReg s .timArr = .ok ⟨base, timArr⟩ := needReg_ok.2 hb.2.2
  have hf : needField ⟨base, timArr⟩ .arr = .ok ⟨.arr, 0, 15, .rw⟩ := needField_ok.2 rfl
  simp only [checkedStart, hr, hf, fits_arr, bind, Except.bind, decide_eq_false_iff_not, Nat.not_le]

/-- Settles O28: the operand is read first, then its width is checked. -/
theorem driverOperandErrors : Obligations.DriverOperandErrors := by
  intro s v hd
  refine ⟨fun base n hb hv hwide => ?_, fun hv => ?_, fun n hv hwide => ?_⟩
  · have hrep : ∀ delay, checkedStart s n delay = .ok (s.report .valueTooWide) := fun delay => by
      simp only [checkedStart_profile hb, hwide, if_true]
    constructor
    · simp only [exec, execTstart, outsideGroup_none hd, getX_some hv, hrep, bind, Except.bind, commit_ok]
      rfl
    · simp only [exec, execDelay, outsideGroup_none hd, getX_some hv, hrep, bind, Except.bind, commit_ok]
      rfl
  · refine ⟨?_, ?_, ?_⟩ <;>
      simp only [exec, execTstart, execDelay, execUsend, outsideGroup_none hd, getX_none hv, bind, Except.bind,
        commit_raise] <;> rfl
  · simp only [exec, execUsend, outsideGroup_none hd, getX_some hv, hwide, if_true, bind, Except.bind, commit_ok]
    rfl

end Sys2Proof.Machine

/-! ### First steps of the commands of several steps (42_register_field.md R218, 43_timer.md R260, 45_uart.md R310) -/

namespace Sys2Proof.Machine

open Sys2Proof.Config

variable {s : State}

theorem shown_desc (s : State) (r : Reg) (v : Word) (d : Desc) :
    shown { s with desc := d } r v = ((shown s r v).1, { (shown s r v).2 with desc := d }) := by
  unfold shown
  split <;> rfl

/-- A device load does not depend on DESC, and keeps it. -/
theorem deviceLoad_desc (s : State) (r : Reg) (d : Desc) :
    deviceLoad { s with desc := d } r = (deviceLoad s r).map fun p => (p.1, { p.2 with desc := d }) := by
  unfold deviceLoad
  cases r.decl.name with
  | timCr1 | timSr | timPsc | timArr | gpioOdr => exact congrArg Except.ok (shown_desc s r _ d)
  | uartRdr => exact congrArg Except.ok (shown_desc { s with uart := { s.uart with rxne := false } } r _ d)
  | gpioBsrr | uartIsr | uartTdr | other l => rfl

/-- The store of a period to ARR, with the profile's registers (R260). -/
theorem startTimer_profile (ha : accepted s.cfg = true) {base : Word} (hb : ServesTimer s.cfg.regtab base) {n : Word}
    (hn : n.toNat ≤ 0xFFFF) (delay : Bool) :
    startTimer s n delay = .ok { s with
      tim := { s.tim with arr := n.extractLsb' 0 16 }
      trace := s.trace ++ [.store (addrOf ⟨base, timArr⟩) .word n], cont := .startModify delay } := by
  have hr : needReg s .timArr = .ok ⟨base, timArr⟩ := needReg_ok.2 hb.2.2
  have hf : needField ⟨base, timArr⟩ .arr = .ok ⟨.arr, 0, 15, .rw⟩ := needField_ok.2 rfl
  have hfits : fits n ⟨.arr, 0, 15, .rw⟩ = true := by simpa [fits_arr] using hn
  have hval : applyOps ⟨base, timArr⟩ [.set ⟨.arr, 0, 15, .rw⟩ n] timArr.wdef = n := by
    have hmask : timArr.wdef &&& ~~~fieldMask ⟨.arr, 0, 15, .rw⟩ = 0#32 := by decide
    simp [applyOps, applyOp, insertField, hmask]
  have hres : reservedMask ⟨base, timArr⟩ = ~~~ones 16 := by
    show widthMask ⟨0#32, timArr⟩ &&& ~~~declaredMask ⟨0#32, timArr⟩ = _
    decide
  have hz : n &&& reservedMask ⟨base, timArr⟩ = 0#32 := by
    rw [hres, and_not_ones_eq_zero]
    exact Nat.lt_succ_iff.2 hn
  have hm := memWrite_declared ha (regNamed_mem hb.2.2) (v := n) (by simp [timArr]) hz rfl
  simp only [startTimer, hr, hf, periodFor_of_fits hfits, writeReg, hval, hm, hfits, if_true, bind, Except.bind]
  rfl

/-- The load of SR of an acknowledge, with the profile's registers (R260). -/
theorem ackLoad_profile (ha : accepted s.cfg = true) {base : Word} (hb : ServesTimer s.cfg.regtab base) :
    ackLoad s = .ok { s with
      trace := s.trace ++ [.load (addrOf ⟨base, timSr⟩) .word (if s.tim.uif then 1#32 else 0#32)]
      cont := .modifyStore ⟨base, timSr⟩ [.set (bitField .uif 0 .rw) 0#32] (if s.tim.uif then 1#32 else 0#32)
        .acknowledged } := by
  have hr : needReg s .timSr = .ok ⟨base, timSr⟩ := needReg_ok.2 hb.2.1
  have hf : needField ⟨base, timSr⟩ .uif = .ok (bitField .uif 0 .rw) := needField_ok.2 rfl
  have hs : deviceLoad s ⟨base, timSr⟩ = .ok (if s.tim.uif then 1#32 else 0#32, s) := by
    show Except.ok (shown s _ (srValue s.tim)) = _
    rw [shown_word rfl]
    simp [srValue, flagAt]
  have hm := memRead_declared ha (regNamed_mem hb.2.1) hs
  simp only [ackLoad, modifyLoad, hr, hf, hm, bind, Except.bind]
  rfl

/-- The first steps of the commands that start the timer (R261, R262, R265, R266). -/
theorem exec_start (hd : s.desc = .none) {base : Word}
    (hb : ServesTimer s.cfg.regtab base) {i : Instr} {n : Word} {delay : Bool} (hn : n.toNat ≤ 0xFFFF)
    (hi : delay = false ∧ ((∃ v, i = .tstart v ∧ s.xAt v = some n) ∨ ∃ imm : Half, i = .tstarti imm ∧ n = imm.setWidth 32) ∨
      delay = true ∧ n ≠ 0#32 ∧
        ((∃ v, i = .delay v ∧ s.xAt v = some n) ∨ ∃ imm : Half, i = .delayi imm ∧ n = imm.setWidth 32)) :
    exec i s = commit s (startTimer s n delay) := by
  have hw : ¬ 0xFFFF < n.toNat := Nat.not_lt.2 hn
  rcases hi with ⟨rfl, ⟨v, rfl, hv⟩ | ⟨imm, rfl, rfl⟩⟩ | ⟨rfl, hz, ⟨v, rfl, hv⟩ | ⟨imm, rfl, rfl⟩⟩
  · simp [exec, execTstart, outsideGroup_none hd, getX_some hv, checkedStart_profile hb, hw, bind, Except.bind]
  · simp only [exec, execTstarti, outsideGroup_none hd]
  · simp [exec, execDelay, outsideGroup_none hd, getX_some hv, checkedStart_profile hb, hw, hz, bind, Except.bind]
  · have hi : imm ≠ 0#16 := fun h => hz (by rw [h]; rfl)
    simp only [exec, execDelayi, outsideGroup_none hd, hi, if_false]

/-- The first steps of the commands that send (R312, R313, R317). -/
theorem exec_send (hd : s.desc = .none) {i : Instr} {b : Byte} {rest : List Byte}
    (hi : ((∃ v, i = .usend v ∧ s.xAt v = some (b.setWidth 32)) ∨ i = .usendi b) ∧ rest = [] ∨
      i = .usendl ∧ s.lb = b :: rest) : exec i s = commit s (sendPoll s b rest) := by
  rcases hi with ⟨⟨v, rfl, hv⟩ | rfl, rfl⟩ | ⟨rfl, hl⟩
  · have hbyte : ¬ 0xFF < (b.setWidth 32 : Word).toNat := by
      rw [BitVec.toNat_setWidth_of_le (by decide)]
      omega
    have hlow : (b.setWidth 32 : Word).extractLsb' 0 8 = b := by
      rw [← BitVec.setWidth_eq_extractLsb' (by decide)]
      simp
    simp only [exec, execUsend, outsideGroup_none hd, getX_some hv, hbyte, if_false, hlow, bind, Except.bind]
  · simp only [exec, execUsendi, outsideGroup_none hd]
  · simp only [exec, execUsendl, outsideGroup_none hd, hl]

/-- The load that MODIFY of a clean group makes, of a register that is readable and writable (R218). -/
theorem exec_modify_loads (ha : accepted s.cfg = true) {r : Reg} {ops : List StagedOp}
    (hd : s.desc = .opened (some r) ops none) (hr : r ∈ regsOf s.cfg.regtab) (hdev : DeviceReg r)
    (hcr : canRead r = true) (hcw : canWrite r = true) :
    ∃ v u, LoadRule s r v u ∧ exec .modify s = .next { u with
      desc := .none, trace := s.trace ++ [.load (addrOf r) r.decl.width v], cont := .modifyStore r ops v .group } := by
  obtain ⟨v, u, hl, hrule⟩ := deviceLoad_rule s hdev
  have htrace : u.trace = s.trace := by
    rcases deviceLoad_next hl with rfl | rfl | ⟨-, rfl | rfl⟩ <;> rfl
  have hl' : deviceLoad { s with desc := .none } r = .ok (v, { u with desc := .none }) := by
    rw [deviceLoad_desc, hl]
    rfl
  have hm := memRead_declared (s := { s with desc := .none }) ha hr hl'
  refine ⟨v, u, hrule, ?_⟩
  simp only [exec, execModify, insideGroup_opened hd, hcr, hcw, modifyLoad, hm, bind, Except.bind]
  rw [← htrace]
  rfl

/-- Settles O43, command by command: the steps are those of a table with the profile's registers. -/
theorem firstStepsMakeOneTransaction : Obligations.FirstStepsMakeOneTransaction := by
  intro s base ha
  refine ⟨fun r ops hd hr hdev hcr hcw => exec_modify_loads ha hd hr hdev hcr hcw, fun hd hb => ⟨?_, ?_⟩,
    fun hd hb => ?_⟩
  · intro i n delay hn hi
    rw [exec_start hd hb hn hi, startTimer_profile ha hb hn, commit_ok]
  · simp only [exec, execTack, outsideGroup_none hd, ackLoad_profile ha hb, commit_ok]
  · obtain ⟨-, hrxne, htxe⟩ := isrValue_bits s.uart s.nextDraw
    refine ⟨isrValue s.uart s.nextDraw, htxe, hrxne, fun i b rest hi => ?_, fun d => ⟨?_, ?_⟩⟩
    · rw [exec_send hd hi, sendPoll_profile ha hb, commit_ok]
    · simp only [exec, execUrecv, outsideGroup_none hd, recvPoll_profile ha hb, commit_ok, Option.toList_none,
        List.append_nil]
    · have hp := recvPoll_profile (s := { s with lb := [] }) ha hb (.line d 0) none
      simp only [exec, execUline, outsideGroup_none hd, hp, commit_ok]
      rfl

end Sys2Proof.Machine

/-! ### A value made by validated operations sets no reserved bit (42_register_field.md R205 to R207) -/

namespace Sys2Proof.Machine

open Sys2Proof.Config

variable {r : Reg} {i : Nat}

/-- A value shares no bit with a mask exactly when each of its bits is outside the mask. -/
theorem and_eq_zero_iff_bits {x m : Word} :
    x &&& m = 0#32 ↔ ∀ i < 32, x.getLsbD i = true → m.getLsbD i = false := by
  constructor
  · intro h i _ hx
    simpa [hx] using congrArg (BitVec.getLsbD · i) h
  · intro h
    refine BitVec.eq_of_getLsbD_eq fun i hi => ?_
    simpa using h i hi

theorem maskOf_bit_iff {l : List Field} :
    (maskOf l).getLsbD i = true ↔ ∃ f ∈ l, (fieldMask f).getLsbD i = true := by
  induction l with
  | nil => simp [maskOf]
  | cons f l ih => simp [maskOf, ih]

/-- A bit of some declared fields is no reserved bit (R44). -/
theorem reservedMask_bit_of_fields {l : List Field} (hl : l ⊆ r.decl.fields) (h : (maskOf l).getLsbD i = true) :
    (reservedMask r).getLsbD i = false := by
  obtain ⟨f, hf, hb⟩ := maskOf_bit_iff.1 h
  have hdecl : (declaredMask r).getLsbD i = true := maskOf_bit_iff.2 ⟨f, hl hf, hb⟩
  simp [reservedMask, hdecl]

/-- The bits of a value that fits a declared field, at the field's place, are no reserved bits. -/
theorem reservedMask_bit_of_fits {f : Field} (hf : f ∈ r.decl.fields) {x : Word} (hx : fits x f = true) (hi : i < 32)
    (h : (x <<< f.lo).getLsbD i = true) : (reservedMask r).getLsbD i = false := by
  have hmask : (fieldMask f).getLsbD i = true := by
    simpa [hi] using and_eq_zero_iff_bits.1 (fits_within hx) i hi h
  exact reservedMask_bit_of_fields (l := [f]) (by simpa using hf) (maskOf_bit_iff.2 ⟨f, by simp, hmask⟩)

/-- A validated operation sets no reserved bit (R206). -/
theorem applyOp_unreserved {v : Word} (hv : v &&& reservedMask r = 0#32) {o : StagedOp} (ho : OpLegal r o) :
    applyOp r v o &&& reservedMask r = 0#32 := by
  refine and_eq_zero_iff_bits.2 fun i hi hb => ?_
  have keeps := and_eq_zero_iff_bits.1 hv i hi
  cases o with
  | set f x =>
    obtain ⟨hf, -, hx⟩ := ho
    simp only [applyOp, insertField, BitVec.getLsbD_or, BitVec.getLsbD_and, Bool.or_eq_true, Bool.and_eq_true] at hb
    exact hb.elim (fun h => keeps h.1) (reservedMask_bit_of_fits hf hx hi)
  | xor f x =>
    obtain ⟨hf, -, hx⟩ := ho
    simp only [applyOp, BitVec.getLsbD_xor] at hb
    cases hvi : v.getLsbD i with
    | true => exact keeps hvi
    | false => exact reservedMask_bit_of_fits hf hx hi (by simpa [hvi] using hb)
  | bits x =>
    simp only [applyOp, BitVec.getLsbD_or, BitVec.getLsbD_and, Bool.or_eq_true, Bool.and_eq_true] at hb
    refine hb.elim (fun h => keeps h.1) fun h => ?_
    have hw : (writableMask r).getLsbD i = true := by simpa [hi] using and_eq_zero_iff_bits.1 ho i hi h
    exact reservedMask_bit_of_fields (List.filter_subset_self _) hw

theorem applyOps_unreserved {ops : List StagedOp} (ho : OpsLegal r ops) {v : Word} (hv : v &&& reservedMask r = 0#32) :
    applyOps r ops v &&& reservedMask r = 0#32 := by
  induction ops generalizing v with
  | nil => exact hv
  | cons o ops ih =>
    exact ih (fun p hp => ho p (List.mem_cons_of_mem _ hp)) (applyOp_unreserved hv (ho o List.mem_cons_self))

/-- The base of a modify keeps declared bits alone, whatever was read (R207, R218). -/
theorem modifyBase_unreserved (r : Reg) (v : Word) : modifyBase r v &&& reservedMask r = 0#32 := by
  refine and_eq_zero_iff_bits.2 fun i _ hb => ?_
  simp only [modifyBase, BitVec.getLsbD_or, BitVec.getLsbD_and, Bool.or_eq_true, Bool.and_eq_true] at hb
  exact hb.elim (fun h => reservedMask_bit_of_fields (List.filter_subset_self _) h.2)
    (fun h => reservedMask_bit_of_fields (List.filter_subset_self _) h.2)

/-- The write-default of a register of an accepted table sets no reserved bit (R43 (f)). -/
theorem wdef_unreserved {c : Params} (ha : accepted c = true) (hr : r ∈ regsOf c.regtab) :
    r.decl.wdef &&& reservedMask r = 0#32 := by
  obtain ⟨hlegal, -⟩ := accepted_parts ha
  obtain ⟨-, -, -, -, hwdef⟩ := regLegal_parts (hlegal r hr)
  simp only [wdefLegal, Bool.and_eq_true, decide_eq_true_eq] at hwdef
  exact hwdef.2

/-- A writable register is not read-only (R202). -/
theorem perm_ne_ro_of_canWrite (h : canWrite r = true) : r.decl.perm ≠ .ro := by
  intro hro
  simp [canWrite, writable, hro] at h

end Sys2Proof.Machine

/-! ### The device rules leave the ENGINE's state, and do not depend on it (20_memory.md R92 to R98) -/

namespace Sys2Proof.Machine

open Sys2Proof.Config

variable {s u : State} {r : Reg} {n : RegName} {v : Word}

theorem ShowsNumber.state {k : Nat} (h : ShowsNumber s r k v u) : u = s ∨ u = s.drawn := by
  unfold ShowsNumber at h
  split at h
  · exact .inl h.2
  · exact .inr h

/-- A load's rule changes at most `draws` and, at RDR alone, RXNE (R92). -/
theorem LoadRule.state (h : LoadRule s r v u) :
    ∃ k rx, u = { s with draws := k, uart := { s.uart with rxne := rx } } ∧
      (r.decl.name ≠ .uartRdr → rx = s.uart.rxne) := by
  obtain ⟨-, h⟩ := h
  cases hn : r.decl.name with
  | timCr1 | timSr | timPsc | timArr | gpioOdr =>
    simp only [hn] at h
    rcases h.state with rfl | rfl
    · exact ⟨_, _, rfl, fun _ => rfl⟩
    · exact ⟨_, s.uart.rxne, rfl, fun _ => rfl⟩
  | uartRdr =>
    simp only [hn] at h
    rcases h.state with rfl | rfl <;> exact ⟨_, _, rfl, fun hne => absurd rfl hne⟩
  | gpioBsrr | uartTdr =>
    simp only [hn] at h
    exact ⟨_, s.uart.rxne, h, fun _ => rfl⟩
  | uartIsr =>
    simp only [hn] at h
    exact ⟨_, s.uart.rxne, h.1, fun _ => rfl⟩
  | other l => simp [hn] at h

/-- A store's rule changes the devices alone, and DESC, TRACE and CONT do not matter to it (R93 to R98). -/
theorem StoreRule.state (h : StoreRule s n v u) :
    ∃ tm o ua, u = { s with tim := tm, odr := o, uart := ua } ∧ ∀ d l c,
      StoreRule { s with desc := d, trace := l, cont := c } n v
        { s with tim := tm, odr := o, uart := ua, desc := d, trace := l, cont := c } := by
  cases n with
  | timCr1 | timSr | timPsc | timArr | gpioOdr | uartTdr =>
    cases h
    exact ⟨_, _, _, rfl, fun _ _ _ => rfl⟩
  | gpioBsrr =>
    obtain ⟨o, rfl, ho⟩ := h
    exact ⟨_, _, _, rfl, fun _ _ _ => ⟨o, rfl, ho⟩⟩
  | uartIsr | uartRdr | other l => exact h.elim

/-- What a device store leaves is what its rule says (R93 to R98). -/
theorem storeRule_of_deviceStore (h : deviceStore s r v = .ok u) : StoreRule s r.decl.name v u := by
  unfold deviceStore at h
  cases hn : r.decl.name with
  | timCr1 =>
    simp only [hn] at h
    split at h <;> cases h
    rfl
  | timSr | timPsc | timArr | gpioOdr =>
    simp only [hn] at h
    cases h
    rfl
  | gpioBsrr =>
    simp only [hn] at h
    cases h
    exact ⟨_, rfl, fun p hp => bsrrPins_bit _ _ _ hp⟩
  | uartTdr =>
    simp only [hn] at h
    split at h
    · cases h
    · split at h <;> cases h
      rfl
  | uartIsr | uartRdr | other l => simp [hn] at h

/-- STORE RULE inside a command: as `memWrite_device`, with the rule taken in a state `s` that differs from the one the
store is made in by DESC, TRACE and CONT alone. -/
theorem memWrite_device_engine (ha : accepted s.cfg = true) (hr : r ∈ regsOf s.cfg.regtab) (hp : r.decl.perm ≠ .ro)
    (hz : v &&& reservedMask r = 0#32) (hg : StoreAllowed s r.decl.name v = true) (d : Desc) (l : List BusEvent)
    (c : Cont) :
    ∃ u, StoreRule s r.decl.name v u ∧ u.pc = s.pc ∧
      memWrite { s with desc := d, trace := l, cont := c } (addrOf r) r.decl.width v =
        .ok { u with desc := d, trace := l ++ [.store (addrOf r) r.decl.width v], cont := c } := by
  obtain ⟨u, hrule, -, hm⟩ := memWrite_device (s := { s with desc := d, trace := l, cont := c }) ha hr hp hz hg
  obtain ⟨tm, o, ua, rfl, hany⟩ := hrule.state
  exact ⟨_, hany s.desc s.trace s.cont, rfl, hm⟩

/-- A device guard stops a store inside a command: as `memWrite_guard`, at a declared register. -/
theorem memWrite_guard_engine (ha : accepted s.cfg = true) (hr : r ∈ regsOf s.cfg.regtab) (hp : r.decl.perm ≠ .ro)
    (hz : v &&& reservedMask r = 0#32) {k : FaultKind} (hg : guardFault s r.decl.name v = some k) (d : Desc)
    (l : List BusEvent) (c : Cont) :
    memWrite { s with desc := d, trace := l, cont := c } (addrOf r) r.decl.width v = .error (.raise k) :=
  memWrite_guard (s := { s with desc := d, trace := l, cont := c }) (classify_declared ha hr .store) hp hz hg

end Sys2Proof.Machine

/-! ### Memory: loads of an undeclared address, WRITE and MODIFY, TACK (20_memory.md, 41_volatile.md R181,
42_register_field.md R217, R218, 43_timer.md R264) -/

namespace Sys2Proof.Machine

open Sys2Proof.Config

/-- Settles O46: each pin's level is `pinAfter` of its own two bits, and `pinAfter` keeps the level where both are 0. -/
theorem bsrrStorePerPin : Obligations.BsrrStorePerPin := by
  intro both odr v p hp
  refine ⟨bsrrPins_bit both odr v hp, fun hset hclear => ?_⟩
  rw [bsrrPins_bit both odr v hp, hset, hclear]
  cases both <;> simp [pinAfter]

/-- Settles O14: the LDV's one load is a draw cut to its width. -/
theorem ldvLoadsUndeclaredAddress : Obligations.LdvLoadsUndeclaredAddress := by
  intro s d b wc n addr hdesc hwc hb hback halign hover
  have hlt : (s.nextDraw &&& ones n.bits).toNat < 2 ^ n.bits := by
    rw [← and_not_ones_eq_zero, BitVec.and_assoc, BitVec.and_not_self]
    exact BitVec.and_zero
  refine ⟨_, hlt, ?_⟩
  simp only [exec, execLdv, hwc, outsideGroup_none hdesc, getX_some hb, memRead,
    classify_undeclared hback halign hover, bind, Except.bind, commit_ok]
  rfl

variable {s : State} {r : Reg} {ops : List StagedOp}

/-- WRITE of a clean group to a writable register is the store of its operations on the write-default, outside the group
(R217). -/
theorem exec_write_clean (hd : s.desc = .opened (some r) ops none) (hw : canWrite r = true) :
    exec .write s = commit s (do
      let t ← memWrite { s with desc := .none } (addrOf r) r.decl.width (applyOps r ops r.decl.wdef)
      .ok (t.complete .ok)) := by
  simp [exec, execWrite, insideGroup_opened hd, hw, writeReg]

/-- Settles O23: the store passes every check of R91, as the operations are validated; the device guards remain. -/
theorem writeStoresOnce : Obligations.WriteStoresOnce := by
  intro s r ops hd ha hr _ hw hops
  have hp := perm_ne_ro_of_canWrite hw
  have hz := applyOps_unreserved hops (wdef_unreserved ha hr)
  rw [exec_write_clean hd hw]
  constructor
  · intro hg
    obtain ⟨u, hrule, hpc, hm⟩ := memWrite_device_engine ha hr hp hz hg .none s.trace s.cont
    refine ⟨u, hrule, ?_⟩
    rw [hm, ← hpc]
    rfl
  · intro k hg
    rw [memWrite_guard_engine ha hr hp hz hg .none s.trace s.cont]
    rfl

/-- The second step of MODIFY: the store of its operations on the base made of the value read (R218). -/
theorem engineStep_modify_group {v : Word} (hc : s.cont = .modifyStore r ops v .group) :
    engineStep s = commit s (do
      let t ← memWrite s (addrOf r) r.decl.width (applyOps r ops (modifyBase r v))
      .ok (t.complete .ok)) := by
  simp [engineStep, hc, modifyStore, afterModify]

/-- Settles O24: the first step is the load of `exec_modify_loads`; the second makes a store that passes every check of
R91, and the device guards remain. -/
theorem modifyLoadsThenStores : Obligations.ModifyLoadsThenStores := by
  intro s r ops hf hd ha hr hdev hcr hw hops
  obtain ⟨v, u, hrule, hload⟩ := exec_modify_loads ha hd hr hdev hcr hw
  have hp := perm_ne_ro_of_canWrite hw
  have hz := applyOps_unreserved hops (modifyBase_unreserved r v)
  refine ⟨v, u, hrule, ?_⟩
  obtain ⟨k, rx, hu, -⟩ := hrule.state
  have hau : accepted u.cfg = true := by rw [hu]; exact ha
  have hru : r ∈ regsOf u.cfg.regtab := by rw [hu]; exact hr
  have hpcu : u.pc = s.pc := by rw [hu]
  rw [hload, runAgents_engine (by rw [hu]; exact hf) (by simp), engineStep_modify_group rfl]
  constructor
  · intro hg
    obtain ⟨w, hstore, hpc, hm⟩ := memWrite_device_engine hau hru hp hz hg .none _ _
    refine ⟨w, hstore, ?_⟩
    rw [hm, ← hpcu, ← hpc, List.append_assoc]
    rfl
  · intro k hg
    rw [memWrite_guard_engine hau hru hp hz hg .none _ _, ← hpcu]
    rfl

/-- SR with UIF clear is 0, whatever was read (R264). -/
theorem ack_value (base v : Word) :
    applyOps ⟨base, timSr⟩ [.set (bitField .uif 0 .rw) 0#32] (modifyBase ⟨base, timSr⟩ v) = 0#32 := by
  have hread : readableMask ⟨base, timSr⟩ = fieldMask (bitField .uif 0 .rw) := BitVec.or_zero
  have hwo : woMask ⟨base, timSr⟩ = 0#32 := rfl
  simp [applyOps, applyOp, insertField, modifyBase, hread, hwo, BitVec.and_assoc]

/-- The second step of an acknowledge stores 0 to SR, which clears UIF (R94, R264). -/
theorem engineStep_ack (ha : accepted s.cfg = true) {base v : Word} (hb : ServesTimer s.cfg.regtab base)
    (hc : s.cont = .modifyStore ⟨base, timSr⟩ [.set (bitField .uif 0 .rw) 0#32] v .acknowledged) :
    engineStep s = .next { s with
      tim := { s.tim with uif := false }, tst := .idle
      trace := s.trace ++ [.store (addrOf ⟨base, timSr⟩) .word 0#32]
      status := 0#32, cont := .none, pc := s.pc + 1 } := by
  have hclear : storeSr s.tim 0#32 = { s.tim with uif := false } := by simp [storeSr]
  have hm := memWrite_declared ha (regNamed_mem hb.2.1) (v := 0#32) (by simp [timSr]) BitVec.zero_and rfl
  simp only [engineStep, hc, modifyStore, ack_value, hm, hclear, bind, Except.bind, commit_ok]
  rfl

/-- Settles O30: the first step is the load that O43 says; the store of 0 clears UIF whatever it is then. -/
theorem tackClearsUpdate : Obligations.TackClearsUpdate := by
  intro s base uif' hready ha hb
  obtain ⟨-, hd⟩ := hready
  obtain ⟨-, htimer, -⟩ := firstStepsMakeOneTransaction s base ha
  obtain ⟨-, hload⟩ := htimer hd hb
  refine ⟨_, hload, Eq.trans (engineStep_ack (by exact ha) (by exact hb) (by rfl)) ?_⟩
  simp

end Sys2Proof.Machine

/-! ### Frames of a load and of a store: the commands whose first step is one (20_memory.md R92, R103, R108, R217) -/

namespace Sys2Proof.Machine

open Sys2Proof.Config

variable {s t : State}

/-- What a step that makes no store leaves: the timer, the pins, LB, and the UART but for RXNE, which may fall with a
load of RDR (R92, R108). -/
structure LoadFrame (s t : State) : Prop where
  tim : t.tim = s.tim
  odr : t.odr = s.odr
  uart : { t.uart with rxne := s.uart.rxne } = s.uart
  rxne : t.uart.rxne = s.uart.rxne ∨ t.uart.rxne = false ∧
    ∃ r v, r ∈ regsOf s.cfg.regtab ∧ r.decl.name = .uartRdr ∧
      t.trace = s.trace ++ [.load (addrOf r) r.decl.width v]
  lb : t.lb = s.lb
  stores : ∀ a n v, .store a n v ∈ t.trace → .store a n v ∈ s.trace

namespace LoadFrame

theorem refl (s : State) : LoadFrame s s := ⟨rfl, rfl, rfl, .inl rfl, rfl, fun _ _ _ => id⟩

theorem memRead {a : Word} {n : Width} {v : Word} (h : memRead s a n = .ok (v, t)) : LoadFrame s t := by
  obtain ⟨k, rx, hrx, rfl⟩ := memRead_frame h
  refine ⟨rfl, rfl, rfl, hrx.imp_right ?_, rfl, fun a' n' v' hmem => by simpa using hmem⟩
  rintro ⟨hfalse, r, hr, rfl, rfl, hname⟩
  exact ⟨hfalse, r, v, overlapped_mem hr, hname, rfl⟩

theorem modifyLoad {r : Reg} {ops : List StagedOp} {next : AfterModify} (h : modifyLoad s r ops next = .ok t) :
    LoadFrame s t := by
  obtain ⟨v, u, hm, rfl⟩ := modifyLoad_next h
  exact { memRead hm with }

theorem ackLoad (h : ackLoad s = .ok t) : LoadFrame s t := by
  obtain ⟨r, f, -, -, hm⟩ := ackLoad_next h
  exact modifyLoad hm

theorem pollUif (h : pollUif s false = .ok t) : LoadFrame s t := by
  obtain ⟨r, f, v, u, -, -, hm, ⟨-, rfl⟩ | ⟨-, ⟨-, rfl⟩ | ⟨-, rfl⟩⟩⟩ := pollUif_next h <;> exact { memRead hm with }

theorem sendPoll {b : Byte} {rest : List Byte} (h : sendPoll s b rest = .ok t) : LoadFrame s t := by
  obtain ⟨r, f, v, u, -, -, hm, rfl⟩ := sendPoll_next h
  exact { memRead hm with }

theorem recvPoll {k : Receive} (h : recvPoll s k none = .ok t) : LoadFrame s t := by
  obtain ⟨r, f, v, u, -, -, hm, rfl⟩ := recvPoll_next h
  exact { memRead hm with }

end LoadFrame

/-- Settles O49: each of the commands faults, reports, or makes one load; ULINE clears LB before its own. -/
theorem loadStepFrame : Obligations.LoadStepFrame := by
  intro i s t h hi
  have frame : LoadFrame s t ∨ ∃ d, i = .uline d ∧ LoadFrame { s with lb := [] } t := by
    by_cases hf : ∃ k, t = s.raise k
    · obtain ⟨k, rfl⟩ := hf
      exact .inl { LoadFrame.refl s with }
    cases i with
    | modify =>
      obtain ⟨r, ops, p, -, ⟨c, rfl⟩ | ⟨q, -, -, -, -, hm⟩⟩ := (exec_modify_next h).resolve_right hf
      · exact .inl { LoadFrame.refl s with }
      · exact .inl { LoadFrame.modifyLoad hm with }
    | tpoll => exact .inl (.pollUif ((outsideGroup_next h).resolve_right hf).2)
    | tack => exact .inl (.ackLoad ((outsideGroup_next h).resolve_right hf).2)
    | usendl =>
      obtain ⟨-, ⟨-, rfl⟩ | ⟨c, rest, -, hb⟩⟩ := (exec_usendl_next h).resolve_right hf
      · exact .inl { LoadFrame.refl s with }
      · exact .inl (.sendPoll hb)
    | ldv d b wc =>
      obtain ⟨-, n, a, w, u, -, -, hm, rfl⟩ := (exec_ldv_next h).resolve_right hf
      exact .inl { LoadFrame.memRead hm with }
    | rread d sel =>
      obtain ⟨-, ⟨c, rfl⟩ | ⟨r, w, u, -, -, hm, rfl⟩⟩ := (exec_rread_next h).resolve_right hf
      · exact .inl { LoadFrame.refl s with }
      · exact .inl { LoadFrame.memRead hm with }
    | rfield d sel fld =>
      obtain ⟨-, ⟨c, rfl⟩ | ⟨r, f, w, u, -, -, -, -, hm, rfl⟩⟩ := (exec_rfield_next h).resolve_right hf
      · exact .inl { LoadFrame.refl s with }
      · exact .inl { LoadFrame.memRead hm with }
    | usend v =>
      obtain ⟨-, w, -, ⟨-, rfl⟩ | ⟨-, hb⟩⟩ := (exec_usend_next h).resolve_right hf
      · exact .inl { LoadFrame.refl s with }
      · exact .inl (.sendPoll hb)
    | usendi b => exact .inl (.sendPoll ((outsideGroup_next h).resolve_right hf).2)
    | urecv d => exact .inl (.recvPoll ((outsideGroup_next h).resolve_right hf).2)
    | uline d => exact .inr ⟨d, rfl, .recvPoll ((outsideGroup_next h).resolve_right hf).2⟩
    | _ => simp at hi
  rcases frame with f | ⟨d, rfl, f⟩
  · exact ⟨f.tim, f.odr, f.uart, f.rxne, fun _ => f.lb, f.stores⟩
  · exact ⟨f.tim, f.odr, f.uart, f.rxne, fun hne => absurd rfl (hne d), f.stores⟩

/-- What the first step of a command that may store leaves: the result registers, LB, REPORTS and TST, and every device
but the one of the register it stores to (R93 to R98, R102). -/
structure OneStoreFrame (s t : State) : Prop where
  x : t.x = s.x
  lb : t.lb = s.lb
  reports : t.reports = s.reports
  tst : t.tst = s.tst
  devices : (t.trace = s.trace ∧ t.tim = s.tim ∧ t.odr = s.odr ∧ t.uart = s.uart) ∨
    ∃ r addr n v u, overlapped s.cfg.regtab addr n = some r ∧ addrOf r = addr ∧ r.decl.width = n ∧
      t.trace = s.trace ++ [.store addr n v] ∧ StoreRule s r.decl.name v u ∧
      t.tim = u.tim ∧ t.odr = u.odr ∧ t.uart = u.uart

namespace OneStoreFrame

theorem refl (s : State) : OneStoreFrame s s := ⟨rfl, rfl, rfl, rfl, .inl ⟨rfl, rfl, rfl, rfl⟩⟩

theorem memWrite {a : Word} {n : Width} {v : Word} (h : memWrite s a n v = .ok t) : OneStoreFrame s t := by
  obtain ⟨r, u, hr, ha, hw, -, hd, rfl⟩ := memWrite_frame h
  exact ⟨rfl, rfl, rfl, rfl, .inr ⟨r, a, n, v, u, hr, ha, hw, rfl, storeRule_of_deviceStore hd, rfl, rfl, rfl⟩⟩

/-- The group that a command closes before its store does not matter to the frame (R217). -/
theorem of_closed (h : OneStoreFrame { s with desc := .none } t) : OneStoreFrame s t := by
  refine { h with devices := h.devices.imp_right ?_ }
  rintro ⟨r, addr, n, v, u, hr, ha, hw, htrace, hrule, hdev⟩
  obtain ⟨tm, o, ua, rfl, hany⟩ := hrule.state
  exact ⟨r, addr, n, v, _, hr, ha, hw, htrace, hany s.desc s.trace s.cont, hdev⟩

theorem startTimer {n : Word} {delay : Bool} (h : startTimer s n delay = .ok t) : OneStoreFrame s t := by
  obtain ⟨r, f, u, -, -, hm, rfl⟩ := startTimer_next h
  exact { memWrite hm with }

theorem checkedStart {n : Word} {delay : Bool} (h : checkedStart s n delay = .ok t) : OneStoreFrame s t := by
  rcases checkedStart_next h with rfl | rfl | h
  · exact { refl s with }
  · exact { refl s with }
  · exact startTimer h

theorem pinStore {p : Half} {bit : Nat} (h : pinStore s p bit = .ok t) : OneStoreFrame s t := by
  rcases pinStore_next h with ⟨-, rfl⟩ | ⟨r, u, -, -, hm, rfl⟩
  · exact { refl s with }
  · unfold completePin
    split
    · exact { memWrite hm with }
    · exact { memWrite hm with }

end OneStoreFrame

/-- Settles O50: each of the commands faults, completes without a transaction, or makes one store. -/
theorem storeStepFrame : Obligations.StoreStepFrame := by
  intro i s t h hi
  suffices f : OneStoreFrame s t from ⟨f.x, f.lb, f.reports, f.tst, f.devices⟩
  by_cases hf : ∃ k, t = s.raise k
  · obtain ⟨k, rfl⟩ := hf
    exact { OneStoreFrame.refl s with }
  cases i with
  | write =>
    obtain ⟨r, ops, p, -, ⟨c, rfl⟩ | ⟨q, u, -, -, -, hm, rfl⟩⟩ := (exec_write_next h).resolve_right hf
    · exact { OneStoreFrame.refl s with }
    · exact { OneStoreFrame.of_closed (.memWrite hm) with }
  | stv v b wc =>
    obtain ⟨-, n, a, w, -, -, -, ⟨-, rfl⟩ | ⟨u, -, hm, rfl⟩⟩ := (exec_stv_next h).resolve_right hf
    · exact { OneStoreFrame.refl s with }
    · exact { OneStoreFrame.memWrite hm with }
  | tstart v =>
    obtain ⟨-, n, -, hb⟩ := (outsideGroup_getX_next h).resolve_right hf
    exact .checkedStart hb
  | tstarti m => exact .startTimer ((outsideGroup_next h).resolve_right hf).2
  | delay v =>
    obtain ⟨-, n, -, hb⟩ := (outsideGroup_getX_next h).resolve_right hf
    exact .checkedStart hb
  | delayi m =>
    obtain ⟨-, ⟨-, rfl⟩ | ⟨-, hb⟩⟩ := (exec_delayi_next h).resolve_right hf
    · exact { OneStoreFrame.refl s with }
    · exact .startTimer hb
  | pon p => exact .pinStore ((outsideGroup_next h).resolve_right hf).2
  | poff p => exact .pinStore ((outsideGroup_next h).resolve_right hf).2
  | _ => simp at hi

end Sys2Proof.Machine

/-! ### Two loads of a register with nothing between them (20_memory.md R101, R108) -/

namespace Sys2Proof.Machine

open Sys2Proof.Config

variable {s s' u u' : State} {r : Reg} {v w : Word}

/-- Two loads of one number show one value, if the register is 32 bits wide or neither of them is a draw. -/
theorem ShowsNumber.reread {k : Nat} (h : ShowsNumber s r k v u) (h' : ShowsNumber s' r k w u')
    (hk : k < 2 ^ Width.word.bits) (hs : s'.draws = u.draws) (hw : r.decl.width = .word ∨ u'.draws = s.draws) :
    v = w := by
  unfold ShowsNumber at h h'
  by_cases hfit : k < 2 ^ r.decl.width.bits
  · rw [if_pos hfit] at h h'
    exact BitVec.eq_of_toNat_eq (h.1.trans h'.1.symm)
  · rw [if_neg hfit] at h h'
    rcases hw with hw | hw
    · exact absurd (hw ▸ hk) hfit
    · have hdraws : u'.draws = s.draws + 2 := by simp [h', hs, h]
      omega

/-- The second of two loads with nothing between them shows the value of the first, at a register whose value R92
fixes. -/
theorem LoadRule.reread (h : LoadRule s r v u) (h' : LoadRule s' r w u') (htim : s'.tim = s.tim) (hodr : s'.odr = s.odr)
    (hs : s'.draws = u.draws) (hisr : r.decl.name ≠ .uartIsr) (hrdr : r.decl.name ≠ .uartRdr)
    (hbsrr : r.decl.name ≠ .gpioBsrr) (htdr : r.decl.name ≠ .uartTdr)
    (hw : r.decl.width = .word ∨ u'.draws = s.draws) : v = w := by
  obtain ⟨-, h⟩ := h
  obtain ⟨-, h'⟩ := h'
  rw [htim, hodr] at h'
  cases hn : r.decl.name with
  | timCr1 =>
    simp only [hn] at h h'
    exact h.reread h' (cr1Value_toNat s.tim ▸ (cr1Value s.tim).isLt) hs hw
  | timSr =>
    simp only [hn] at h h'
    exact h.reread h' (srValue_toNat s.tim ▸ (srValue s.tim).isLt) hs hw
  | timPsc | timArr | gpioOdr =>
    simp only [hn] at h h'
    exact h.reread h' (lt_trans (BitVec.isLt _) (by decide)) hs hw
  | uartIsr => exact absurd hn hisr
  | uartRdr => exact absurd hn hrdr
  | gpioBsrr => exact absurd hn hbsrr
  | uartTdr => exact absurd hn htdr
  | other l => simp [hn] at h

/-- What a load of ISR shows of the flags (R92). -/
theorem LoadRule.isr_flags (h : LoadRule s r v u) (hn : r.decl.name = .uartIsr) :
    v.getLsbD 3 = s.uart.ore ∧ v.getLsbD 5 = s.uart.rxne ∧ v.getLsbD 7 = s.uart.txe := by
  obtain ⟨-, h⟩ := h
  simp only [hn] at h
  exact h.2

/-- RREAD's part of O18, which names no field. -/
theorem exec_rread_device (s : State) (d : RegIx) {sel : Byte} (hd : s.desc = .none) (ha : accepted s.cfg = true)
    (hres : resolve s.cfg.regtab sel = some r) (hdev : DeviceReg r) (hcan : canRead r = true) :
    ∃ v u, LoadRule s r v u ∧
      exec (.rread d sel) s = .next { u with
        x := wrote s d v, trace := s.trace ++ [.load (addrOf r) r.decl.width v],
        status := 0#32, cont := .none, pc := s.pc + 1 } :=
  (registerReadsReturnValues s d sel 0#8 r (bitField .uif 0 .rw) hd ha hres hdev hcan).1

/-- Settles O55: the first load leaves the devices, DESC and the table as they were, so the second meets the same
rule. -/
theorem rereadingReturnsSameValue : Obligations.RereadingReturnsSameValue := by
  intro s d e sel r hd ha hres hdev hcan hrdr hbsrr htdr hne
  obtain ⟨v, u, hv, hfirst⟩ := exec_rread_device s d hd ha hres hdev hcan
  obtain ⟨k, rx, rfl, hrx⟩ := hv.state
  cases hrx hrdr
  obtain ⟨w, u', hw, hsecond⟩ := exec_rread_device
    { s with
      draws := k, x := wrote s d v, trace := s.trace ++ [.load (addrOf r) r.decl.width v]
      status := 0#32, cont := .none, pc := s.pc + 1 } e hd ha hres hdev hcan
  simp only [runCommands, hfirst]
  refine ⟨_, v, w, hsecond, ?_, Vector.getElem_set_self e.isLt, List.append_assoc .., fun hisr hfix => ?_,
    fun hisr => ?_⟩
  · have hed : e.toNat ≠ d.toNat := fun h => hne (BitVec.eq_of_toNat_eq h.symm)
    exact (Vector.getElem_set_ne e.isLt d.isLt hed).trans (Vector.getElem_set_self d.isLt)
  · exact hv.reread hw rfl rfl rfl hisr hrdr hbsrr htdr hfix
  · obtain ⟨hv3, hv5, hv7⟩ := hv.isr_flags hisr
    obtain ⟨hw3, hw5, hw7⟩ := hw.isr_flags hisr
    exact ⟨hv3.trans hw3.symm, hv5.trans hw5.symm, hv7.trans hw7.symm⟩

end Sys2Proof.Machine

/-! ### Encoding: the decoder and the opcode map (30_encoding.md R130 to R143) -/

namespace Sys2Proof.Laws

open Sys2Proof.Machine

/-- Settles O1: the round trip of each command. -/
theorem decodeOfEncode : Obligations.DecodeOfEncode
  | .li d imm => RoundTrip.li d imm
  | .lih d imm => RoundTrip.lih d imm
  | .gets d => RoundTrip.gets d
  | .ldv d b wc => RoundTrip.ldv d b wc
  | .stv v b wc => RoundTrip.stv v b wc
  | .rread d sel => RoundTrip.rread d sel
  | .rfield d sel fld => RoundTrip.rfield d sel fld
  | .dbegin sel => RoundTrip.dbegin sel
  | .dset v fld => RoundTrip.dset v fld
  | .dseti fld imm => RoundTrip.dseti fld imm
  | .dxor v fld => RoundTrip.dxor v fld
  | .dbits v => RoundTrip.dbits v
  | .write => RoundTrip.write
  | .modify => RoundTrip.modify
  | .tstart v => RoundTrip.tstart v
  | .tstarti imm => RoundTrip.tstarti imm
  | .tpoll => RoundTrip.tpoll
  | .tack => RoundTrip.tack
  | .delay v => RoundTrip.delay v
  | .delayi imm => RoundTrip.delayi imm
  | .pon imm => RoundTrip.pon imm
  | .poff imm => RoundTrip.poff imm
  | .usend v => RoundTrip.usend v
  | .usendi imm8 => RoundTrip.usendi imm8
  | .urecv d => RoundTrip.urecv d
  | .uline d => RoundTrip.uline d
  | .lrev => RoundTrip.lrev
  | .usendl => RoundTrip.usendl

variable {w mbz : Word} {op : Byte} {i j : Instr}

theorem fixedBits_ok : fixedBits w mbz i = .ok j ↔ w &&& mbz = 0#32 ∧ i = j := by
  unfold fixedBits
  split <;> simp [*]

theorem widthForm_ok : widthForm w i = .ok j ↔ w &&& 0x0000FFFC#32 = 0#32 ∧ wcOf w ≠ 3#2 ∧ i = j := by
  unfold widthForm
  split
  · split <;> simp [*]
  · simp [*]

/-! #### A word is its fields, in the order its format puts them (R132) -/

/-- A slice of a word that a mask of must-be-zero bits covers is 0 (R132). -/
theorem zero_eq_slice (h : w &&& mbz = 0#32) {s n : Nat} (hm : mbz.extractLsb' s n = BitVec.allOnes n) :
    0#n = w.extractLsb' s n := by
  simpa [BitVec.extractLsb'_and, hm] using (congrArg (BitVec.extractLsb' s n) h).symm

/-- Two slices of a word, one above the other, make one. -/
theorem append_slices {s m n : Nat} {x : BitVec m} {y : BitVec n} (hx : x = w.extractLsb' (s + n) m)
    (hy : y = w.extractLsb' s n) : x ++ y = w.extractLsb' s (m + n) := by
  rw [hx, hy, BitVec.extractLsb'_append_extractLsb'_eq_extractLsb' rfl]

/-- An upper slice and the one below it that reaches down to bit 0 make the word. -/
theorem append_slices_eq {m n : Nat} {w : BitVec (m + n)} {x : BitVec m} {y : BitVec n} (hx : x = w.extractLsb' n m)
    (hy : y = w.extractLsb' 0 n) : x ++ y = w := by
  rw [hx, hy, BitVec.extractLsb'_append_extractLsb']

theorem fieldsRI (hop : opOf w = op) (h : w &&& 0x000F0000#32 = 0#32) : op ++ aOf w ++ 0#4 ++ immOf w = w :=
  append_slices_eq (append_slices (append_slices hop.symm rfl) (zero_eq_slice h rfl)) rfl

theorem fieldsR (hop : opOf w = op) (h : w &&& 0x000FFFFF#32 = 0#32) : op ++ aOf w ++ 0#20 = w :=
  append_slices_eq (append_slices hop.symm rfl) (zero_eq_slice h rfl)

theorem fieldsI (hop : opOf w = op) (h : w &&& 0x00FF0000#32 = 0#32) : op ++ 0#8 ++ immOf w = w :=
  append_slices_eq (append_slices hop.symm (zero_eq_slice h rfl)) rfl

theorem fieldsI8 (hop : opOf w = op) (h : w &&& 0x00FFFF00#32 = 0#32) : op ++ 0#16 ++ imm8Of w = w :=
  append_slices_eq (append_slices hop.symm (zero_eq_slice h rfl)) rfl

theorem fieldsM (hop : opOf w = op) (h : w &&& 0x0000FFFC#32 = 0#32) : op ++ aOf w ++ bOf w ++ 0#14 ++ wcOf w = w :=
  append_slices_eq (append_slices (append_slices (append_slices hop.symm rfl) rfl) (zero_eq_slice h rfl)) rfl

theorem fieldsS0 (hop : opOf w = op) (h : w &&& 0x000F00FF#32 = 0#32) : op ++ aOf w ++ 0#4 ++ selOf w ++ 0#8 = w :=
  append_slices_eq (append_slices (append_slices (append_slices hop.symm rfl) (zero_eq_slice h rfl)) rfl)
    (zero_eq_slice h rfl)

theorem fieldsS (hop : opOf w = op) (h : w &&& 0x000F0000#32 = 0#32) : op ++ aOf w ++ 0#4 ++ selOf w ++ fldOf w = w :=
  append_slices_eq (append_slices (append_slices (append_slices hop.symm rfl) (zero_eq_slice h rfl)) rfl) rfl

theorem fieldsS00 (hop : opOf w = op) (h : w &&& 0x00FF00FF#32 = 0#32) : op ++ 0#8 ++ selOf w ++ 0#8 = w :=
  append_slices_eq (append_slices (append_slices hop.symm (zero_eq_slice h rfl)) rfl) (zero_eq_slice h rfl)

theorem fieldsD (hop : opOf w = op) (h : w &&& 0x000FFF00#32 = 0#32) : op ++ aOf w ++ 0#12 ++ fldOf w = w :=
  append_slices_eq (append_slices (append_slices hop.symm rfl) (zero_eq_slice h rfl)) rfl

theorem fieldsDI (hop : opOf w = op) : op ++ dfldOf w ++ immOf w = w :=
  append_slices_eq (append_slices hop.symm rfl) rfl

theorem fieldsN (hop : opOf w = op) (h : w &&& 0x00FFFFFF#32 = 0#32) : op ++ 0#24 = w :=
  append_slices_eq hop.symm (zero_eq_slice h rfl)

/-! #### What a word that decodes is -/

/-- A word of the format that a mask leaves is the command's own, if its fields are. -/
theorem encode_of_fixedBits (h : fixedBits w mbz i = .ok j) (hw : i.wellFormed = true)
    (he : w &&& mbz = 0#32 → encode i = w) : j.wellFormed = true ∧ encode j = w := by
  obtain ⟨hz, rfl⟩ := fixedBits_ok.1 h
  exact ⟨hw, he hz⟩

theorem encode_of_widthForm (h : widthForm w i = .ok j) (hw : wcOf w ≠ 3#2 → i.wellFormed = true)
    (he : w &&& 0x0000FFFC#32 = 0#32 → encode i = w) : j.wellFormed = true ∧ encode j = w := by
  obtain ⟨hz, hwc, rfl⟩ := widthForm_ok.1 h
  exact ⟨hw hwc, he hz⟩

/-- Settles O2, along the opcode map: a word is its own fields (R132), and its must-be-zero bits are 0. -/
theorem encodeOfDecode : Obligations.EncodeOfDecode := by
  intro w i h
  unfold decode at h
  split at h
  next hop => exact encode_of_fixedBits h rfl (fieldsRI hop)
  next hop => exact encode_of_fixedBits h rfl (fieldsRI hop)
  next hop => exact encode_of_fixedBits h rfl (fieldsR hop)
  next hop => exact encode_of_widthForm h bne_iff_ne.2 (fieldsM hop)
  next hop => exact encode_of_widthForm h bne_iff_ne.2 (fieldsM hop)
  next hop => exact encode_of_fixedBits h rfl (fieldsS0 hop)
  next hop => exact encode_of_fixedBits h rfl (fieldsS hop)
  next hop => exact encode_of_fixedBits h rfl (fieldsS00 hop)
  next hop => exact encode_of_fixedBits h rfl (fieldsD hop)
  next hop => exact encode_of_fixedBits h rfl fun _ => fieldsDI hop
  next hop => exact encode_of_fixedBits h rfl (fieldsD hop)
  next hop => exact encode_of_fixedBits h rfl (fieldsR hop)
  next hop => exact encode_of_fixedBits h rfl (fieldsN hop)
  next hop => exact encode_of_fixedBits h rfl (fieldsN hop)
  next hop => exact encode_of_fixedBits h rfl (fieldsR hop)
  next hop => exact encode_of_fixedBits h rfl (fieldsI hop)
  next hop => exact encode_of_fixedBits h rfl (fieldsN hop)
  next hop => exact encode_of_fixedBits h rfl (fieldsN hop)
  next hop => exact encode_of_fixedBits h rfl (fieldsR hop)
  next hop => exact encode_of_fixedBits h rfl (fieldsI hop)
  next hop => exact encode_of_fixedBits h rfl (fieldsI hop)
  next hop => exact encode_of_fixedBits h rfl (fieldsI hop)
  next hop => exact encode_of_fixedBits h rfl (fieldsR hop)
  next hop => exact encode_of_fixedBits h rfl (fieldsI8 hop)
  next hop => exact encode_of_fixedBits h rfl (fieldsR hop)
  next hop => exact encode_of_fixedBits h rfl (fieldsR hop)
  next hop => exact encode_of_fixedBits h rfl (fieldsN hop)
  next hop => exact encode_of_fixedBits h rfl (fieldsN hop)
  · cases h

/-! #### The rows of the opcode map (R137) -/

/-- The bits a row of the opcode map fixes are the opcode and some bits below it, which are 0. -/
theorem opcodeMap_fixed : ∀ row ∈ opcodeMap,
    opOf row.mask = BitVec.allOnes 8 ∧ row.pattern &&& 0x00FFFFFF#32 = 0#32 := by decide

/-- No two rows of the opcode map have one opcode. -/
theorem opcodeMap_injective : ∀ row ∈ opcodeMap, ∀ row' ∈ opcodeMap,
    opOf row.pattern = opOf row'.pattern → row = row' := by
  decide

/-- A word has a row's fixed bits when it has the row's opcode and its must-be-zero bits are 0. -/
theorem fixed_iff {row : OpcodeRow} (hr : row ∈ opcodeMap) :
    w &&& row.mask = row.pattern ↔ opOf row.pattern = opOf w ∧ w &&& (row.mask &&& 0x00FFFFFF#32) = 0#32 := by
  obtain ⟨hmask, hpat⟩ := opcodeMap_fixed row hr
  have hop : opOf (w &&& row.mask) = opOf w := by
    rw [opOf, BitVec.extractLsb'_and]
    exact (congrArg (opOf w &&& ·) hmask).trans BitVec.and_allOnes
  rw [← BitVec.and_assoc]
  constructor
  · intro h
    exact ⟨h ▸ hop, h ▸ hpat⟩
  · rintro ⟨ho, hz⟩
    rw [← fieldsN rfl hz, hop, ← ho, fieldsN rfl hpat]

/-- What the decoder makes of the word `w` at a row whose opcode it has, `i` being the command of its fields. -/
def rowForm (row : OpcodeRow) (w : Word) (i : Instr) : Except DecodeError Instr :=
  match row.hasWidthCode with
  | true => widthForm w i
  | false => fixedBits w (row.mask &&& 0x00FFFFFF#32) i

/-- The rows with a width code have the must-be-zero bits of format M (R132). -/
theorem opcodeMap_widthMask : ∀ row ∈ opcodeMap, row.hasWidthCode = true →
    row.mask &&& 0x00FFFFFF#32 = 0x0000FFFC#32 := by decide

/-- At the row whose opcode a word has, it decodes exactly when it matches the row. -/
theorem rowForm_ok {row : OpcodeRow} (hr : row ∈ opcodeMap) (hop : opOf row.pattern = opOf w) :
    rowForm row w i = .ok j ↔ RowMatches row w ∧ i = j := by
  rw [RowMatches, fixed_iff hr, rowForm]
  cases hwc : row.hasWidthCode with
  | true => simp [widthForm_ok, opcodeMap_widthMask row hr hwc, hop, wcOf, and_assoc]
  | false => simp [fixedBits_ok, hop]

/-- `e` is what the opcode map makes of the word `w`: what the row with its opcode says, or unknown if there is none. -/
def FollowsMap (w : Word) (e : Except DecodeError Instr) : Prop :=
  (∃ row ∈ opcodeMap, opOf row.pattern = opOf w ∧ ∃ i, e = rowForm row w i ∧ mnemonicOf i = row.mnemonic) ∨
  (∀ row ∈ opcodeMap, opOf row.pattern ≠ opOf w) ∧ e = .error .unknownOpcode

theorem followsMap_of_row (k : Nat) {row : OpcodeRow} (hk : opcodeMap[k]? = some row) (hop : opOf w = opOf row.pattern)
    {e : Except DecodeError Instr} (he : e = rowForm row w i) (hm : mnemonicOf i = row.mnemonic) : FollowsMap w e :=
  .inl ⟨row, List.mem_of_getElem? hk, hop.symm, i, he, hm⟩

/-- The decoder goes by the opcode map, row by row. -/
theorem decode_followsMap (w : Word) : FollowsMap w (decode w) := by
  unfold decode
  split
  next hop => exact followsMap_of_row 0 rfl hop rfl rfl
  next hop => exact followsMap_of_row 1 rfl hop rfl rfl
  next hop => exact followsMap_of_row 2 rfl hop rfl rfl
  next hop => exact followsMap_of_row 3 rfl hop rfl rfl
  next hop => exact followsMap_of_row 4 rfl hop rfl rfl
  next hop => exact followsMap_of_row 5 rfl hop rfl rfl
  next hop => exact followsMap_of_row 6 rfl hop rfl rfl
  next hop => exact followsMap_of_row 7 rfl hop rfl rfl
  next hop => exact followsMap_of_row 8 rfl hop rfl rfl
  next hop => exact followsMap_of_row 9 rfl hop rfl rfl
  next hop => exact followsMap_of_row 10 rfl hop rfl rfl
  next hop => exact followsMap_of_row 11 rfl hop rfl rfl
  next hop => exact followsMap_of_row 12 rfl hop rfl rfl
  next hop => exact followsMap_of_row 13 rfl hop rfl rfl
  next hop => exact followsMap_of_row 14 rfl hop rfl rfl
  next hop => exact followsMap_of_row 15 rfl hop rfl rfl
  next hop => exact followsMap_of_row 16 rfl hop rfl rfl
  next hop => exact followsMap_of_row 17 rfl hop rfl rfl
  next hop => exact followsMap_of_row 18 rfl hop rfl rfl
  next hop => exact followsMap_of_row 19 rfl hop rfl rfl
  next hop => exact followsMap_of_row 20 rfl hop rfl rfl
  next hop => exact followsMap_of_row 21 rfl hop rfl rfl
  next hop => exact followsMap_of_row 22 rfl hop rfl rfl
  next hop => exact followsMap_of_row 23 rfl hop rfl rfl
  next hop => exact followsMap_of_row 24 rfl hop rfl rfl
  next hop => exact followsMap_of_row 25 rfl hop rfl rfl
  next hop => exact followsMap_of_row 26 rfl hop rfl rfl
  next hop => exact followsMap_of_row 27 rfl hop rfl rfl
  · refine .inr ⟨?_, rfl⟩
    simp_all [opcodeMap, opOf, eq_comm]

/-- Settles O3: the row whose opcode a word has decides whether it decodes, and a word has one opcode. -/
theorem decodeFollowsOpcodeMap : Obligations.DecodeFollowsOpcodeMap := by
  intro w
  have opcode_of_match {row : OpcodeRow} (hr : row ∈ opcodeMap) (h : RowMatches row w) : opOf row.pattern = opOf w :=
    ((fixed_iff hr).1 h.1).1
  refine ⟨fun m => ⟨?_, ?_⟩, fun row hr row' hr' h h' =>
    opcodeMap_injective row hr row' hr' ((opcode_of_match hr h).trans (opcode_of_match hr' h').symm)⟩
  · rintro ⟨j, hj, rfl⟩
    rcases decode_followsMap w with ⟨row, hr, hop, i, hi, hm⟩ | ⟨-, he⟩
    · obtain ⟨h, rfl⟩ := (rowForm_ok hr hop).1 (hi ▸ hj)
      exact ⟨row, hr, hm.symm, h⟩
    · rw [he] at hj
      cases hj
  · rintro ⟨row, hr, rfl, h⟩
    have hop := opcode_of_match hr h
    rcases decode_followsMap w with ⟨row', hr', hop', i, hi, hm⟩ | ⟨hno, -⟩
    · obtain rfl := opcodeMap_injective row hr row' hr' (hop.trans hop'.symm)
      exact ⟨i, hi.trans ((rowForm_ok hr hop).2 ⟨h, rfl⟩), hm⟩
    · exact absurd hop (hno row hr)

/-! #### The bytes of a command (R142) -/

/-- A word is its four bytes. -/
theorem wordOfBytes_slices (w : Word) :
    wordOfBytes (w.extractLsb' 0 8) (w.extractLsb' 8 8) (w.extractLsb' 16 8) (w.extractLsb' 24 8) = w :=
  append_slices_eq (append_slices (append_slices rfl rfl) rfl) rfl

/-- Settles O4: the word of a command's bytes is its own word, and that decodes to it. -/
theorem decodeOfEncodedBytes : Obligations.DecodeOfEncodedBytes := by
  refine ⟨fun i rest hw => ⟨rfl, ?_⟩, by decide⟩
  simp only [encodeBytes, List.cons_append, List.nil_append, decodeBytes, wordOfBytes_slices, decodeOfEncode i hw]

/-- Settles O5, by decoding each word. -/
theorem sampleWordsDecode : Obligations.SampleWordsDecode := by
  unfold Obligations.SampleWordsDecode
  decide

/-- Settles O8: an ENGINE between commands fetches the word, and does nothing else before it raises. -/
theorem illegalWordFaults : Obligations.IllegalWordFaults := by
  intro s w e hc hw he
  simp only [engineStep, hc, fetchStep, hw, he, State.raise]

/-! #### The expansion of LA (R141, R170, R171) -/

section

variable {s : State} {d : RegIx}

theorem shiftLeft_or_eq_append (hi lo : Half) : (hi.setWidth 32 <<< 16) ||| lo.setWidth 32 = hi ++ lo := by
  apply BitVec.eq_of_getLsbD_eq
  intro i hi32
  rw [BitVec.getLsbD_append]
  by_cases h : i < 16
  · simp [h, hi32]
  · simp [h, hi32, (by omega : i - 16 < 16), BitVec.getLsbD_of_ge lo i (by omega)]

theorem exec_li (hd : s.desc = .none) (imm : Half) :
    exec (.li d imm) s = .next { s with
      x := wrote s d (imm.setWidth 32), status := 0#32, cont := .none, pc := s.pc + 1 } := by
  simp only [exec, execLi, outsideGroup_none hd, commit_ok]
  rfl

/-- LIH puts its immediate above the lower half of the register (R171). -/
theorem exec_lih (hd : s.desc = .none) (imm : Half) {t : Word} (hx : s.xAt d = some t) :
    exec (.lih d imm) s = .next { s with
      x := wrote s d (imm ++ t.extractLsb' 0 16), status := 0#32, cont := .none, pc := s.pc + 1 } := by
  simp only [exec, execLih, outsideGroup_none hd, getX_some hx, bind, Except.bind, shiftLeft_or_eq_append, commit_ok]
  rfl

end

/-- Settles O12: LI writes the lower half, and LIH keeps it under the upper. -/
theorem loadAddressExpansion : Obligations.LoadAddressExpansion := by
  intro s d imm hd
  have hlow : ((imm.extractLsb' 0 16).setWidth 32 : Word).extractLsb' 0 16 = imm.extractLsb' 0 16 := by
    rw [← BitVec.setWidth_eq_extractLsb' (by decide)]
    simp
  simp only [expand, runCommands, exec_li hd]
  rw [exec_lih (t := (imm.extractLsb' 0 16).setWidth 32), append_slices_eq rfl hlow]
  · simp [wrote]
  · exact hd
  · exact Vector.getElem_set_self d.isLt

end Sys2Proof.Laws

/-! ### A line framed by ULINE, byte by byte (45_uart.md R311, R315, R319) -/

namespace Sys2Proof.Machine

open Sys2Proof.Config

variable {s u : State} {base : Word} {d : RegIx} {reports : List Report} {bytes line rest : List Byte} {k : Nat}
  {b : Byte}

/-- ULINE has taken the bytes `taken`: LB with the byte kept for it holds the first C of them, the `k` others have been
reported as dropped, after the reports there were before (R315). -/
structure Framing (reports : List Report) (taken : List Byte) (k : Nat) (kept : Option Byte) (s : State) : Prop where
  lb : s.lb ++ kept.toList = taken.take s.cfg.capacity
  dropped : k = taken.length - s.cfg.capacity
  reports_eq : s.reports = reports ++ (taken.drop s.cfg.capacity).map .overflow

theorem Framing.congr {kept : Option Byte} (h : Framing reports bytes k kept s) (hcfg : u.cfg = s.cfg)
    (hlb : u.lb = s.lb) (hreports : u.reports = s.reports) : Framing reports bytes k kept u :=
  ⟨by rw [hlb, hcfg, h.lb], by rw [hcfg, h.dropped], by rw [hreports, hcfg, h.reports_eq]⟩

/-- A byte that is no terminator is kept while LB has a place, and is dropped and reported otherwise. -/
theorem Framing.byte (h : Framing reports bytes k none s) (d : RegIx) (hb : b ≠ term) :
    ∃ k' kept l, received s b (.line d k) = { s with reports := l, cont := .recvPoll (.line d k') kept } ∧
      Framing reports (bytes ++ [b]) k' kept { s with reports := l, cont := .recvPoll (.line d k') kept } := by
  obtain ⟨hlb, hk, hrep⟩ := h
  simp only [Option.toList_none, List.append_nil] at hlb
  by_cases hroom : bytes.length < s.cfg.capacity
  · have hlen : s.lb.length < s.cfg.capacity := by simp [hlb, hroom]
    refine ⟨k, some b, s.reports, by simp [Machine.received, hb, hlen], ?_, ?_, ?_⟩
    · simp [hlb, List.take_append, List.take_of_length_le (Nat.le_of_lt hroom)]
      omega
    · simp
      omega
    · simp [hrep, List.drop_eq_nil_of_le, hroom, Nat.le_of_lt hroom]
  · have hlen : ¬ s.lb.length < s.cfg.capacity := by simp [hlb]; omega
    have hfull : s.cfg.capacity ≤ bytes.length := Nat.not_lt.1 hroom
    refine ⟨k + 1, none, s.reports ++ [.overflow b], by simp [Machine.received, hb, hlen], ?_, ?_, ?_⟩
    · simp [hlb, List.take_append_of_le_length hfull]
    · simp
      omega
    · simp [hrep, List.drop_append_of_le_length hfull]

/-- What ULINE leaves in STATUS after a line of `n` bytes with room for `c` (R34, R315). -/
theorem statusWord_line (n c : Nat) :
    statusWord (if n - c = 0 then .ok else .bufferOverflow (n - c)) =
      if n ≤ c then 0#32 else BitVec.ofNat 32 (min (n - c) 0xFFFF * 65536 + 2) := by
  by_cases h : n ≤ c
  · simp [h, Nat.sub_eq_zero_of_le h, statusWord_ok]
  · have hne : n - c ≠ 0 := by omega
    simp only [h, hne, if_false]
    apply BitVec.eq_of_toNat_eq
    rw [statusCodes.2.2.2, BitVec.toNat_ofNat]
    omega

/-- ULINE's last step: the length of LB to Xd, and STATUS by the bytes dropped (R315). -/
theorem Framing.terminator (h : Framing reports line k none s) (d : RegIx) :
    received s term (.line d k) = { s with
      x := wrote s d (BitVec.ofNat 32 (min line.length s.cfg.capacity))
      status := if line.length ≤ s.cfg.capacity then 0#32
        else BitVec.ofNat 32 (min (line.length - s.cfg.capacity) 0xFFFF * 65536 + 2)
      cont := .none, pc := s.pc + 1 } := by
  obtain ⟨hlb, rfl, -⟩ := h
  have hlen : s.lb.length = min line.length s.cfg.capacity := by
    rw [Option.toList_none, List.append_nil] at hlb
    rw [hlb, List.length_take, Nat.min_comm]
  simp only [Machine.received, if_true, Machine.endLine, State.complete, statusWord_line, hlen, State.setX]

/-! #### The steps, with the profile's registers -/

/-- The state after a poll of RXNE: the byte kept before is in LB, and RDR is loaded next if RXNE is 1 (R311, R315). -/
def polled (s : State) (base : Word) (r : Receive) (kept : Option Byte) : State :=
  { s with
    lb := s.lb ++ kept.toList
    draws := s.draws + 1
    cont := if s.uart.rxne then .recvLoad r else .recvPoll r none
    trace := s.trace ++ [.load (addrOf ⟨base, uartIsr⟩) .word (isrValue s.uart s.nextDraw)] }

/-- The state after the load of RDR, before its byte is handled (R92, R311). -/
def loaded (s : State) (base : Word) : State :=
  { s with
    uart := { s.uart with rxne := false }
    trace := s.trace ++ [.load (addrOf ⟨base, uartRdr⟩) .word (s.uart.rdr.setWidth 32)] }

theorem engineStep_recvPoll (ha : accepted s.cfg = true) (hb : ServesUart s.cfg.regtab base) {r : Receive}
    {kept : Option Byte} (hc : s.cont = .recvPoll r kept) : engineStep s = .next (polled s base r kept) := by
  simp only [engineStep, hc, recvPoll_profile ha hb, commit_ok, polled]

theorem engineStep_recvLoad (ha : accepted s.cfg = true) (hb : ServesUart s.cfg.regtab base) {r : Receive}
    (hc : s.cont = .recvLoad r) :
    engineStep s = .next (received (loaded s base) (s.uart.rdr.extractLsb' 0 8) r) := by
  simp only [engineStep, hc, recvLoad_profile ha hb, commit_ok, loaded]

/-- ULINE's first step: LB is cleared, and RXNE polled (R315). -/
theorem exec_uline (hd : s.desc = .none) (ha : accepted s.cfg = true) (hb : ServesUart s.cfg.regtab base) (d : RegIx) :
    exec (.uline d) s = .next (polled { s with lb := [] } base (.line d 0) none) := by
  have hp := recvPoll_profile (s := { s with lb := [] }) ha hb (.line d 0) none
  simp only [exec, execUline, outsideGroup_none hd, hp, commit_ok, polled]

/-- RDR shows the byte that has arrived (R373). -/
theorem rdr_byte (b : Byte) : (b.setWidth 9).extractLsb' 0 8 = b := by
  rw [← BitVec.setWidth_eq_extractLsb' (by decide)]
  simp

/-- The state after UART_RX has delivered `b`, `rest` being what is left of IN (R373). -/
def arrived (s : State) (b : Byte) (rest : List Byte) : State :=
  { s with uart := { s.uart with input := rest, rdr := b.setWidth 9, rxne := true } }

theorem runAgents_uartRx (hf : s.fault = none) (hx : s.uart.rxne = false) (hin : s.uart.input = b :: rest)
    (l : List Agent) : runAgents (.next s) (.uartRx :: l) = runAgents (.next (arrived s b rest)) l := by
  have hen : enabled s .uartRx = true := by simp [enabled, uartRxEnabled, hf, hx, hin]
  have hrx : uartRxArrive s = arrived s b rest := by simp [uartRxArrive, hin, hx, arrived]
  rw [runAgents, thenStep, if_pos hen, agentStep, hrx]

/-- A byte arrives, a poll of RXNE sees it, and a load of RDR takes it (R311, R373). -/
theorem runAgents_receive (hf : s.fault = none) (ha : accepted s.cfg = true) (hb : ServesUart s.cfg.regtab base)
    {r : Receive} {kept : Option Byte} (hc : s.cont = .recvPoll r kept) (hx : s.uart.rxne = false)
    (hin : s.uart.input = b :: rest) :
    runAgents (.next s) [.uartRx, .engine, .engine] =
      .next (received (loaded (polled (arrived s b rest) base r kept) base) b r) := by
  have hload := engineStep_recvLoad (s := polled (arrived s b rest) base r kept) ha hb (r := r) rfl
  rw [show (polled (arrived s b rest) base r kept).uart.rdr.extractLsb' 0 8 = b from rdr_byte b] at hload
  rw [runAgents_uartRx hf hx hin, runAgents_engine (s := arrived s b rest) hf (by simp [arrived, hc]),
    engineStep_recvPoll (s := arrived s b rest) ha hb hc,
    runAgents_engine (s := polled (arrived s b rest) base r kept) hf nofun, hload, runAgents]

/-! #### A line taken byte by byte -/

theorem Framing.arrived {kept : Option Byte} (h : Framing reports bytes k kept s) (b : Byte) (rest : List Byte) :
    Framing reports bytes k kept (arrived s b rest) :=
  { h with }

/-- A poll puts the byte kept into LB. -/
theorem Framing.polled {kept : Option Byte} (h : Framing reports bytes k kept s) (base : Word) (r : Receive) :
    Framing reports bytes k none (polled s base r kept) :=
  { h with lb := (List.append_nil _).trans h.lb }

theorem Framing.loaded (h : Framing reports bytes k none s) (base : Word) :
    Framing reports bytes k none (loaded s base) :=
  { h with }

/-- The state in which ULINE ends, begun before the last bytes of its line arrived in `s`; `line` is the whole line. -/
def lineEnd (s : State) (d : RegIx) (reports : List Report) (line rest : List Byte) (rdr : BitVec 9) (draws : Nat)
    (trace : List BusEvent) : State :=
  { s with
    lb := line.take s.cfg.capacity
    reports := reports ++ (line.drop s.cfg.capacity).map .overflow
    x := wrote s d (BitVec.ofNat 32 (min line.length s.cfg.capacity))
    status := if line.length ≤ s.cfg.capacity then 0#32
      else BitVec.ofNat 32 (min (line.length - s.cfg.capacity) 0xFFFF * 65536 + 2)
    uart := { s.uart with input := rest, rdr := rdr, rxne := false }
    draws := draws, trace := trace, cont := .none, pc := s.pc + 1 }

/-- ULINE part-way takes the bytes left of its line and the terminator, each as it arrives. -/
theorem runAgents_line {bytes left : List Byte} {kept : Option Byte} (hf : s.fault = none) (ha : accepted s.cfg = true)
    (hb : ServesUart s.cfg.regtab base) (hx : s.uart.rxne = false) (hc : s.cont = .recvPoll (.line d k) kept)
    (h : Framing reports bytes k kept s) (hin : s.uart.input = left ++ term :: rest) (hl : term ∉ left) :
    ∃ rdr draws trace, runAgents (.next s) (receiveSchedule (left.length + 1)) =
      .next (lineEnd s d reports (bytes ++ left) rest rdr draws trace) := by
  induction left generalizing bytes k kept s with
  | nil =>
    have hline : Framing reports bytes k none (loaded (polled (arrived s term rest) base (.line d k) kept) base) :=
      ((h.arrived _ _).polled base _).loaded base
    have hlb : s.lb ++ kept.toList = bytes.take s.cfg.capacity := h.lb
    have hrun := runAgents_receive hf ha hb hc hx hin
    rw [hline.terminator] at hrun
    simp only [lineEnd, List.append_nil, ← hlb, ← h.reports_eq]
    exact ⟨_, _, _, hrun⟩
  | cons c left ih =>
    rw [List.mem_cons, not_or] at hl
    have hnext : Framing reports bytes k none
        (loaded (polled (arrived s c (left ++ term :: rest)) base (.line d k) kept) base) :=
      ((h.arrived _ _).polled base _).loaded base
    obtain ⟨k', kept', l, hrec, h'⟩ := hnext.byte d (Ne.symm hl.1)
    obtain ⟨rdr, draws, trace, hend⟩ := ih (s := { loaded (polled (arrived s c _) base (.line d k) kept) base with
      reports := l, cont := .recvPoll (.line d k') kept' }) hf ha hb rfl rfl h' rfl hl.2
    refine ⟨rdr, draws, trace, ?_⟩
    rw [List.length_cons, receiveSchedule, runAgents_append, runAgents_receive hf ha hb hc hx hin]
    rw [List.append_assoc] at hend
    exact (congrArg (fun o => runAgents (.next o) _) hrec).trans hend

/-- The whole of a ULINE, from its first poll. -/
theorem uline_frames (hr : Ready s) (ha : accepted s.cfg = true) (hb : ServesUart s.cfg.regtab base)
    (hx : s.uart.rxne = false) (hin : s.uart.input = line ++ term :: rest) (hl : term ∉ line) (d : RegIx) :
    ∃ rdr draws trace, runAgents (exec (.uline d) s) (receiveSchedule (line.length + 1)) =
      .next (lineEnd s d s.reports line rest rdr draws trace) := by
  obtain ⟨hf, hd⟩ := hr
  rw [exec_uline hd ha hb]
  have hstart : Framing s.reports [] 0 none (polled { s with lb := [] } base (.line d 0) none) :=
    ⟨by simp [polled], (Nat.zero_sub _).symm, by simp [polled]⟩
  exact runAgents_line (s := polled { s with lb := [] } base (.line d 0) none) hf ha hb hx (by simp [polled, hx]) hstart
    hin hl

end Sys2Proof.Machine

/-! ### The echo of a line, in whatever order the agents step (30_encoding.md R141, 45_uart.md R318, R381) -/

namespace Sys2Proof.Machine

open Sys2Proof.Config

/-- The bytes the ENGINE has still to take: the one in RDR, if it has not been loaded, and those of IN (R373). -/
def arriving (u : Uart) : List Byte := if u.rxne then u.rdr.extractLsb' 0 8 :: u.input else u.input

/-- The bytes the ENGINE has sent: those of OUT, and the one in TDR, if it has not been drained (R372). -/
def sent (u : Uart) : List Byte := u.output ++ if u.txe then [] else [u.tdr]

/-- What the echo of a line sends, with room for `c` bytes (R318). -/
def echoBytes (c : Nat) (line : List Byte) : List Byte := (line.take c).reverse ++ [term]

/-- What an echo sends after its command `j`: USENDL, which is 2, is followed by the terminator's USENDI. -/
def sentAfter (j : Nat) : List Byte := if j = 2 then [term] else []

/-- Where an echo of `line` begun in `s₀` can stand, the bytes of its last argument being still to be sent. -/
inductive EchoPhase (s₀ : State) (d : RegIx) (line rest : List Byte) (s : State) : List Byte → Prop
  /-- before ULINE -/
  | idle : s.pc = s₀.pc → s.cont = .none → s.reports = s₀.reports → arriving s.uart = line ++ term :: rest →
      EchoPhase s₀ d line rest s (echoBytes s₀.cfg.capacity line)
  /-- in ULINE, which has taken `bytes` of the line and not those `left` -/
  | receiving {bytes left : List Byte} {k : Nat} {kept : Option Byte} : s.pc = s₀.pc →
      (s.cont = .recvPoll (.line d k) kept ∨ s.cont = .recvLoad (.line d k) ∧ kept = none ∧ s.uart.rxne = true) →
      Framing s₀.reports bytes k kept s → bytes ++ left = line → arriving s.uart = left ++ term :: rest →
      EchoPhase s₀ d line rest s (echoBytes s₀.cfg.capacity line)
  /-- before LREV -/
  | framed : s.pc = s₀.pc + 1 → s.cont = .none → s.lb = line.take s₀.cfg.capacity →
      s.reports = s₀.reports ++ (line.drop s₀.cfg.capacity).map .overflow →
      EchoPhase s₀ d line rest s (echoBytes s₀.cfg.capacity line)
  /-- before USENDL -/
  | reversed : s.pc = s₀.pc + 2 → s.cont = .none → s.lb = (line.take s₀.cfg.capacity).reverse →
      s.reports = s₀.reports ++ (line.drop s₀.cfg.capacity).map .overflow →
      EchoPhase s₀ d line rest s (echoBytes s₀.cfg.capacity line)
  /-- in USENDL or USENDI -/
  | sending {j : Nat} {b : Byte} {bs : List Byte} : j = 2 ∨ j = 3 → s.pc = s₀.pc + j →
      (s.cont = .sendPoll b bs ∨ s.cont = .sendStore b bs ∧ s.uart.txe = true) →
      s.reports = s₀.reports ++ (line.drop s₀.cfg.capacity).map .overflow →
      EchoPhase s₀ d line rest s (b :: bs ++ sentAfter j)
  /-- after USENDL or USENDI -/
  | completed {j : Nat} : j = 2 ∨ j = 3 → s.pc = s₀.pc + (j + 1) → s.cont = .none →
      s.reports = s₀.reports ++ (line.drop s₀.cfg.capacity).map .overflow →
      EchoPhase s₀ d line rest s (sentAfter j)

/-- The echo of `line` begun in `s₀` goes on in `s`: what has been sent and what is still to be sent make the echo. -/
structure Echo (s₀ : State) (d : RegIx) (line rest : List Byte) (s : State) : Prop where
  cfg : s.cfg = s₀.cfg
  prog : s.prog = s₀.prog
  desc : s.desc = .none
  fault : s.fault = none
  phase : ∃ owed, EchoPhase s₀ d line rest s owed ∧
    sent s.uart ++ owed = s₀.uart.output ++ echoBytes s₀.cfg.capacity line

/-! #### Steps of the devices -/

/-- What the steps of the device agents that raise no fault leave as it is, of what an echo depends on. -/
structure DeviceStep (s t : State) : Prop where
  cfg : t.cfg = s.cfg
  prog : t.prog = s.prog
  desc : t.desc = s.desc
  fault : t.fault = s.fault
  pc : t.pc = s.pc
  cont : t.cont = s.cont
  lb : t.lb = s.lb
  reports : t.reports = s.reports
  arriving : arriving t.uart = arriving s.uart
  sent : sent t.uart = sent s.uart
  rxne : s.uart.rxne = true → t.uart.rxne = true
  txe : s.uart.txe = true → t.uart.txe = true

variable {s₀ s t u : State} {base : Word} {d : RegIx} {line rest owed : List Byte}

theorem DeviceStep.refl (s : State) : DeviceStep s s := ⟨rfl, rfl, rfl, rfl, rfl, rfl, rfl, rfl, rfl, rfl, id, id⟩

theorem takeTurn_deviceStep (s : State) : DeviceStep s (takeTurn s) := { DeviceStep.refl s with }

/-- A device agent that has a step faults, or keeps what has arrived and what has been sent (R370 to R373). -/
theorem agentStep_device {a : Agent} (ha : a ≠ .engine) (hen : enabled s a = true) (h : agentStep s a = .next t) :
    t.fault ≠ none ∨ DeviceStep s t := by
  cases a with
  | engine => exact absurd rfl ha
  | timer =>
    obtain ⟨u, hu, ⟨k, rfl⟩ | ⟨tm, rfl⟩⟩ := timer_next s <;> cases hu.symm.trans h
    · exact .inl nofun
    · exact .inr { DeviceStep.refl s with }
  | uartTx =>
    cases h
    have hx : s.uart.txe = false := by
      simp only [enabled, uartTxEnabled, Bool.and_eq_true, Bool.not_eq_true'] at hen
      exact hen.2
    exact .inr { DeviceStep.refl s with
      sent := by simp [uartTxDrain, sent, hx]
      txe := fun _ => rfl }
  | uartRx =>
    obtain ⟨u, hu, rfl | ⟨k, rfl⟩ | ⟨b, bs, hx, hin, rfl⟩⟩ := uartRx_next s <;> cases hu.symm.trans h
    · exact .inr (.refl _)
    · exact .inl nofun
    · exact .inr { DeviceStep.refl s with
        arriving := by simp [arriving, hx, hin, rdr_byte]
        rxne := fun _ => rfl }

theorem EchoPhase.of_deviceStep (h : DeviceStep s t) (hp : EchoPhase s₀ d line rest s owed) :
    EchoPhase s₀ d line rest t owed := by
  cases hp with
  | idle hpc hc hr hin => exact .idle (h.pc.trans hpc) (h.cont.trans hc) (h.reports.trans hr) (h.arriving.trans hin)
  | receiving hpc hc hf hl hin =>
    exact .receiving (h.pc.trans hpc)
      (hc.imp h.cont.trans fun ⟨hc, hk, hx⟩ => ⟨h.cont.trans hc, hk, h.rxne hx⟩)
      (hf.congr h.cfg h.lb h.reports) hl (h.arriving.trans hin)
  | framed hpc hc hlb hr => exact .framed (h.pc.trans hpc) (h.cont.trans hc) (h.lb.trans hlb) (h.reports.trans hr)
  | reversed hpc hc hlb hr => exact .reversed (h.pc.trans hpc) (h.cont.trans hc) (h.lb.trans hlb) (h.reports.trans hr)
  | sending hj hpc hc hr =>
    exact .sending hj (h.pc.trans hpc) (hc.imp h.cont.trans fun ⟨hc, hx⟩ => ⟨h.cont.trans hc, h.txe hx⟩)
      (h.reports.trans hr)
  | completed hj hpc hc hr => exact .completed hj (h.pc.trans hpc) (h.cont.trans hc) (h.reports.trans hr)

theorem Echo.of_deviceStep (h : Echo s₀ d line rest s) (ht : DeviceStep s t) : Echo s₀ d line rest t := by
  obtain ⟨owed, hp, hs⟩ := h.phase
  exact ⟨ht.cfg.trans h.cfg, ht.prog.trans h.prog, ht.desc.trans h.desc, ht.fault.trans h.fault, owed,
    hp.of_deviceStep ht, by rw [ht.sent]; exact hs⟩

/-! #### Steps of the ENGINE -/

section

variable (ha : accepted s₀.cfg = true) (hb : ServesUart s₀.cfg.regtab base)
  (hprog : s₀.prog.drop s₀.pc = (expand (.echoline d)).map encode) (hl : term ∉ line)

/-- A state that differs from one of an echo in no more than the ENGINE's place, the line and the UART. -/
theorem Echo.moved (h : Echo s₀ d line rest s) (hcfg : t.cfg = s.cfg) (hprog : t.prog = s.prog)
    (hdesc : t.desc = s.desc) (hfault : t.fault = s.fault) (hp : EchoPhase s₀ d line rest t owed)
    (hs : sent t.uart ++ owed = s₀.uart.output ++ echoBytes s₀.cfg.capacity line) : Echo s₀ d line rest t :=
  ⟨hcfg.trans h.cfg, hprog.trans h.prog, hdesc.trans h.desc, hfault.trans h.fault, owed, hp, hs⟩

include hprog in
/-- Between its commands, an echo's ENGINE begins the one at its place. -/
theorem Echo.begins (h : Echo s₀ d line rest s) (hc : s.cont = .none) {j : Nat} (hpc : s.pc = s₀.pc + j) {i : Instr}
    (hi : (expand (.echoline d))[j]? = some i) (hw : i.wellFormed = true) : engineStep s = exec i s := by
  have hfetch : s.prog[s.pc]? = some (encode i) := by
    rw [h.prog, hpc, ← List.getElem?_drop, hprog, List.getElem?_map, hi, Option.map_some]
  simp only [engineStep, hc, fetchStep, hfetch, Laws.decodeOfEncode i hw]

/-- After a poll of RXNE, ULINE loads RDR next if a byte was seen. -/
theorem EchoPhase.polled {bytes left : List Byte} {k : Nat} {kept : Option Byte} (hpc : s.pc = s₀.pc)
    (hf : Framing s₀.reports bytes k kept s) (hline : bytes ++ left = line)
    (hin : arriving s.uart = left ++ term :: rest) (base : Word) :
    EchoPhase s₀ d line rest (polled s base (.line d k) kept) (echoBytes s₀.cfg.capacity line) := by
  refine .receiving (kept := none) hpc ?_ (hf.polled base _) hline hin
  cases hx : s.uart.rxne with
  | false => exact .inl (by simp [Machine.polled, hx])
  | true => exact .inr ⟨by simp [Machine.polled, hx], rfl, hx⟩

include hl in
/-- The load of RDR takes a byte of the line, or the terminator, after which the line is framed. -/
theorem EchoPhase.loaded {bytes left : List Byte} {k : Nat} (hcfg : s.cfg = s₀.cfg) (hpc : s.pc = s₀.pc)
    (hx : s.uart.rxne = true) (hf : Framing s₀.reports bytes k none s) (hline : bytes ++ left = line)
    (hin : arriving s.uart = left ++ term :: rest)
    (ht : received (loaded s base) (s.uart.rdr.extractLsb' 0 8) (.line d k) = t) :
    (t.cfg = s.cfg ∧ t.prog = s.prog ∧ t.desc = s.desc ∧ t.fault = s.fault ∧ sent t.uart = sent s.uart) ∧
    EchoPhase s₀ d line rest t (echoBytes s₀.cfg.capacity line) := by
  rw [arriving, if_pos hx] at hin
  have hf' := hf.loaded base
  cases left with
  | nil =>
    obtain ⟨hbyte, -⟩ := List.cons.inj hin
    rw [List.append_nil] at hline
    subst hline
    rw [hbyte, hf'.terminator] at ht
    subst ht
    refine ⟨⟨rfl, rfl, rfl, rfl, rfl⟩, .framed (congrArg (· + 1) hpc) rfl ?_ ?_⟩
    · rw [← hcfg, ← hf.lb]
      simp [Machine.loaded]
    · rw [← hcfg]
      exact hf.reports_eq
  | cons c left =>
    obtain ⟨hbyte, hin⟩ := List.cons.inj hin
    have hc : c ≠ term := by
      rintro rfl
      simp [← hline] at hl
    obtain ⟨k', kept', l, hrec, hnext⟩ := hf'.byte d hc
    rw [hbyte, hrec] at ht
    subst ht
    exact ⟨⟨rfl, rfl, rfl, rfl, rfl⟩, .receiving hpc (.inl rfl) hnext (by rw [← hline]; simp) hin⟩

/-- After a poll of TXE, the byte is stored next if the transmitter is empty. -/
theorem EchoPhase.sending_of_poll {j : Nat} {b : Byte} {bs : List Byte} (hj : j = 2 ∨ j = 3) (hpc : s.pc = s₀.pc + j)
    (hc : s.cont = if s.uart.txe then .sendStore b bs else .sendPoll b bs)
    (hr : s.reports = s₀.reports ++ (line.drop s₀.cfg.capacity).map .overflow) :
    EchoPhase s₀ d line rest s (b :: bs ++ sentAfter j) := by
  refine .sending hj hpc ?_ hr
  cases hx : s.uart.txe with
  | false => exact .inl (by simpa [hx] using hc)
  | true => exact .inr ⟨by simpa [hx] using hc, rfl⟩

include ha hb hprog hl in
/-- A step of the ENGINE goes on with the echo. -/
theorem Echo.engineStep (h : Echo s₀ d line rest s) (ht : engineStep s = .next t) : Echo s₀ d line rest t := by
  have ha' : accepted s.cfg = true := h.cfg ▸ ha
  have hb' : ServesUart s.cfg.regtab base := h.cfg ▸ hb
  obtain ⟨owed, hp, hs⟩ := h.phase
  cases hp with
  | idle hpc hc hr hin =>
    rw [h.begins hprog hc hpc (j := 0) rfl rfl, exec_uline h.desc ha' hb'] at ht
    cases ht
    have hf : Framing s₀.reports [] 0 none { s with lb := [] } := ⟨by simp, by simp, by simp [hr]⟩
    exact h.moved rfl rfl rfl rfl (.polled (s := { s with lb := [] }) hpc hf (List.nil_append _) hin base) hs
  | @receiving bytes left k kept hpc hc hf hline hin =>
    rcases hc with hc | ⟨hc, rfl, hx⟩
    · rw [engineStep_recvPoll ha' hb' hc] at ht
      cases ht
      exact h.moved rfl rfl rfl rfl (.polled hpc hf hline hin base) hs
    · rw [engineStep_recvLoad ha' hb' hc] at ht
      obtain ⟨⟨hcfg, hprog, hdesc, hfault, hsent⟩, hp⟩ :=
        EchoPhase.loaded hl h.cfg hpc hx hf hline hin (Host.Outcome.next.inj ht)
      exact h.moved hcfg hprog hdesc hfault hp (by rw [hsent]; exact hs)
  | framed hpc hc hlb hr =>
    rw [h.begins hprog hc hpc (j := 1) rfl rfl] at ht
    simp only [exec, execLrev, outsideGroup_none h.desc, commit_ok] at ht
    cases ht
    exact h.moved rfl rfl rfl rfl (.reversed (congrArg (· + 1) hpc) rfl (congrArg List.reverse hlb) hr) hs
  | reversed hpc hc hlb hr =>
    rw [h.begins hprog hc hpc (j := 2) rfl rfl] at ht
    cases hline : s.lb with
    | nil =>
      simp only [exec, execUsendl, outsideGroup_none h.desc, hline, commit_ok] at ht
      cases ht
      have howed : echoBytes s₀.cfg.capacity line = sentAfter 2 := by
        rw [echoBytes, ← hlb, hline]
        rfl
      exact h.moved rfl rfl rfl rfl (.completed (.inl rfl) (congrArg (· + 1) hpc) rfl hr)
        ((congrArg _ howed).symm.trans hs)
    | cons b bs =>
      rw [exec_send h.desc (.inr ⟨rfl, hline⟩), sendPoll_profile ha' hb', commit_ok] at ht
      cases ht
      have howed : echoBytes s₀.cfg.capacity line = b :: bs ++ sentAfter 2 := by
        rw [echoBytes, ← hlb, hline]
        rfl
      exact h.moved rfl rfl rfl rfl (.sending_of_poll (.inl rfl) hpc rfl hr)
        ((congrArg _ howed).symm.trans hs)
  | @sending j b bs hj hpc hc hr =>
    rcases hc with hc | ⟨hc, hx⟩
    · simp only [Machine.engineStep, hc, sendPoll_profile ha' hb', commit_ok] at ht
      cases ht
      exact h.moved rfl rfl rfl rfl (.sending_of_poll hj hpc rfl hr) hs
    · simp only [Machine.engineStep, hc, sendStore_profile ha' hb' hx, commit_ok] at ht
      cases bs with
      | nil =>
        cases ht
        refine h.moved rfl rfl rfl rfl (.completed hj (congrArg (· + 1) hpc) rfl hr) ?_
        simpa [sent, hx] using hs
      | cons c cs =>
        cases ht
        refine h.moved rfl rfl rfl rfl (.sending hj hpc (.inl rfl) hr) ?_
        simpa [sent, hx] using hs
  | completed hj hpc hc hr =>
    rcases hj with rfl | rfl
    · rw [h.begins hprog hc hpc (j := 3) rfl rfl, exec_send h.desc (.inl ⟨.inr rfl, rfl⟩),
        sendPoll_profile ha' hb', commit_ok] at ht
      cases ht
      exact h.moved rfl rfl rfl rfl (.sending_of_poll (j := 3) (.inr rfl) hpc rfl hr) hs
    · have hend : s.prog[s.pc]? = none := by
        rw [h.prog, hpc, ← List.getElem?_drop, hprog]
        rfl
      simp [Machine.engineStep, hc, fetchStep, hend, h.desc] at ht

include ha hb hprog hl in
/-- A step of any agent goes on with the echo, unless it faults. -/
theorem Echo.agentStep {a : Agent} (h : Echo s₀ d line rest s) (hen : enabled s a = true)
    (ht : agentStep (takeTurn s) a = .next t) : t.fault ≠ none ∨ Echo s₀ d line rest t := by
  have h' := h.of_deviceStep (takeTurn_deviceStep s)
  by_cases hengine : a = .engine
  · subst hengine
    exact .inr (h'.engineStep ha hb hprog hl ht)
  · have hen' : enabled (takeTurn s) a = true := by cases a <;> exact hen
    exact (agentStep_device hengine hen' ht).imp_right h'.of_deviceStep

include ha hb hprog hl in
/-- All of a run that begins with an echo goes on with it, up to a fault. -/
theorem IsRun.echo {σ : Nat → State} (hr : IsRun σ) (h0 : Echo s₀ d line rest (σ 0)) (m : Nat) :
    (σ m).fault ≠ none ∨ Echo s₀ d line rest (σ m) := by
  induction m with
  | zero => exact .inr h0
  | succ m ih =>
    rcases ih with hf | h
    · exact .inl (by rw [hr.fault_stays hf]; exact hf)
    · rcases hr m with hstep | ⟨-, hstay⟩
      · obtain ⟨-, -, a, hnext, ht⟩ := step_next hstep
        exact h.agentStep ha hb hprog hl (nextAgent_enabled hnext) ht
      · exact .inr (hstay ▸ h)

include hprog in
/-- Where an echo ends, its bytes have been sent and the others reported. -/
theorem Echo.ended (h : Echo s₀ d line rest s) (he : Ended s) :
    s.uart.output = s₀.uart.output ++ echoBytes s₀.cfg.capacity line ∧
    s.reports = s₀.reports ++ (line.drop s₀.cfg.capacity).map .overflow := by
  obtain ⟨-, hend, -, hcont, htxe⟩ := he
  have hlen : s.prog.length = s₀.pc + 4 := by
    have hfour : s₀.prog.length - s₀.pc = 4 := by
      rw [← List.length_drop, hprog]
      rfl
    rw [h.prog]
    omega
  obtain ⟨owed, hp, hs⟩ := h.phase
  cases hp with
  | idle hpc | framed hpc | reversed hpc => omega
  | receiving _ hc => rcases hc with hc | ⟨hc, -⟩ <;> simp [hc] at hcont
  | sending _ _ hc => rcases hc with hc | ⟨hc, -⟩ <;> simp [hc] at hcont
  | completed hj hpc _ hr =>
    obtain rfl : _ = 3 := hj.resolve_left (by rintro rfl; omega)
    exact ⟨by simpa [sent, htxe, sentAfter] using hs, hr⟩

end

/-- Settles O40: ULINE by induction on the line, and the echo by its phases, which every step of every agent keeps. -/
theorem ulineFramesLine : Obligations.UlineFramesLine := by
  refine ⟨fun line rest s base d hr ha hb hx hin hl => ?_, ?_⟩
  · obtain ⟨rdr, draws, trace, hrun⟩ := uline_frames hr ha hb hx hin hl d
    exact ⟨_, hrun, rfl, rfl, rfl, rfl, rfl, rfl, rfl, rfl, rfl, hr.2, hr.1, rfl, rfl, rfl⟩
  · intro line rest σ n base d hrun hends hr hc ha hb hprog htxe hx hin hl
    have h0 : Echo (σ 0) d line rest (σ 0) :=
      ⟨rfl, rfl, hr.2, hr.1, _, .idle rfl hc rfl (by simp [arriving, hx, hin, term]), by simp [sent, htxe]⟩
    exact ((hrun.echo ha hb hprog hl h0 n).resolve_left (not_not.2 hends.1.1)).ended hprog hends.1

end Sys2Proof.Machine

/-! ### The operand commands (R170 to R172) -/

namespace Sys2Proof.Laws

open Sys2Proof.Machine

section

variable {s : State} {d : RegIx}

/-- LIH reads its register before it writes it (R31, R171). -/
theorem exec_lih_unwritten (hd : s.desc = .none) (imm : Half) (hx : s.xAt d = none) :
    exec (.lih d imm) s = .next (s.raise (.unwrittenRegister d)) := by
  simp only [exec, execLih, outsideGroup_none hd, getX_none hx, bind, Except.bind, commit_raise]

/-- GETS writes STATUS to its register and keeps it (R172). -/
theorem exec_gets (hd : s.desc = .none) :
    exec (.gets d) s = .next { s with x := wrote s d s.status, cont := .none, pc := s.pc + 1 } := by
  simp only [exec, execGets, outsideGroup_none hd, commit_ok]
  rfl

end

/-- Settles O11: the encodings by the round trip (R132), each outcome by the command's own rule. -/
theorem operandCommandResults : Obligations.OperandCommandResults :=
  ⟨fun d imm => ⟨RoundTrip.li d imm rfl, RoundTrip.lih d imm rfl, RoundTrip.gets d rfl⟩,
    fun _ _ imm hd => ⟨exec_li hd imm, fun _ => exec_lih hd imm, exec_lih_unwritten hd imm, exec_gets hd⟩⟩

end Sys2Proof.Laws

/-! ### Commands out of place, reports of a read, and DBEGIN (42_register_field.md R203, R212, R219, R222) -/

namespace Sys2Proof.Machine

open Sys2Proof.Config

variable {s : State} {i : Instr} {d : RegIx} {sel fld : Byte} {r : Reg}

/-- A command that may not stand in a group faults inside one (R219). -/
theorem outsideGroup_illFormed (hd : s.desc ≠ .none) (i : Instr) (b : Except Stop State) :
    outsideGroup s i b = .next (s.raise (.illFormedGroup (some (encode i)))) := by
  unfold outsideGroup
  split
  · contradiction
  · rfl

/-- A command of a group faults outside one (R219). -/
theorem insideGroup_illFormed (hd : s.desc = .none) (i : Instr)
    (b : Option Reg → List StagedOp → Option Cause → Except Stop State) :
    insideGroup s i b = .next (s.raise (.illFormedGroup (some (encode i)))) := by
  simp [insideGroup, hd]

theorem widthOfCode_isSome : ∀ wc : BitVec 2, wc ≠ 3#2 → (widthOfCode wc).isSome := by decide

/-- A staging command, WRITE or MODIFY with no open group (R219). -/
theorem exec_illFormed_outside (hi : inGroup i = true) (hd : s.desc = .none) :
    exec i s = .next (s.raise (.illFormedGroup (some (encode i)))) := by
  cases i with
  | dset | dseti | dxor | dbits | write | modify => exact insideGroup_illFormed hd _ _
  | _ => cases hi

/-- Any other command inside an open group (R219). -/
theorem exec_illFormed_inside (hw : i.wellFormed = true) (hi : inGroup i = false) (hd : s.desc ≠ .none) :
    exec i s = .next (s.raise (.illFormedGroup (some (encode i)))) := by
  cases i with
  | dset | dseti | dxor | dbits | write | modify => cases hi
  | ldv d b wc =>
    obtain ⟨n, hn⟩ := Option.isSome_iff_exists.1 (widthOfCode_isSome wc (bne_iff_ne.1 hw))
    simp only [exec, execLdv, hn, outsideGroup_illFormed hd]
  | stv v b wc =>
    obtain ⟨n, hn⟩ := Option.isSome_iff_exists.1 (widthOfCode_isSome wc (bne_iff_ne.1 hw))
    simp only [exec, execStv, hn, outsideGroup_illFormed hd]
  | _ => exact outsideGroup_illFormed hd _ _

theorem engineStep_fetched {w : Word} (hc : s.cont = .none) (hw : s.prog[s.pc]? = some w) (hi : decode w = .ok i) :
    engineStep s = exec i s := by
  simp only [engineStep, hc, fetchStep, hw, hi]

/-- The end of the program inside an open group (R219). -/
theorem engineStep_illFormed_end (hc : s.cont = .none) (hp : s.prog[s.pc]? = none) (hd : s.desc ≠ .none) :
    engineStep s = .next (s.raise (.illFormedGroup none)) := by
  simp only [engineStep, hc, fetchStep, hp]
  split
  · contradiction
  · rfl

/-- Settles O9: a command out of place faults with its own word, which is the word fetched. -/
theorem illFormedGroupFaults : Obligations.IllFormedGroupFaults := by
  refine ⟨fun s w i hc hw hi hplace => ?_, fun s hc hpc hd => ?_⟩
  · obtain ⟨hwf, rfl⟩ := Laws.encodeOfDecode w i hi
    rw [engineStep_fetched hc hw hi]
    by_cases hg : inGroup i = true
    · exact exec_illFormed_outside hg (hplace.1 hg)
    · exact exec_illFormed_inside hwf (by simpa using hg) (mt hplace.2 hg)
  · exact engineStep_illFormed_end hc (List.getElem?_eq_none hpc.ge) hd

theorem exec_rread_unknownRegister (hd : s.desc = .none) (hr : resolve s.cfg.regtab sel = none) :
    exec (.rread d sel) s = .next (s.report .unknownRegister) := by
  simp only [exec, execRread, outsideGroup_none hd, hr, commit_ok]

theorem exec_rfield_unknownRegister (hd : s.desc = .none) (hr : resolve s.cfg.regtab sel = none) :
    exec (.rfield d sel fld) s = .next (s.report .unknownRegister) := by
  simp only [exec, execRfield, outsideGroup_none hd, hr, commit_ok]

theorem exec_rread_unreadable (hd : s.desc = .none) (hr : resolve s.cfg.regtab sel = some r)
    (hc : canRead r = false) : exec (.rread d sel) s = .next (s.report .permissionDenied) := by
  simp only [exec, execRread, outsideGroup_none hd, hr, hc, if_true, commit_ok]

theorem exec_rfield_unreadable (hd : s.desc = .none) (hr : resolve s.cfg.regtab sel = some r)
    (hc : canRead r = false) : exec (.rfield d sel fld) s = .next (s.report .permissionDenied) := by
  simp only [exec, execRfield, outsideGroup_none hd, hr, hc, if_true, commit_ok]

theorem exec_rfield_unknownField (hd : s.desc = .none) (hr : resolve s.cfg.regtab sel = some r)
    (hc : canRead r = true) (hf : fieldAt r fld = none) :
    exec (.rfield d sel fld) s = .next (s.report .unknownField) := by
  simp [exec, execRfield, outsideGroup_none hd, hr, hc, hf]

theorem exec_rfield_unreadableField {f : Field} (hd : s.desc = .none) (hr : resolve s.cfg.regtab sel = some r)
    (hc : canRead r = true) (hf : fieldAt r fld = some f) (hp : readable f.perm = false) :
    exec (.rfield d sel fld) s = .next (s.report .permissionDenied) := by
  simp [exec, execRfield, outsideGroup_none hd, hr, hc, hf, hp]

/-- Settles O19: the causes in the order of R203, each a report that changes STATUS, CONT and the pc alone. -/
theorem registerReadErrors : Obligations.RegisterReadErrors := fun _ _ _ _ hd =>
  ⟨fun hr => ⟨exec_rread_unknownRegister hd hr, exec_rfield_unknownRegister hd hr⟩, fun _ hr =>
    ⟨fun hc => ⟨exec_rread_unreadable hd hr hc, exec_rfield_unreadable hd hr hc⟩,
      fun hc hf => exec_rfield_unknownField hd hr hc hf,
      fun _ hc hf hp => exec_rfield_unreadableField hd hr hc hf hp⟩⟩

theorem exec_dbegin_resolved (hd : s.desc = .none) (hr : resolve s.cfg.regtab sel = some r) :
    exec (.dbegin sel) s = .next { s with desc := .opened (some r) [] none }.advance := by
  simp only [exec, execDbegin, outsideGroup_none hd, hr, commit_ok]

theorem exec_dbegin_unknownRegister (hd : s.desc = .none) (hr : resolve s.cfg.regtab sel = none) :
    exec (.dbegin sel) s = .next { s with desc := .opened none [] (some .unknownRegister) }.advance := by
  simp only [exec, execDbegin, outsideGroup_none hd, hr, commit_ok]

/-- Settles O20: a group on the register named, or one poisoned at once (R212). -/
theorem dbeginOpensGroup : Obligations.DbeginOpensGroup := fun _ _ hd =>
  ⟨fun _ hr => exec_dbegin_resolved hd hr, fun hr => exec_dbegin_unknownRegister hd hr⟩

end Sys2Proof.Machine

/-! ### Staging, and a WRITE or MODIFY that fails (42_register_field.md R203, R213 to R218, R220, R222) -/

namespace Sys2Proof.Machine

open Sys2Proof.Config

variable {s : State} {i : Instr} {reg : Option Reg} {r : Reg} {ops : List StagedOp} {p : Option Cause} {c : Cause}
  {k fld : Byte} {t : Word} {v : RegIx} {f : Field} {mk : Field → Word → StagedOp}

/-! #### DESC after a staging command: the checks in their order -/

theorem stageField_poisoned : stageField reg ops (some c) k t mk = .opened reg ops (some c) := rfl

theorem stageField_unknownField (hf : fieldAt r k = none) :
    stageField (some r) ops none k t mk = .opened (some r) ops (some .unknownField) := by
  simp only [stageField, hf]

theorem stageField_unwritable (hf : fieldAt r k = some f) (hw : writable f.perm = false) :
    stageField (some r) ops none k t mk = .opened (some r) ops (some .permissionDenied) := by
  simp only [stageField, hf, hw, if_true]

theorem stageField_tooWide (hf : fieldAt r k = some f) (hw : writable f.perm = true)
    (ht : 2 ^ (f.hi - f.lo + 1) ≤ t.toNat) :
    stageField (some r) ops none k t mk = .opened (some r) ops (some .valueTooWide) := by
  have hx : fits t f = false := decide_eq_false (Nat.not_lt.2 ht)
  simp [stageField, hf, hw, hx]

theorem stageField_fits (hf : fieldAt r k = some f) (hw : writable f.perm = true)
    (ht : t.toNat < 2 ^ (f.hi - f.lo + 1)) :
    stageField (some r) ops none k t mk = .opened (some r) (ops ++ [mk f t]) none := by
  have hx : fits t f = true := decide_eq_true ht
  simp [stageField, hf, hw, hx]

theorem stageBits_poisoned : stageBits reg ops (some c) t = .opened reg ops (some c) := rfl

theorem stageBits_unwritable (hd : t &&& declaredMask r &&& ~~~writableMask r ≠ 0#32) :
    stageBits (some r) ops none t = .opened (some r) ops (some .permissionDenied) :=
  if_pos hd

theorem stageBits_reserved (hd : t &&& declaredMask r &&& ~~~writableMask r = 0#32)
    (hz : t &&& reservedMask r ≠ 0#32) :
    stageBits (some r) ops none t = .opened (some r) ops (some .reservedBit) := by
  simp [stageBits, hd, hz]

theorem stageBits_tooWide (hd : t &&& declaredMask r &&& ~~~writableMask r = 0#32)
    (hz : t &&& reservedMask r = 0#32) (ht : 2 ^ r.decl.width.bits ≤ t.toNat) :
    stageBits (some r) ops none t = .opened (some r) ops (some .valueTooWide) := by
  simp [stageBits, hd, hz, ht]

theorem stageBits_fits (hd : t &&& declaredMask r &&& ~~~writableMask r = 0#32)
    (hz : t &&& reservedMask r = 0#32) (ht : t.toNat < 2 ^ r.decl.width.bits) :
    stageBits (some r) ops none t = .opened (some r) (ops ++ [.bits t]) none := by
  simp [stageBits, hd, hz, ht]

/-! #### The commands -/

/-- DSET, DSETI and DXOR, once their operand is read, change DESC by the staging of their field (R213 to R215). -/
theorem Stages.exec_eq {mk : Field → StagedOp} (h : Stages s i fld mk t) (hd : s.desc = .opened reg ops p) :
    exec i s = .next { s with desc := stageField reg ops p fld t fun f _ => mk f }.advance := by
  cases h with
  | dset v _ _ hv =>
    simp only [exec, execDset, insideGroup_opened hd, getX_some hv, bind, Except.bind, commit_ok]
    rfl
  | dseti =>
    simp only [exec, execDseti, insideGroup_opened hd, commit_ok]
    rfl
  | dxor v _ _ hv =>
    simp only [exec, execDxor, insideGroup_opened hd, getX_some hv, bind, Except.bind, commit_ok]
    rfl

/-- DBITS, once its operand is read, changes DESC by the staging of its bits (R216). -/
theorem exec_dbits (hv : s.xAt v = some t) (hd : s.desc = .opened reg ops p) :
    exec (.dbits v) s = .next { s with desc := stageBits reg ops p t }.advance := by
  simp only [exec, execDbits, insideGroup_opened hd, getX_some hv, bind, Except.bind, commit_ok]

/-- DESC set to what it is: the command only moves on. -/
theorem setDesc_same {d : Desc} (hd : s.desc = d) : { s with desc := d } = s := by
  subst hd
  rfl

/-- Settles O21: each command is its staging, which passes every check. -/
theorem stagingStages : Obligations.StagingStages := by
  intro s r ops hd
  refine ⟨fun i fld mk t f hi hf hw ht => ?_, fun v t hv hdecl hz ht => ?_⟩
  · rw [hi.exec_eq hd, stageField_fits hf hw ht]
    rfl
  · rw [exec_dbits hv hd, stageBits_fits hdecl hz ht]
    rfl

theorem exec_staging_unwritten (hv : s.xAt v = none) (hd : s.desc = .opened reg ops p) (fld : Byte) :
    exec (.dset v fld) s = .next (s.raise (.unwrittenRegister v)) ∧
    exec (.dxor v fld) s = .next (s.raise (.unwrittenRegister v)) ∧
    exec (.dbits v) s = .next (s.raise (.unwrittenRegister v)) := by
  simp only [exec, execDset, execDxor, execDbits, insideGroup_opened hd, getX_none hv, bind, Except.bind, commit_raise,
    and_self]

/-- Settles O22: each command is its staging, and the checks of a staging stand in the order of R203; a poisoned group
comes before them, an unwritten operand before that. -/
theorem stagingPoisons : Obligations.StagingPoisons := by
  intro s reg ops p hd
  refine ⟨?_, ?_, fun v fld hv => exec_staging_unwritten hv hd fld⟩
  · rintro c rfl
    refine ⟨fun i fld mk t hi => ?_, fun v t hv => ?_⟩
    · rw [hi.exec_eq hd, stageField_poisoned, setDesc_same hd]
      rfl
    · rw [exec_dbits hv hd, stageBits_poisoned, setDesc_same hd]
      rfl
  · rintro r rfl rfl
    refine ⟨fun i fld mk t hi => ?_, fun v t hv => ?_⟩
    · rw [hi.exec_eq hd]
      exact ⟨fun hf => by rw [stageField_unknownField hf]; rfl, fun f hf =>
        ⟨fun hw => by rw [stageField_unwritable hf hw]; rfl,
          fun hw ht => by rw [stageField_tooWide hf hw ht]; rfl⟩⟩
    · rw [exec_dbits hv hd]
      exact ⟨fun hdecl => by rw [stageBits_unwritable hdecl]; rfl,
        fun hdecl hz => by rw [stageBits_reserved hdecl hz]; rfl,
        fun hdecl hz ht => by rw [stageBits_tooWide hdecl hz ht]; rfl⟩

/-! #### WRITE and MODIFY -/

theorem exec_write_unknownRegister (hd : s.desc = .opened none ops p) :
    exec .write s = .next ({ s with desc := .none }.report .unknownRegister) := by
  simp only [exec, execWrite, insideGroup_opened hd, commit_ok]

theorem exec_modify_unknownRegister (hd : s.desc = .opened none ops p) :
    exec .modify s = .next ({ s with desc := .none }.report .unknownRegister) := by
  simp only [exec, execModify, insideGroup_opened hd, commit_ok]

theorem exec_write_denied (hd : s.desc = .opened (some r) ops p) (hw : canWrite r = false) :
    exec .write s = .next ({ s with desc := .none }.report .permissionDenied) := by
  simp only [exec, execWrite, insideGroup_opened hd, hw, if_true, commit_ok]

theorem exec_modify_denied (hd : s.desc = .opened (some r) ops p) (hrw : canRead r = false ∨ canWrite r = false) :
    exec .modify s = .next ({ s with desc := .none }.report .permissionDenied) := by
  simp only [exec, execModify, insideGroup_opened hd, Bool.and_eq_false_iff.2 hrw, if_true, commit_ok]

theorem exec_write_poisoned (hd : s.desc = .opened (some r) ops (some c)) (hw : canWrite r = true) :
    exec .write s = .next ({ s with desc := .none }.report c) := by
  simp [exec, execWrite, insideGroup_opened hd, hw]

theorem exec_modify_poisoned (hd : s.desc = .opened (some r) ops (some c)) (hr : canRead r = true)
    (hw : canWrite r = true) : exec .modify s = .next ({ s with desc := .none }.report c) := by
  simp [exec, execModify, insideGroup_opened hd, hr, hw]

/-- A report writes the STATUS of its cause, ends the command and moves on (R34, R352). -/
theorem report_eq (s : State) (c : Cause) :
    s.report c = { s with status := causeStatus c, cont := .none, pc := s.pc + 1 } := by
  cases c <;> rfl

/-- Settles O25: the checks of WRITE and MODIFY in their order, each a report in the state with the group closed. -/
theorem groupFailuresReport : Obligations.GroupFailuresReport := by
  intro s reg ops p hd
  refine ⟨?_, ?_⟩
  · rintro rfl
    exact ⟨exec_write_unknownRegister hd, exec_modify_unknownRegister hd⟩
  · rintro r rfl
    refine ⟨fun hw => exec_write_denied hd hw, fun hrw => exec_modify_denied hd hrw, ?_⟩
    rintro c rfl hw
    exact ⟨by rw [exec_write_poisoned hd hw, report_eq], fun hr => by rw [exec_modify_poisoned hd hr hw, report_eq]⟩

end Sys2Proof.Machine

/-! ### The bits validated operations touch (10_state.md R44, 42_register_field.md R206, R207, R221) -/

namespace Sys2Proof.Machine

open Sys2Proof.Config

variable {r : Reg} {ops : List StagedOp} {o : StagedOp} {v A : Word} {i : Nat}

/-- The bits an operation may change (R206). -/
def touched (r : Reg) : StagedOp → Word
  | .set f _ => fieldMask f
  | .xor f _ => fieldMask f
  | .bits _ => writableMask r

/-- A validated operation touches writable bits alone. -/
theorem touched_writable (ho : OpLegal r o) : touched r o &&& ~~~writableMask r = 0#32 := by
  have field {f : Field} (hf : f ∈ r.decl.fields) (hw : writable f.perm = true) :
      fieldMask f &&& ~~~writableMask r = 0#32 := by
    refine and_eq_zero_iff_bits.2 fun i _ hb => ?_
    have hm : (writableMask r).getLsbD i = true := maskOf_bit_iff.2 ⟨f, List.mem_filter.2 ⟨hf, hw⟩, hb⟩
    simp [hm]
  cases o with
  | set f x => exact field ho.1 ho.2.1
  | xor f x => exact field ho.1 ho.2.1
  | bits x => exact BitVec.and_not_self _

/-- A value within `m` is within any mask that covers `m`. -/
theorem within_trans {x m : Word} (hx : x &&& ~~~m = 0#32) (hm : m &&& ~~~A = 0#32) : x &&& ~~~A = 0#32 := by
  refine and_eq_zero_iff_bits.2 fun i hi hb => and_eq_zero_iff_bits.1 hm i hi ?_
  simpa [hi] using and_eq_zero_iff_bits.1 hx i hi hb

/-- Bits put in place of those of `m` change nothing outside a mask that covers `m`. -/
theorem replace_outside {x m : Word} (hx : x &&& ~~~m = 0#32) (hm : m &&& ~~~A = 0#32) :
    ((v &&& ~~~m) ||| x) &&& ~~~A = v &&& ~~~A := by
  refine BitVec.eq_of_getLsbD_eq fun i hi => ?_
  simp only [BitVec.getLsbD_and, BitVec.getLsbD_or]
  cases hmi : m.getLsbD i with
  | true => simp only [and_eq_zero_iff_bits.1 hm i hi hmi, Bool.and_false]
  | false =>
    cases hxi : x.getLsbD i with
    | true => simp only [and_eq_zero_iff_bits.1 (within_trans hx hm) i hi hxi, Bool.and_false]
    | false => simp only [BitVec.getLsbD_not, hmi, hi, decide_true, Bool.not_false, Bool.and_true, Bool.or_false]

/-- Bits flipped within a mask change nothing outside it. -/
theorem xor_outside {x : Word} (hx : x &&& ~~~A = 0#32) : (v ^^^ x) &&& ~~~A = v &&& ~~~A := by
  refine BitVec.eq_of_getLsbD_eq fun i hi => ?_
  simp only [BitVec.getLsbD_and, BitVec.getLsbD_xor]
  cases hxi : x.getLsbD i with
  | true => simp only [and_eq_zero_iff_bits.1 hx i hi hxi, Bool.and_false]
  | false => rw [Bool.xor_false]

/-- A validated operation changes nothing outside a mask that covers what it touches (R206). -/
theorem applyOp_outside (ho : OpLegal r o) (hA : touched r o &&& ~~~A = 0#32) :
    applyOp r v o &&& ~~~A = v &&& ~~~A := by
  cases o with
  | set f x => exact replace_outside (fits_within ho.2.2) hA
  | xor f x => exact xor_outside (within_trans (fits_within ho.2.2) hA)
  | bits x => exact replace_outside ho hA

theorem applyOps_outside (ho : OpsLegal r ops) (hA : ∀ o ∈ ops, touched r o &&& ~~~A = 0#32) :
    applyOps r ops v &&& ~~~A = v &&& ~~~A := by
  induction ops generalizing v with
  | nil => rfl
  | cons o ops ih =>
    obtain ⟨hA0, hA⟩ := List.forall_mem_cons.1 hA
    obtain ⟨ho0, ho⟩ := List.forall_mem_cons.1 ho
    exact (ih ho hA).trans (applyOp_outside ho0 hA0)

/-- Two declared fields of a legal register that share a bit are one (R43 (c), (d)). -/
theorem field_eq_of_bit (hr : regLegal r = true) {f g : Field} (hf : f ∈ r.decl.fields) (hg : g ∈ r.decl.fields)
    (hi : i < 32) (hfi : (fieldMask f).getLsbD i = true) (hgi : (fieldMask g).getLsbD i = true) : f = g := by
  obtain ⟨-, hrange, hapart, -, -⟩ := regLegal_parts hr
  simp only [fieldsInRange, List.all_eq_true, Bool.and_eq_true, decide_eq_true_eq] at hrange
  rw [fieldMask_bit hi (hrange f hf).1, Bool.and_eq_true, decide_eq_true_eq, decide_eq_true_eq] at hfi
  rw [fieldMask_bit hi (hrange g hg).1, Bool.and_eq_true, decide_eq_true_eq, decide_eq_true_eq] at hgi
  by_contra hne
  rcases pairwise_mem fieldsDisjoint hapart hf hg hne with h | h <;>
    simp only [fieldsDisjoint, Bool.or_eq_true, decide_eq_true_eq] at h <;> omega

/-- No bit of a legal register is both readable and write-only (R44). -/
theorem woMask_bit_of_readable (hr : regLegal r = true) (hi : i < 32) (h : (readableMask r).getLsbD i = true) :
    (woMask r).getLsbD i = false := by
  obtain ⟨f, hf, hfi⟩ := maskOf_bit_iff.1 h
  obtain ⟨hf, hp⟩ := List.mem_filter.1 hf
  refine Bool.eq_false_iff.2 fun hwo => ?_
  obtain ⟨g, hg, hgi⟩ := maskOf_bit_iff.1 hwo
  obtain ⟨hg, hq⟩ := List.mem_filter.1 hg
  rw [field_eq_of_bit hr hf hg hi hfi hgi, of_decide_eq_true hq] at hp
  cases hp

/-- A declared bit is readable or write-only (R44). -/
theorem readableMask_bit_of_declared (h : (declaredMask r).getLsbD i = true) (hwo : (woMask r).getLsbD i = false) :
    (readableMask r).getLsbD i = true := by
  obtain ⟨f, hf, hfi⟩ := maskOf_bit_iff.1 h
  refine maskOf_bit_iff.2 ⟨f, List.mem_filter.2 ⟨hf, ?_⟩, hfi⟩
  cases hp : f.perm with
  | ro | rw => rfl
  | wo =>
    have : (woMask r).getLsbD i = true := maskOf_bit_iff.2 ⟨f, List.mem_filter.2 ⟨hf, decide_eq_true hp⟩, hfi⟩
    simp [hwo] at this

/-- The base of a modify has the value read at every readable bit (R207). -/
theorem modifyBase_readable (hr : regLegal r = true) (v : Word) :
    modifyBase r v &&& readableMask r = v &&& readableMask r := by
  refine BitVec.eq_of_getLsbD_eq fun i hi => ?_
  simp only [modifyBase, BitVec.getLsbD_and, BitVec.getLsbD_or]
  cases h : (readableMask r).getLsbD i with
  | false => simp
  | true => simp [woMask_bit_of_readable hr hi h]

/-- A value within the declared bits has, outside the write-only bits, readable bits alone. -/
theorem readable_of_declared (hz : v &&& reservedMask r = 0#32) (hw : v &&& ~~~widthMask r = 0#32) :
    v &&& readableMask r &&& ~~~woMask r = v &&& ~~~woMask r := by
  refine BitVec.eq_of_getLsbD_eq fun i hi => ?_
  simp only [BitVec.getLsbD_and, BitVec.getLsbD_not, hi, decide_true, Bool.true_and]
  cases hv : v.getLsbD i with
  | false => simp
  | true =>
    cases hwo : (woMask r).getLsbD i with
    | true => simp
    | false =>
      have hwidth : (widthMask r).getLsbD i = true := by simpa [hi] using and_eq_zero_iff_bits.1 hw i hi hv
      have hdecl : (declaredMask r).getLsbD i = true := by
        simpa [reservedMask, hi, hwidth] using and_eq_zero_iff_bits.1 hz i hi hv
      simp [readableMask_bit_of_declared hdecl hwo]

/-- The base of a modify has the value read outside the write-only bits, if that value sets declared bits alone
(R207). -/
theorem modifyBase_not_wo (hz : v &&& reservedMask r = 0#32) (hw : v &&& ~~~widthMask r = 0#32) :
    modifyBase r v &&& ~~~woMask r = v &&& ~~~woMask r := by
  have hwdef : r.decl.wdef &&& woMask r &&& ~~~woMask r = 0#32 := by
    rw [BitVec.and_assoc, BitVec.and_not_self]
    exact BitVec.and_zero
  rw [modifyBase, BitVec.and_or_distrib_right, hwdef, BitVec.or_zero, readable_of_declared hz hw]

theorem and_right_comm_word (x y z : Word) : x &&& y &&& z = x &&& z &&& y := by
  rw [BitVec.and_assoc, BitVec.and_comm y, BitVec.and_assoc]

/-- Settles O26: operations change only what they touch, which is writable, and a modify's base keeps what is
readable. -/
theorem storedValuesRespectFields : Obligations.StoredValuesRespectFields := by
  intro r ops v hr hops
  obtain ⟨-, -, -, -, hwdef⟩ := regLegal_parts hr
  obtain ⟨-, hwdef⟩ := Bool.and_eq_true_iff.1 hwdef
  refine ⟨applyOps_unreserved hops (of_decide_eq_true hwdef), applyOps_unreserved hops (modifyBase_unreserved r v),
    applyOps_outside hops fun o ho => touched_writable (hops o ho), fun A hA => ?_⟩
  have outside (v : Word) : applyOps r ops v &&& ~~~A = v &&& ~~~A :=
    applyOps_outside hops fun o ho => by cases o <;> exact hA _ ho
  refine ⟨outside _, ?_, fun hz hw => ?_⟩
  · rw [outside, and_right_comm_word, modifyBase_readable hr, and_right_comm_word]
  · rw [outside, and_right_comm_word, modifyBase_not_wo hz hw, and_right_comm_word]

end Sys2Proof.Machine

/-! ### Which commands report an InvalidFieldError, and what it leaves (42_register_field.md R222, 60_exceptions.md
R353) -/

namespace Sys2Proof.Machine

open Sys2Proof.Config

variable {s t u : State}

/-! #### The steps that leave the command under way -/

theorem memRead_pc {a : Word} {n : Width} {v : Word} (h : memRead s a n = .ok (v, u)) : u.pc = s.pc := by
  obtain ⟨k, rx, -, rfl⟩ := memRead_frame h
  rfl

theorem memWrite_pc {a : Word} {n : Width} {v : Word} (h : memWrite s a n v = .ok u) : u.pc = s.pc := by
  obtain ⟨r, w, -, -, -, -, -, rfl⟩ := memWrite_frame h
  rfl

theorem modifyLoad_pc {r : Reg} {ops : List StagedOp} {next : AfterModify} (h : modifyLoad s r ops next = .ok t) :
    t.pc = s.pc := by
  obtain ⟨v, u, hm, rfl⟩ := modifyLoad_next h
  exact (memRead_pc hm :)

theorem sendPoll_pc {b : Byte} {rest : List Byte} (h : sendPoll s b rest = .ok t) : t.pc = s.pc := by
  obtain ⟨r, f, v, u, -, -, hm, rfl⟩ := sendPoll_next h
  exact (memRead_pc hm :)

theorem recvPoll_pc {k : Receive} (h : recvPoll s k none = .ok t) : t.pc = s.pc := by
  obtain ⟨r, f, v, u, -, -, hm, rfl⟩ := recvPoll_next h
  exact (memRead_pc (s := s) hm :)

theorem startTimer_pc {n : Word} {delay : Bool} (h : startTimer s n delay = .ok t) : t.pc = s.pc := by
  obtain ⟨r, f, u, -, -, hm, rfl⟩ := startTimer_next h
  exact (memWrite_pc hm :)

/-! #### Steps that report nothing -/

/-- A step that does not complete its command, or completes it with another outcome than InvalidFieldError. -/
def NoReport (s t : State) : Prop := t.pc = s.pc + 1 → t.status.extractLsb' 0 8 ≠ 1#8

theorem noReport_of_pc (h : t.pc = s.pc) : NoReport s t := fun hpc => by omega

theorem noReport_complete {o : Result} (ho : kindField o ≠ 1#8) : NoReport s (u.complete o) := fun _ => by
  rw [State.complete_status, statusWord_kind]
  exact ho

theorem noReport_ok : NoReport s (u.complete .ok) := noReport_complete (by decide)

theorem noReport_completePin : NoReport s (completePin u) := by
  unfold completePin
  split
  · split
    · exact noReport_complete (by decide)
    · exact noReport_ok
  · exact noReport_ok

theorem checkedStart_noReport {n : Word} {delay : Bool} (h : checkedStart s n delay = .ok t) :
    NoReport s t ∨ t = s.report .valueTooWide := by
  rcases checkedStart_next h with rfl | rfl | h
  · exact .inr rfl
  · exact .inl noReport_ok
  · exact .inl (noReport_of_pc (startTimer_pc h))

theorem pinStore_noReport {p : Half} {bit : Nat} (h : pinStore s p bit = .ok t) :
    NoReport s t ∨ t = s.report .pinOutOfRange := by
  rcases pinStore_next h with ⟨-, rfl⟩ | ⟨r, u, -, -, -, rfl⟩
  · exact .inr rfl
  · exact .inl noReport_completePin

theorem pollUif_noReport {delay : Bool} (h : pollUif s delay = .ok t) : NoReport s t := by
  obtain ⟨r, f, v, u, -, -, hm, ht⟩ := pollUif_next h
  have hu : u.pc = s.pc := (memRead_pc hm).trans (by cases delay <;> rfl)
  rcases ht with ⟨-, rfl⟩ | ⟨-, ⟨-, rfl⟩ | ⟨-, rfl⟩⟩
  · exact noReport_of_pc hu
  · exact noReport_of_pc hu
  · exact noReport_ok

/-! #### The commands -/

/-- The commands R353 names for InvalidFieldError. -/
def mayReport : Instr → Bool
  | .rread _ _ | .rfield _ _ _ | .write | .modify | .stv _ _ _ => true
  | .tstart _ | .delay _ | .usend _ | .pon _ | .poff _ => true
  | .li _ _ | .lih _ _ | .gets _ | .ldv _ _ _ | .dbegin _ | .dset _ _ | .dseti _ _ | .dxor _ _ | .dbits _ => false
  | .tstarti _ | .tpoll | .tack | .delayi _ | .usendi _ | .urecv _ | .uline _ | .lrev | .usendl => false

theorem mayReport_names {i : Instr} (h : mayReport i = true) :
    i = .write ∨ i = .modify ∨ (∃ d sel, i = .rread d sel) ∨ (∃ d sel fld, i = .rfield d sel fld) ∨
      (∃ v b wc, i = .stv v b wc) ∨ (∃ v, i = .tstart v) ∨ (∃ v, i = .delay v) ∨ (∃ v, i = .usend v) ∨
      (∃ p, i = .pon p) ∨ ∃ p, i = .poff p := by
  cases i with
  | rread | rfield | write | modify | stv | tstart | delay | usend | pon | poff => simp
  | _ => cases h

/-- A command that writes STATUS reports nothing in its first step, or is one R353 names and its first step is the
report alone, with the group closed. -/
theorem exec_noReport (i : Instr) (h : exec i s = .next t) (hi : keepsStatus i = false) :
    NoReport s t ∨ mayReport i = true ∧ ∃ c, t = { s with desc := .none }.report c := by
  by_cases hf : ∃ k, t = s.raise k
  · obtain ⟨k, rfl⟩ := hf
    exact .inl (noReport_of_pc rfl)
  have report (hd : s.desc = .none) {c : Cause} (ht : t = s.report c) : ∃ c, t = { s with desc := .none }.report c :=
    ⟨c, by rw [setDesc_same hd, ht]⟩
  cases i with
  | gets | dbegin | dset | dseti | dxor | dbits => cases hi
  | li d imm =>
    obtain ⟨-, ⟨⟩⟩ := (outsideGroup_next h).resolve_right hf
    exact .inl noReport_ok
  | lih d imm =>
    obtain ⟨-, w, -, ⟨⟩⟩ := (outsideGroup_getX_next h).resolve_right hf
    exact .inl noReport_ok
  | ldv d b wc =>
    obtain ⟨-, n, a, w, u, -, -, -, rfl⟩ := (exec_ldv_next h).resolve_right hf
    exact .inl noReport_ok
  | stv v b wc =>
    obtain ⟨hd, n, a, w, -, -, -, ⟨-, ht⟩ | ⟨u, -, -, rfl⟩⟩ := (exec_stv_next h).resolve_right hf
    · exact .inr ⟨rfl, report hd ht⟩
    · exact .inl noReport_ok
  | rread d sel =>
    obtain ⟨hd, ⟨c, ht⟩ | ⟨r, w, u, -, -, -, rfl⟩⟩ := (exec_rread_next h).resolve_right hf
    · exact .inr ⟨rfl, report hd ht⟩
    · exact .inl noReport_ok
  | rfield d sel fld =>
    obtain ⟨hd, ⟨c, ht⟩ | ⟨r, f, w, u, -, -, -, -, -, rfl⟩⟩ := (exec_rfield_next h).resolve_right hf
    · exact .inr ⟨rfl, report hd ht⟩
    · exact .inl noReport_ok
  | write =>
    obtain ⟨r, ops, p, -, hc | ⟨q, u, -, -, -, -, rfl⟩⟩ := (exec_write_next h).resolve_right hf
    · exact .inr ⟨rfl, hc⟩
    · exact .inl noReport_ok
  | modify =>
    obtain ⟨r, ops, p, -, hc | ⟨q, -, -, -, -, hm⟩⟩ := (exec_modify_next h).resolve_right hf
    · exact .inr ⟨rfl, hc⟩
    · exact .inl (noReport_of_pc (modifyLoad_pc (s := { s with desc := .none }) hm))
  | tstart v =>
    obtain ⟨hd, n, -, hb⟩ := (outsideGroup_getX_next h).resolve_right hf
    exact (checkedStart_noReport hb).imp_right fun ht => ⟨rfl, report hd ht⟩
  | delay v =>
    obtain ⟨hd, n, -, hb⟩ := (outsideGroup_getX_next h).resolve_right hf
    exact (checkedStart_noReport hb).imp_right fun ht => ⟨rfl, report hd ht⟩
  | tstarti imm => exact .inl (noReport_of_pc (startTimer_pc ((outsideGroup_next h).resolve_right hf).2))
  | delayi imm =>
    obtain ⟨-, ⟨-, rfl⟩ | ⟨-, hb⟩⟩ := (exec_delayi_next h).resolve_right hf
    · exact .inl noReport_ok
    · exact .inl (noReport_of_pc (startTimer_pc hb))
  | tpoll => exact .inl (pollUif_noReport ((outsideGroup_next h).resolve_right hf).2)
  | tack =>
    obtain ⟨r, f, -, -, hm⟩ := ackLoad_next ((outsideGroup_next h).resolve_right hf).2
    exact .inl (noReport_of_pc (modifyLoad_pc hm))
  | pon imm =>
    obtain ⟨hd, hb⟩ := (outsideGroup_next h).resolve_right hf
    exact (pinStore_noReport hb).imp_right fun ht => ⟨rfl, report hd ht⟩
  | poff imm =>
    obtain ⟨hd, hb⟩ := (outsideGroup_next h).resolve_right hf
    exact (pinStore_noReport hb).imp_right fun ht => ⟨rfl, report hd ht⟩
  | usend v =>
    obtain ⟨hd, w, -, ⟨-, ht⟩ | ⟨-, hb⟩⟩ := (exec_usend_next h).resolve_right hf
    · exact .inr ⟨rfl, report hd ht⟩
    · exact .inl (noReport_of_pc (sendPoll_pc hb))
  | usendi b => exact .inl (noReport_of_pc (sendPoll_pc ((outsideGroup_next h).resolve_right hf).2))
  | urecv d => exact .inl (noReport_of_pc (recvPoll_pc ((outsideGroup_next h).resolve_right hf).2))
  | uline d =>
    exact .inl (noReport_of_pc (recvPoll_pc (s := { s with lb := [] }) ((outsideGroup_next h).resolve_right hf).2))
  | lrev =>
    obtain ⟨-, ⟨⟩⟩ := (outsideGroup_next h).resolve_right hf
    exact .inl noReport_ok
  | usendl =>
    obtain ⟨-, ⟨-, rfl⟩ | ⟨c, rest, -, hb⟩⟩ := (exec_usendl_next h).resolve_right hf
    · exact .inl noReport_ok
    · exact .inl (noReport_of_pc (sendPoll_pc hb))

/-- Settles O54: a first step that shows an InvalidFieldError is its command's report, which touches nothing but STATUS,
CONT, the pc and an open group. -/
theorem invalidFieldErrorTouchesNothing : Obligations.InvalidFieldErrorTouchesNothing := by
  intro i s t h hi hpc hkind
  obtain ⟨hmay, c, rfl⟩ := (exec_noReport i h hi).resolve_left fun hno => hno hpc hkind
  exact ⟨rfl, rfl, rfl, rfl, rfl, rfl, rfl, rfl, rfl, mayReport_names hmay⟩

end Sys2Proof.Machine

/-! ### A start of the timer (43_timer.md R260 to R262) -/

namespace Sys2Proof.Machine

open Sys2Proof.Config

variable {s : State} {base n : Word}

/-- With the mode bits clear a load of CR1 shows CEN and OPM alone (R92, R93). -/
theorem cr1Value_of_modesClear {tm : Timer} (hm : ModesClear tm) :
    cr1Value tm = flagAt tm.cen 0 ||| flagAt tm.opm 3 := by
  obtain ⟨hudis, hurs, harpe, huif⟩ := hm
  simp [cr1Value, hudis, hurs, harpe, huif, flagAt]

/-- What a start stores to CR1: the value read, with OPM and CEN set (R207, R260). -/
theorem start_value (base : Word) {tm : Timer} (hm : ModesClear tm) :
    applyOps ⟨base, timCr1⟩ [.set (bitField .opm 3 .rw) 1#32, .set (bitField .cen 0 .rw) 1#32]
      (modifyBase ⟨base, timCr1⟩ (cr1Value tm)) = cr1Value tm ||| 9#32 := by
  have hbits : ∀ cen opm : Bool,
      applyOps ⟨0#32, timCr1⟩ [.set (bitField .opm 3 .rw) 1#32, .set (bitField .cen 0 .rw) 1#32]
        (modifyBase ⟨0#32, timCr1⟩ (flagAt cen 0 ||| flagAt opm 3)) = flagAt cen 0 ||| flagAt opm 3 ||| 9#32 := by
    decide
  rw [cr1Value_of_modesClear hm]
  exact hbits tm.cen tm.opm

/-- The store of a start to CR1 passes the checks of R91 and R93, and sets CEN and OPM. -/
theorem start_value_stored (s : State) (base : Word) {tm : Timer} (hm : ModesClear tm) :
    (cr1Value tm ||| 9#32) &&& reservedMask ⟨base, timCr1⟩ = 0#32 ∧
    deviceStore s ⟨base, timCr1⟩ (cr1Value tm ||| 9#32) =
      .ok { s with tim := { s.tim with cen := true, opm := true } } := by
  have hbits : ∀ cen opm : Bool, let v := flagAt cen 0 ||| flagAt opm 3 ||| 9#32
      v &&& reservedMask ⟨0#32, timCr1⟩ = 0#32 ∧
      (v.getLsbD 1 || v.getLsbD 2 || v.getLsbD 7 || v.getLsbD 11) = false ∧ v.getLsbD 0 = true ∧
      v.getLsbD 3 = true := by
    decide
  rw [cr1Value_of_modesClear hm]
  obtain ⟨hres, hguard, hcen, hopm⟩ := hbits tm.cen tm.opm
  refine ⟨hres, ?_⟩
  simp only [deviceStore, timCr1, hguard, Bool.false_eq_true, if_false, storeCr1, hcen, hopm]

/-- The load of CR1 of a start, with the profile's registers (R260). -/
theorem engineStep_startModify (ha : accepted s.cfg = true) (hb : ServesTimer s.cfg.regtab base) {delay : Bool}
    (hc : s.cont = .startModify delay) :
    engineStep s = .next { s with
      trace := s.trace ++ [.load (addrOf ⟨base, timCr1⟩) .word (cr1Value s.tim)]
      cont := .modifyStore ⟨base, timCr1⟩ [.set (bitField .opm 3 .rw) 1#32, .set (bitField .cen 0 .rw) 1#32]
        (cr1Value s.tim) (.started delay) } := by
  have hr : needReg s .timCr1 = .ok ⟨base, timCr1⟩ := needReg_ok.2 hb.1
  have ho : needField ⟨base, timCr1⟩ .opm = .ok (bitField .opm 3 .rw) := needField_ok.2 rfl
  have he : needField ⟨base, timCr1⟩ .cen = .ok (bitField .cen 0 .rw) := needField_ok.2 rfl
  have hs : deviceLoad s ⟨base, timCr1⟩ = .ok (cr1Value s.tim, s) := congrArg Except.ok (shown_word rfl s _)
  have hm := memRead_declared ha (regNamed_mem hb.1) hs
  simp only [engineStep, hc, startModify, modifyLoad, hr, ho, he, hm, bind, Except.bind, commit_ok]
  rfl

/-- The store to CR1 of a start, with the profile's registers, and what follows it (R93, R260). -/
theorem engineStep_startStore (ha : accepted s.cfg = true) (hb : ServesTimer s.cfg.regtab base) {tm : Timer}
    (hm : ModesClear tm) {delay : Bool}
    (hc : s.cont = .modifyStore ⟨base, timCr1⟩ [.set (bitField .opm 3 .rw) 1#32, .set (bitField .cen 0 .rw) 1#32]
      (cr1Value tm) (.started delay)) :
    engineStep s = .next (afterModify { s with
      tim := { s.tim with cen := true, opm := true }
      trace := s.trace ++ [.store (addrOf ⟨base, timCr1⟩) .word (cr1Value tm ||| 9#32)] } (.started delay)) := by
  obtain ⟨hz, hs⟩ := start_value_stored s base hm
  have hw := memWrite_declared ha (regNamed_mem hb.1) (by simp [timCr1]) hz hs
  simp only [engineStep, hc, modifyStore, start_value base hm, hw, bind, Except.bind, commit_ok]
  rfl

/-- The state in which a start of `n` leaves the devices and TRACE (R260). -/
def started (s : State) (base n : Word) : State :=
  { s with
    tim := { s.tim with arr := n.extractLsb' 0 16, opm := true, cen := true }
    trace := s.trace ++ [.store (addrOf ⟨base, timArr⟩) .word n,
      .load (addrOf ⟨base, timCr1⟩) .word (cr1Value s.tim),
      .store (addrOf ⟨base, timCr1⟩) .word (cr1Value s.tim ||| 9#32)] }

/-- The three ENGINE steps of a start, alone or inside a delay: the period is stored to ARR, CR1 is loaded and stored
(R260). -/
theorem runAgents_start (hf : s.fault = none) (ha : accepted s.cfg = true) (hb : ServesTimer s.cfg.regtab base)
    (hm : ModesClear s.tim) (hn : n.toNat ≤ 0xFFFF) (delay : Bool) :
    runAgents (commit s (startTimer s n delay)) [.engine, .engine] =
      .next (afterModify (started s base n) (.started delay)) := by
  rw [startTimer_profile ha hb hn, commit_ok, runAgents_engine (by exact hf) (by nofun),
    engineStep_startModify (by exact ha) (by exact hb) rfl, runAgents_engine (by exact hf) (by nofun),
    engineStep_startStore (by exact ha) (by exact hb) (tm := s.tim) hm rfl, runAgents]
  simp only [started, List.append_assoc]
  rfl

/-- Settles O27: TSTART and TSTARTI are a start that is no part of a delay. -/
theorem startCommandsStartCount : Obligations.StartCommandsStartCount := by
  intro s base n i hready ha hb hm hn hi
  obtain ⟨hf, hd⟩ := hready
  rw [exec_start hd hb hn (.inl ⟨rfl, hi⟩), runAgents_start hf ha hb hm hn]
  rfl

/-- Settles O31: a period of 0 fits, and a delay of it completes before its start. -/
theorem zeroDelayCompletes : Obligations.ZeroDelayCompletes := by
  intro s hd
  refine ⟨?_, fun base v hb hv => ?_⟩
  · simp only [exec, execDelayi, outsideGroup_none hd, if_true, commit_ok]
    rfl
  · have hc : checkedStart s 0#32 true = .ok (s.complete .ok) := by simp [checkedStart_profile hb]
    simp only [exec, execDelay, outsideGroup_none hd, getX_some hv, hc, bind, Except.bind, commit_ok]
    rfl

end Sys2Proof.Machine

/-! ### Polls and ticks (43_timer.md R260, 60_exceptions.md R370) -/

namespace Sys2Proof.Machine

open Sys2Proof.Config

variable {s : State} {base : Word}

/-- A poll that finds UIF clear polls on (R260). -/
theorem pollUif_clear (ha : accepted s.cfg = true) (hb : ServesTimer s.cfg.regtab base) (hu : s.tim.uif = false)
    (delay : Bool) :
    pollUif s delay = .ok { s with
      tst := if delay then .counting else s.tst
      trace := s.trace ++ [.load (addrOf ⟨base, timSr⟩) .word 0#32], cont := .pollUif delay } := by
  simp only [pollUif_profile ha hb, hu, Bool.false_eq_true, if_false]

/-- A poll that finds UIF set ends TPOLL (R260, R263). -/
theorem pollUif_set (ha : accepted s.cfg = true) (hb : ServesTimer s.cfg.regtab base) (hu : s.tim.uif = true) :
    pollUif s false = .ok { s with
      tst := .expired, trace := s.trace ++ [.load (addrOf ⟨base, timSr⟩) .word 1#32]
      status := 0#32, cont := .none, pc := s.pc + 1 } := by
  simp only [pollUif_profile ha hb, hu, if_true, Bool.false_eq_true, if_false]
  rfl

theorem engineStep_pollUif {delay : Bool} (hc : s.cont = .pollUif delay) :
    engineStep s = commit s (pollUif s delay) := by
  simp only [engineStep, hc]

/-- A tick with the count below the period is no fault (R370). -/
theorem timerTick_of_lt (h : s.tim.cnt.toNat < s.tim.arr.toNat) : timerTick s = { s with tim := tickTimer s.tim } :=
  if_neg (Nat.not_le.2 h)

/-- A tick with the count at or past the period faults (R370). -/
theorem timerTick_of_le (h : s.tim.arr.toNat ≤ s.tim.cnt.toNat) :
    timerTick s = s.raise (.timerOverrunPeriod s.tim.cnt s.tim.arr) :=
  if_pos h

/-- The last tick of a period (R370). -/
theorem tickTimer_last {tm : Timer} (h : tm.cnt.toNat + 1 = tm.arr.toNat) :
    tickTimer tm = { tm with uif := true, cnt := 0#16, cen := tm.cen && !tm.opm } :=
  if_pos (by bv_omega)

/-- A tick that is not the last of its period counts one (R370). -/
theorem tickTimer_of_lt {tm : Timer} (h : tm.cnt.toNat + 1 < tm.arr.toNat) :
    tickTimer tm = { tm with cnt := tm.cnt + 1#16 } ∧ (tm.cnt + 1#16).toNat = tm.cnt.toNat + 1 :=
  ⟨if_neg (by bv_omega), by bv_omega⟩

/-- In a run by schedule, a timer that counts, below its period, ticks. -/
theorem runAgents_timer (hf : s.fault = none) (hcen : s.tim.cen = true) (h : s.tim.cnt.toNat < s.tim.arr.toNat)
    (l : List Agent) : runAgents (.next s) (.timer :: l) = runAgents (.next { s with tim := tickTimer s.tim }) l := by
  have harr : s.tim.arr ≠ 0#16 := by bv_omega
  have hen : enabled s .timer = true := by simp [enabled, timerEnabled, hf, hcen, harr]
  rw [runAgents, thenStep, if_pos hen, agentStep, timerTick_of_lt h]

end Sys2Proof.Machine

/-! ### TPOLL (43_timer.md R263) -/

namespace Sys2Proof.Machine

open Sys2Proof.Config

variable {s : State} {base : Word} {pc : Nat}

/-- While UIF is clear, a TPOLL part-way makes one load of SR a step (R263, R358). -/
theorem runAgents_tpoll (hf : s.fault = none) (ha : accepted s.cfg = true) (hb : ServesTimer s.cfg.regtab base)
    (hu : s.tim.uif = false) (hc : s.cont = .pollUif false) (k : Nat) :
    runAgents (.next s) (List.replicate k .engine) = .next { s with
      trace := s.trace ++ List.replicate k (.load (addrOf ⟨base, timSr⟩) .word 0#32), cont := .pollUif false } := by
  induction k generalizing s with
  | zero => simp [runAgents, ← hc]
  | succ k ih =>
    rw [List.replicate_succ, runAgents_engine hf (by simp [hc]), engineStep_pollUif hc, pollUif_clear ha hb hu,
      commit_ok, ih (by exact hf) (by exact ha) (by exact hb) (by exact hu) rfl]
    simp [List.replicate_succ]

/-- A TPOLL part-way at index `pc`. -/
structure Tpolling (base : Word) (pc : Nat) (s : State) : Prop where
  accepted : accepted s.cfg = true
  serves : ServesTimer s.cfg.regtab base
  fault : s.fault = none
  cont : s.cont = .pollUif false
  pc : s.pc = pc

/-- A TPOLL that stood at index `pc` has completed (R263). -/
def Tpolled (pc : Nat) (s : State) : Prop := s.tst = .expired ∧ s.status = 0#32 ∧ s.cont = .none ∧ s.pc = pc + 1

/-- The timer counts, with `m` ticks to its period. -/
def Counting (m : Nat) (tm : Timer) : Prop := tm.cen = true ∧ 0 < m ∧ tm.cnt.toNat + m = tm.arr.toNat

/-- A tick of a counting timer sets UIF, or leaves one fewer to come (R370). -/
theorem Counting.tick {m : Nat} {tm : Timer} (h : Counting (m + 1) tm) :
    (tickTimer tm).uif = true ∨ Counting m (tickTimer tm) := by
  obtain ⟨hcen, -, hm⟩ := h
  by_cases hlast : m = 0
  · rw [tickTimer_last (by omega)]
    exact .inl rfl
  · obtain ⟨htick, hcnt⟩ := tickTimer_of_lt (tm := tm) (by omega)
    rw [htick]
    exact .inr ⟨hcen, by omega, by simp only [hcnt]; omega⟩

theorem Counting.enabled {m : Nat} (h : Counting m s.tim) (hf : s.fault = none) : enabled s .timer = true := by
  obtain ⟨hcen, hpos, hm⟩ := h
  have harr : s.tim.arr ≠ 0#16 := by bv_omega
  simp [Machine.enabled, timerEnabled, hf, hcen, harr]

theorem tickTimer_uif {tm : Timer} (h : tm.uif = true) : (tickTimer tm).uif = true := by
  unfold tickTimer
  split
  · rfl
  · exact h

/-- What a step of an agent does to a TPOLL part-way: it faults, or completes the TPOLL; or TPOLL goes on, the ENGINE
having found UIF clear, an agent of the UART having left the timer, or the timer having ticked. -/
theorem Tpolling.agentStep (h : Tpolling base pc s) (a : Agent) :
    ∃ t, agentStep s a = .next t ∧ (t.fault ≠ none ∨ Tpolled pc t ∨
      Tpolling base pc t ∧ ((a = .engine → s.tim.uif = false) ∧ a ≠ .timer ∧ t.tim = s.tim ∨
        a = .timer ∧ t.tim = tickTimer s.tim)) := by
  obtain ⟨ha, hb, hf, hc, hpc⟩ := h
  cases a with
  | engine =>
    rw [Machine.agentStep, engineStep_pollUif hc]
    cases hu : s.tim.uif with
    | true =>
      rw [pollUif_set ha hb hu]
      exact ⟨_, rfl, .inr (.inl ⟨rfl, rfl, rfl, by rw [← hpc]⟩)⟩
    | false =>
      rw [pollUif_clear ha hb hu]
      exact ⟨_, rfl, .inr (.inr ⟨⟨ha, hb, hf, rfl, hpc⟩, .inl ⟨fun _ => rfl, nofun, rfl⟩⟩)⟩
  | timer =>
    refine ⟨_, rfl, ?_⟩
    by_cases hlt : s.tim.cnt.toNat < s.tim.arr.toNat
    · rw [timerTick_of_lt hlt]
      exact .inr (.inr ⟨⟨ha, hb, hf, hc, hpc⟩, .inr ⟨rfl, rfl⟩⟩)
    · rw [timerTick_of_le (Nat.le_of_not_lt hlt)]
      exact .inl nofun
  | uartTx => exact ⟨_, rfl, .inr (.inr ⟨⟨ha, hb, hf, hc, hpc⟩, .inl ⟨nofun, nofun, rfl⟩⟩)⟩
  | uartRx =>
    obtain ⟨t, ht, rfl | ⟨k, rfl⟩ | ⟨b, rest, -, -, rfl⟩⟩ := uartRx_next s
    · exact ⟨_, ht, .inr (.inr ⟨⟨ha, hb, hf, hc, hpc⟩, .inl ⟨nofun, nofun, rfl⟩⟩)⟩
    · exact ⟨_, ht, .inl nofun⟩
    · exact ⟨_, ht, .inr (.inr ⟨⟨ha, hb, hf, hc, hpc⟩, .inl ⟨nofun, nofun, rfl⟩⟩)⟩

theorem Tpolling.takeTurn (h : Tpolling base pc s) : Tpolling base pc (takeTurn s) := { h with }

theorem Tpolling.runs (h : Tpolling base pc s) : s.fault = none ∧ ended s = false ∧ enabled s .engine = true :=
  have hc : s.cont ≠ .none := by simp [h.cont]
  ⟨h.fault, ended_of_cont hc, enabled_engine h.fault hc⟩

/-- In a fair run the timer of a TPOLL whose count is running ticks, unless TPOLL completes or something faults
(R374). -/
theorem Tpolling.leads_to_tick {σ : Nat → State} (hr : IsRun σ) (hw : WeaklyFair σ) {k m : Nat}
    (hk : Tpolling base pc (σ k)) (hcount : Counting (m + 1) (σ k).tim) :
    ∃ j, k ≤ j ∧ ((σ j).fault ≠ none ∨ Tpolled pc (σ j) ∨
      Tpolling base pc (σ j) ∧ ((σ j).tim.uif = true ∨ Counting m (σ j).tim)) := by
  refine hw.leads hr (fun s => Tpolling base pc s ∧ Counting (m + 1) s.tim)
    (fun s => Tpolled pc s ∨ Tpolling base pc s ∧ (s.tim.uif = true ∨ Counting m s.tim)) .timer ?_ ?_ ⟨hk, hcount⟩
  · rintro s ⟨hp, hcount⟩
    obtain ⟨hf, he, -⟩ := hp.runs
    exact ⟨hf, he, hcount.enabled hf⟩
  · rintro s a ⟨hp, hcount⟩ -
    obtain ⟨t, ht, hfault | hdone | ⟨hpt, ⟨-, hne, htim⟩ | ⟨-, htim⟩⟩⟩ := hp.takeTurn.agentStep a
    · exact ⟨t, ht, .inl hfault⟩
    · exact ⟨t, ht, .inr (.inl (.inl hdone))⟩
    · exact ⟨t, ht, .inr (.inr ⟨⟨hpt, htim ▸ hcount⟩, hne⟩)⟩
    · exact ⟨t, ht, .inr (.inl (.inr ⟨hpt, htim ▸ hcount.tick⟩))⟩

/-- In a fair run a TPOLL whose count is running comes to a state in which UIF is set, unless it completes or something
faults (R370, R374). -/
theorem Tpolling.leads_to_update {σ : Nat → State} (hr : IsRun σ) (hw : WeaklyFair σ) {k m : Nat}
    (hk : Tpolling base pc (σ k)) (hcount : Counting m (σ k).tim) :
    ∃ j, k ≤ j ∧ ((σ j).fault ≠ none ∨ Tpolled pc (σ j) ∨ Tpolling base pc (σ j) ∧ (σ j).tim.uif = true) := by
  induction m generalizing k with
  | zero => exact absurd hcount.2.1 (Nat.lt_irrefl 0)
  | succ m ih =>
    obtain ⟨j, hj, hfault | hdone | ⟨hp, hu | hcount⟩⟩ := hk.leads_to_tick hr hw hcount
    · exact ⟨j, hj, .inl hfault⟩
    · exact ⟨j, hj, .inr (.inl hdone)⟩
    · exact ⟨j, hj, .inr (.inr ⟨hp, hu⟩)⟩
    · obtain ⟨l, hl, hres⟩ := ih hp hcount
      exact ⟨l, hj.trans hl, hres⟩

/-- In a fair run a TPOLL completes once UIF is set, unless something faults (R263, R374). -/
theorem Tpolling.leads_to_completion {σ : Nat → State} (hr : IsRun σ) (hw : WeaklyFair σ) {k : Nat}
    (hk : Tpolling base pc (σ k)) (hu : (σ k).tim.uif = true) :
    ∃ j, k ≤ j ∧ ((σ j).fault ≠ none ∨ Tpolled pc (σ j)) := by
  refine hw.leads hr (fun s => Tpolling base pc s ∧ s.tim.uif = true) (Tpolled pc) .engine (fun s hs => hs.1.runs) ?_
    ⟨hk, hu⟩
  rintro s a ⟨hp, hu⟩ -
  obtain ⟨t, ht, hfault | hdone | ⟨hpt, ⟨hpoll, -, htim⟩ | ⟨rfl, htim⟩⟩⟩ := hp.takeTurn.agentStep a
  · exact ⟨t, ht, .inl hfault⟩
  · exact ⟨t, ht, .inr (.inl hdone)⟩
  · refine ⟨t, ht, .inr (.inr ⟨⟨hpt, htim ▸ hu⟩, fun he => ?_⟩)⟩
    exact Bool.false_ne_true ((hpoll he).symm.trans hu)
  · exact ⟨t, ht, .inr (.inr ⟨⟨hpt, htim ▸ tickTimer_uif hu⟩, nofun⟩)⟩

theorem exec_tpoll (hd : s.desc = .none) : exec .tpoll s = commit s (pollUif s false) := outsideGroup_none hd _ _

/-- Settles O29: the polls by induction on their number; in a fair run the timer ticks to its period, and then the
ENGINE polls. -/
theorem tpollWaitsForUpdate : Obligations.TpollWaitsForUpdate := by
  refine ⟨fun s base hready ha hb => ⟨fun hu => ?_, fun hu k => ⟨?_, fun tim' hu' => ?_⟩⟩, ?_⟩
  · rw [exec_tpoll hready.2, pollUif_set ha hb hu, commit_ok]
  · rw [exec_tpoll hready.2, pollUif_clear ha hb hu, commit_ok,
      runAgents_tpoll (by exact hready.1) (by exact ha) (by exact hb) (by exact hu) rfl]
    simp [List.replicate_succ]
  · rw [engineStep_pollUif rfl, pollUif_set (by exact ha) (by exact hb) (by exact hu'), commit_ok]
  · intro σ base k hr hw ha hb hf hc hcen hlt
    have hk : Tpolling base (σ k).pc (σ k) := ⟨ha, hb, hf, hc, rfl⟩
    have hcount : Counting ((σ k).tim.arr.toNat - (σ k).tim.cnt.toNat) (σ k).tim := ⟨hcen, by omega, by omega⟩
    obtain ⟨j, hj, hfault | hdone | ⟨hp, hu⟩⟩ := hk.leads_to_update hr hw hcount
    · exact ⟨j, hj, .inl hfault⟩
    · exact ⟨j, hj, .inr hdone⟩
    · obtain ⟨l, hl, hres⟩ := hp.leads_to_completion hr hw hu
      exact ⟨l, hj.trans hl, hres⟩

end Sys2Proof.Machine

/-! ### DELAY and DELAYI (43_timer.md R265 to R268) -/

namespace Sys2Proof.Machine

open Sys2Proof.Config

variable {s : State} {base n : Word} {i : Instr}

/-- The load of SR of a delay's acknowledge, UIF being set (R260, R265). -/
theorem engineStep_ackModify (ha : accepted s.cfg = true) (hb : ServesTimer s.cfg.regtab base)
    (hu : s.tim.uif = true) (hc : s.cont = .ackModify) :
    engineStep s = .next { s with
      tst := .expired, trace := s.trace ++ [.load (addrOf ⟨base, timSr⟩) .word 1#32]
      cont := .modifyStore ⟨base, timSr⟩ [.set (bitField .uif 0 .rw) 0#32] 1#32 .acknowledged } := by
  simp only [engineStep, hc, ackModify]
  rw [ackLoad_profile (by exact ha) (by exact hb)]
  simp only [hu, if_true, commit_ok]

/-- The end of a delay that finds UIF set: the last poll, and the two steps of its acknowledge (R260, R265). -/
theorem runAgents_delay_end (hf : s.fault = none) (ha : accepted s.cfg = true) (hb : ServesTimer s.cfg.regtab base)
    (hu : s.tim.uif = true) (hc : s.cont = .pollUif true) :
    runAgents (.next s) [.engine, .engine, .engine] = .next { s with
      tim := { s.tim with uif := false }, tst := .idle
      trace := s.trace ++ [.load (addrOf ⟨base, timSr⟩) .word 1#32, .load (addrOf ⟨base, timSr⟩) .word 1#32,
        .store (addrOf ⟨base, timSr⟩) .word 0#32]
      status := 0#32, cont := .none, pc := s.pc + 1 } := by
  have hpoll : engineStep s = .next { s with
      tst := .counting, trace := s.trace ++ [.load (addrOf ⟨base, timSr⟩) .word 1#32], cont := .ackModify } := by
    simp only [engineStep_pollUif hc, pollUif_profile ha hb, hu, if_true, commit_ok]
  rw [runAgents_engine hf (by simp [hc]), hpoll, runAgents_engine (by exact hf) (by nofun),
    engineStep_ackModify (by exact ha) (by exact hb) (by exact hu) rfl, runAgents_engine (by exact hf) (by nofun),
    engineStep_ack (by exact ha) (by exact hb) rfl, runAgents]
  simp

/-- The polls and ticks of a delay before the last tick of its period, in any order (R260, R370). -/
theorem runAgents_delay_polls {order : List Agent} (hf : s.fault = none) (ha : accepted s.cfg = true)
    (hb : ServesTimer s.cfg.regtab base) (hu : s.tim.uif = false) (hcen : s.tim.cen = true)
    (hc : s.cont = .pollUif true) (horder : ∀ a ∈ order, a = .engine ∨ a = .timer)
    (hlt : s.tim.cnt.toNat + order.count .timer < s.tim.arr.toNat) :
    ∃ tst cnt, cnt.toNat = s.tim.cnt.toNat + order.count .timer ∧
      runAgents (.next s) order = .next { s with
        tst := tst, tim := { s.tim with cnt := cnt }
        trace := s.trace ++ List.replicate (order.count .engine) (.load (addrOf ⟨base, timSr⟩) .word 0#32) } := by
  induction order generalizing s with
  | nil => exact ⟨s.tst, s.tim.cnt, rfl, by simp [runAgents]⟩
  | cons a order ih =>
    obtain ⟨hagent, hrest⟩ := List.forall_mem_cons.1 horder
    rcases hagent with rfl | rfl
    · simp only [List.count_cons_self, List.count_cons_of_ne (a := Agent.timer) (b := .engine) nofun] at hlt ⊢
      rw [runAgents_engine hf (by simp [hc]), engineStep_pollUif hc, pollUif_clear ha hb hu, commit_ok]
      obtain ⟨tst, cnt, hcnt, hrun⟩ := ih (s := { s with
        tst := .counting, trace := s.trace ++ [.load (addrOf ⟨base, timSr⟩) .word 0#32], cont := .pollUif true })
        hf ha hb hu hcen rfl hrest hlt
      refine ⟨tst, cnt, hcnt, hrun.trans ?_⟩
      simp [List.replicate_succ, hc]
    · simp only [List.count_cons_self, List.count_cons_of_ne (a := Agent.engine) (b := .timer) nofun] at hlt ⊢
      obtain ⟨htick, hone⟩ := tickTimer_of_lt (tm := s.tim) (by omega)
      rw [runAgents_timer hf hcen (by omega), htick]
      obtain ⟨tst, cnt, hcnt, hrun⟩ := ih (s := { s with tim := { s.tim with cnt := s.tim.cnt + 1#16 } })
        hf ha hb hu hcen hc hrest (by simp only [hone]; omega)
      exact ⟨tst, cnt, by simp only [hone] at hcnt; omega, hrun⟩

/-- A DELAY or DELAYI of n > 0 begins with a start, and polls next (R265, R266). -/
theorem runAgents_delay_start (hready : Ready s) (ha : accepted s.cfg = true) (hb : ServesTimer s.cfg.regtab base)
    (hm : ModesClear s.tim) (hz : n ≠ 0#32) (hn : n.toNat ≤ 0xFFFF)
    (hi : (∃ v, i = .delay v ∧ s.xAt v = some n) ∨ (∃ imm : Half, i = .delayi imm ∧ n = imm.setWidth 32)) :
    runAgents (exec i s) [.engine, .engine] = .next { started s base n with cont := .pollUif true } := by
  rw [exec_start hready.2 hb hn (.inr ⟨rfl, hz, hi⟩), runAgents_start hready.1 ha hb hm hn]
  rfl

/-- The period that a start of a 16-bit number stores is the number. -/
theorem period_toNat (hn : n.toNat ≤ 0xFFFF) : (n.extractLsb' 0 16).toNat = n.toNat := by
  rw [BitVec.extractLsb'_toNat, Nat.shiftRight_zero, Nat.mod_eq_of_lt (by omega)]

/-- Settles O32: the start, the polls and ticks in their order, the last tick, and the acknowledge. -/
theorem delayTakesItsTicks : Obligations.DelayTakesItsTicks := by
  intro s base n i order hready ha hb hm hu hn hlt hi horder hticks
  have hz : n ≠ 0#32 := by bv_omega
  obtain ⟨tst, cnt, hcnt, hpolls⟩ := runAgents_delay_polls
    (s := { started s base n with cont := .pollUif true }) (order := order) hready.1 ha hb hu rfl rfl horder
    (by simp only [started, period_toNat hn]; omega)
  have hlast : cnt.toNat + 1 = (n.extractLsb' 0 16).toNat := by
    rw [period_toNat hn, ← hticks, hcnt]
    rfl
  rw [runAgents_append, runAgents_append, runAgents_delay_start hready ha hb hm hz hn hi, hpolls,
    runAgents_timer (by exact hready.1) rfl (by exact Nat.lt_of_succ_le hlast.le), tickTimer_last (by exact hlast),
    runAgents_delay_end (by exact hready.1) (by exact ha) (by exact hb) rfl rfl]
  simp [started]

/-- Settles O33: the start leaves the stale UIF, so the first poll is the last. -/
theorem staleFlagDelayReturnsAtOnce : Obligations.StaleFlagDelayReturnsAtOnce := by
  intro s base n i hready ha hb hm hu hz hn hi
  rw [show List.replicate 5 Agent.engine = [.engine, .engine] ++ [.engine, .engine, .engine] from rfl,
    runAgents_append, runAgents_delay_start hready ha hb hm hz hn hi,
    runAgents_delay_end (by exact hready.1) (by exact ha) (by exact hb) (by exact hu) rfl]
  simp [started]

end Sys2Proof.Machine

/-! ### PON and POFF (44_gpio.md R290 to R294) -/

namespace Sys2Proof.Machine

open Sys2Proof.Config

variable {s : State} {base : Word} {p : Half} {on : Bool}

/-- The bit of BSRR that switches pin `p`: its set bit to turn it on, its reset bit to turn it off (R48, R291, R292). -/
def pinBit (on : Bool) (p : Half) : Nat := if on then p.toNat else p.toNat + 16

/-- A command of a pin is the store of the pin's bit (R291, R292). -/
theorem exec_pin (hd : s.desc = .none) :
    exec (if on then .pon p else .poff p) s = commit s (pinStore s p (pinBit on p)) := by
  cases on <;> exact outsideGroup_none hd _ _

/-- Every bit of BSRR is declared (R48). -/
theorem reservedMask_bsrr (base : Word) : reservedMask ⟨base, gpioBsrr⟩ = 0#32 := by
  change reservedMask ⟨0#32, gpioBsrr⟩ = 0#32
  decide

/-- The set/reset store of one pin's bit switches that pin and keeps every other, for both settings of BSRR_BOTH (R97,
R294). -/
theorem bsrrPins_pinBit (both : BsrrBoth) (odr : Half) (hp : p.toNat < 16) {q : Nat} (hq : q < 16) :
    (bsrrPins both odr (1#32 <<< pinBit on p)).getLsbD q = if q = p.toNat then on else odr.getLsbD q := by
  rw [show 1#32 <<< pinBit on p = BitVec.twoPow 32 (pinBit on p) from rfl, bsrrPins_bit both odr _ hq]
  cases on with
  | true =>
    have hin : p.toNat < 32 := by omega
    have hclear : p.toNat ≠ q + 16 := by omega
    simp only [pinBit, if_true, BitVec.getLsbD_twoPow, hin, hclear, eq_comm (a := q)]
    by_cases h : p.toNat = q <;> cases both <;> simp [pinAfter, h]
  | false =>
    have hin : p.toNat + 16 < 32 := by omega
    have hset : p.toNat + 16 ≠ q := by omega
    simp only [pinBit, Bool.false_eq_true, if_false, BitVec.getLsbD_twoPow, hin, hset, Nat.add_right_cancel_iff,
      eq_comm (a := q)]
    by_cases h : p.toNat = q <;> cases both <;> simp [pinAfter, h]

/-- A pin's store with the profile's BSRR: one store of the bit, and the end of the command (R290). -/
theorem pinStore_profile (ha : accepted s.cfg = true) (hb : ServesGpio s.cfg.regtab base) (hp : p.toNat < 16)
    (bit : Nat) :
    pinStore s p bit = .ok (completePin { s with
      odr := bsrrPins s.cfg.bsrrBoth s.odr (1#32 <<< bit)
      trace := s.trace ++ [.store (addrOf ⟨base, gpioBsrr⟩) .word (1#32 <<< bit)] }) := by
  have hr : needReg s .gpioBsrr = .ok ⟨base, gpioBsrr⟩ := needReg_ok.2 hb
  have hz : 1#32 <<< bit &&& reservedMask ⟨base, gpioBsrr⟩ = 0#32 := by simp [reservedMask_bsrr]
  have hm := memWrite_declared ha (regNamed_mem hb) (by simp [gpioBsrr]) hz rfl
  simp only [pinStore, Nat.not_le.2 hp, if_false, hr, hm, bind, Except.bind]
  rfl

theorem statusWord_pinOperation : statusWord .pinOperation = 3#32 := by decide

/-- The end of a pin's command: OK, or PinOperationError where that is possible, which costs a draw (R293). -/
theorem completePin_cases (s : State) :
    ∃ st, (st = 0#32 ∨ s.cfg.pinErrorPossible = true ∧ st = 3#32) ∧
      completePin s = { s with
        draws := if s.cfg.pinErrorPossible then s.draws + 1 else s.draws
        status := st, cont := .none, pc := s.pc + 1 } := by
  unfold completePin
  cases hpossible : s.cfg.pinErrorPossible with
  | false => exact ⟨_, .inl rfl, rfl⟩
  | true =>
    cases hdraw : s.nextDraw.getLsbD 0 with
    | false => exact ⟨_, .inl rfl, rfl⟩
    | true => exact ⟨_, .inr ⟨rfl, statusWord_pinOperation⟩, rfl⟩

/-- Settles O34: the store of the pin's bit, and the end of the command. -/
theorem pinCommandsSetLevel : Obligations.PinCommandsSetLevel := by
  intro s base p on hd ha hb hp
  obtain ⟨st, hst, hdone⟩ := completePin_cases { s with
    odr := bsrrPins s.cfg.bsrrBoth s.odr (1#32 <<< pinBit on p)
    trace := s.trace ++ [.store (addrOf ⟨base, gpioBsrr⟩) .word (1#32 <<< pinBit on p)] }
  refine ⟨_, st, _, fun q hq => bsrrPins_pinBit s.cfg.bsrrBoth s.odr hp hq, hst, rfl, ?_⟩
  rw [exec_pin hd, pinStore_profile ha hb hp, commit_ok, hdone]
  rfl

/-- What a sequence of PON and POFF needs of one of them: it switches its own pin, and the next one finds the premises
it found (R294). -/
theorem exec_pinCommand (c : Bool × BitVec 4) (hd : s.desc = .none) (ha : accepted s.cfg = true)
    (hb : ServesGpio s.cfg.regtab base) :
    ∃ t, exec (pinCommand c) s = .next t ∧ t.cfg = s.cfg ∧ t.desc = .none ∧ t.pc = s.pc + 1 ∧
      t.trace.length = s.trace.length + 1 ∧
      ∀ p : BitVec 4, t.odr.getLsbD p.toNat = if c.2 = p then c.1 else s.odr.getLsbD p.toNat := by
  have hpin : (c.2.setWidth 16 : Half).toNat = c.2.toNat := BitVec.toNat_setWidth_of_le (by decide)
  obtain ⟨o, st, k, hodr, -, -, hexec⟩ :=
    pinCommandsSetLevel s base (c.2.setWidth 16) c.1 hd ha hb (hpin ▸ c.2.isLt)
  refine ⟨_, hexec, rfl, hd, rfl, List.length_append, fun p => ?_⟩
  simp only [hodr p.toNat p.isLt, hpin, BitVec.toNat_inj, eq_comm (a := p)]

/-- Settles O36, by induction on the commands. -/
theorem pinsAreIndependent : Obligations.PinsAreIndependent := by
  intro l
  induction l with
  | nil => exact fun s _ _ _ _ => ⟨s, rfl, rfl, rfl, fun _ => rfl⟩
  | cons c l ih =>
    intro s base hd ha hb
    obtain ⟨u, hexec, hcfg, hdu, hpcu, htraceu, hodr⟩ := exec_pinCommand c hd ha hb
    obtain ⟨t, hrun, hpc, htrace, hlevel⟩ := ih u base hdu (hcfg ▸ ha) (hcfg ▸ hb)
    refine ⟨t, ?_, ?_, ?_, fun p => ?_⟩
    · rw [List.map_cons, runCommands, hexec, hrun]
    · rw [hpc, hpcu, List.length_cons, Nat.add_right_comm, Nat.add_assoc]
    · rw [htrace, htraceu, List.length_cons, Nat.add_right_comm, Nat.add_assoc]
    · rw [hlevel p, levelAfter, hodr p]

/-- Settles O35: both commands report before the store. -/
theorem pinOutOfRangeReports : Obligations.PinOutOfRangeReports := by
  intro s p hd hp
  have hout : ∀ on : Bool, exec (if on then .pon p else .poff p) s = .next (s.report .pinOutOfRange) := fun on => by
    rw [exec_pin hd, pinStore, if_pos hp, commit_ok]
  exact ⟨hout true, hout false⟩

end Sys2Proof.Machine

/-! ### LREV (45_uart.md R316) -/

namespace Sys2Proof.Machine

open Sys2Proof.Config

variable {s : State}

theorem exec_lrev (hd : s.desc = .none) :
    exec .lrev s = .next { s with lb := s.lb.reverse, status := 0#32, cont := .none, pc := s.pc + 1 } := by
  simp only [exec, execLrev, outsideGroup_none hd, commit_ok]
  rfl

/-- Settles O41: a list of one byte or none is its own reverse, and reversing twice restores a list. -/
theorem lrevReverses : Obligations.LrevReverses := by
  refine ⟨by decide, fun s hd => ⟨fun hlen => ?_, exec_lrev hd, ?_⟩⟩
  · match hl : s.lb, hlen with
    | [], _ => rfl
    | [_], _ => rfl
  · refine ⟨{ s with lb := s.lb.reverse.reverse, status := 0#32, cont := .none, pc := s.pc + 1 + 1 }, ?_,
      List.reverse_reverse s.lb⟩
    rw [runCommands, exec_lrev hd, runCommands, exec_lrev (by exact hd), runCommands]

end Sys2Proof.Machine

/-! ### Polls of ISR that find the UART not ready (45_uart.md R310, R311, 60_exceptions.md R358) -/

namespace Sys2Proof.Machine

open Sys2Proof.Config

variable {s : State} {base : Word}

/-- A send part-way polls with the transmitter full, or a receive with no byte received. -/
structure UartPolling (base : Word) (s : State) : Prop where
  accepted : accepted s.cfg = true
  serves : ServesUart s.cfg.regtab base
  fault : s.fault = none
  waits : (∃ b rest, s.cont = .sendPoll b rest) ∧ s.uart.txe = false ∨
    (∃ r, s.cont = .recvPoll r none) ∧ s.uart.rxne = false

/-- The words that `k` loads of ISR show, the first of them drawing the `n`-th value (R92). -/
def isrWords (u : Uart) (n k : Nat) : List Word := (List.range' n k).map fun m => isrValue u (draw m)

/-- The state after `k` loads of ISR that found the UART not ready. -/
def afterPolls (s : State) (base : Word) (k : Nat) : State :=
  { s with
    draws := s.draws + k
    trace := s.trace ++ (isrWords s.uart s.draws k).map (fun w => .load (addrOf ⟨base, uartIsr⟩) .word w) }

theorem isrWords_length (u : Uart) (n k : Nat) : (isrWords u n k).length = k := by simp [isrWords]

/-- The flags that each load of ISR shows (R92). -/
theorem isrWords_flags {u : Uart} {n k : Nat} {w : Word} (h : w ∈ isrWords u n k) :
    w.getLsbD 5 = u.rxne ∧ w.getLsbD 7 = u.txe := by
  obtain ⟨m, -, rfl⟩ := List.mem_map.1 h
  exact (isrValue_bits u (draw m)).2

/-- A poll more is the first poll, and then the others. -/
theorem afterPolls_succ (s : State) (base : Word) (k : Nat) :
    afterPolls (afterPolls s base 1) base k = afterPolls s base (k + 1) := by
  have hdraws : s.draws + 1 + k = s.draws + (k + 1) := by omega
  simp [afterPolls, isrWords, List.range'_succ, hdraws]

theorem UartPolling.after_polls (h : UartPolling base s) (k : Nat) : UartPolling base (afterPolls s base k) :=
  ⟨h.accepted, h.serves, h.fault, h.waits⟩

/-- Such a poll is one load of ISR, and the ENGINE polls on. -/
theorem UartPolling.engineStep_eq (h : UartPolling base s) : engineStep s = .next (afterPolls s base 1) := by
  obtain ⟨ha, hb, -, ⟨⟨b, rest, hc⟩, hx⟩ | ⟨⟨r, hc⟩, hx⟩⟩ := h
  · simp only [engineStep, hc, sendPoll_profile ha hb, hx, commit_ok]
    rw [← hc]
    rfl
  · rw [engineStep_recvPoll ha hb hc]
    simp [polled, afterPolls, hx, isrWords, State.nextDraw, ← hc]

theorem UartPolling.cont_ne (h : UartPolling base s) : s.cont ≠ .none := by
  obtain ⟨⟨b, rest, hc⟩, -⟩ | ⟨⟨r, hc⟩, -⟩ := h.waits <;> simp [hc]

/-- While the UART is not ready, the ENGINE makes one load of ISR a step (R358). -/
theorem UartPolling.runAgents_engine (h : UartPolling base s) (k : Nat) (l : List Agent) :
    runAgents (.next s) (List.replicate k .engine ++ l) = runAgents (.next (afterPolls s base k)) l := by
  induction k generalizing s with
  | zero => simp [afterPolls, isrWords]
  | succ k ih =>
    rw [List.replicate_succ, List.cons_append, Machine.runAgents_engine h.fault h.cont_ne, h.engineStep_eq,
      ih (h.after_polls 1), afterPolls_succ]

end Sys2Proof.Machine

/-! ### A byte sent, a byte drained (45_uart.md R310, R312, R313, R317, 60_exceptions.md R372) -/

namespace Sys2Proof.Machine

open Sys2Proof.Config

variable {s : State} {base : Word} {b : Byte} {rest : List Byte} {i : Instr}

/-- A command that sends begins as its poll does (R312, R313, R317). -/
theorem runAgents_exec_send (hready : Ready s) (ha : accepted s.cfg = true) (hb : ServesUart s.cfg.regtab base)
    (hi : ((∃ v, i = .usend v ∧ s.xAt v = some (b.setWidth 32)) ∨ i = .usendi b) ∧ rest = [] ∨
      i = .usendl ∧ s.lb = b :: rest) (l : List Agent) :
    runAgents (exec i s) l = runAgents (.next { s with cont := .sendPoll b rest }) (.engine :: l) := by
  rw [runAgents_engine (by exact hready.1) (by nofun), exec_send hready.2 hi, sendPoll_profile ha hb]
  simp only [engineStep]
  rw [sendPoll_profile (by exact ha) (by exact hb)]
  rfl

theorem engineStep_sendPoll_empty (ha : accepted s.cfg = true) (hb : ServesUart s.cfg.regtab base)
    (hx : s.uart.txe = true) (hc : s.cont = .sendPoll b rest) :
    engineStep s = .next { s with
      draws := s.draws + 1, cont := .sendStore b rest
      trace := s.trace ++ [.load (addrOf ⟨base, uartIsr⟩) .word (isrValue s.uart s.nextDraw)] } := by
  simp only [engineStep, hc, sendPoll_profile ha hb, hx, if_true, commit_ok]

/-- What follows the store of a byte: the command completes, or the next byte's poll (R317). -/
def afterSend (s : State) : List Byte → State
  | [] => s.complete .ok
  | c :: cs => { s with cont := .sendPoll c cs }

theorem engineStep_sendStore (ha : accepted s.cfg = true) (hb : ServesUart s.cfg.regtab base)
    (hx : s.uart.txe = true) (hc : s.cont = .sendStore b rest) :
    engineStep s = .next (afterSend { s with
      uart := { s.uart with tdr := b, txe := false }
      trace := s.trace ++ [.store (addrOf ⟨base, uartTdr⟩) .word (b.setWidth 32)] } rest) := by
  simp only [engineStep, hc, sendStore_profile ha hb hx, commit_ok]
  cases rest <;> rfl

/-- The state after the two steps that send a byte with the transmitter empty (R310). -/
def byteSent (s : State) (base : Word) (b : Byte) : State :=
  { s with
    uart := { s.uart with tdr := b, txe := false }
    draws := s.draws + 1
    trace := s.trace ++ [.load (addrOf ⟨base, uartIsr⟩) .word (isrValue s.uart s.nextDraw),
      .store (addrOf ⟨base, uartTdr⟩) .word (b.setWidth 32)] }

/-- With the transmitter empty, a send part-way polls once and stores its byte (R310, R317). -/
theorem runAgents_send (hf : s.fault = none) (ha : accepted s.cfg = true) (hb : ServesUart s.cfg.regtab base)
    (hx : s.uart.txe = true) (hc : s.cont = .sendPoll b rest) (l : List Agent) :
    runAgents (.next s) (.engine :: .engine :: l) = runAgents (.next (afterSend (byteSent s base b) rest)) l := by
  rw [runAgents_engine hf (by simp [hc]), engineStep_sendPoll_empty ha hb hx hc,
    runAgents_engine (by exact hf) (by nofun), engineStep_sendStore (by exact ha) (by exact hb) (by exact hx) rfl]
  cases rest <;> simp [afterSend, byteSent, State.complete]

/-- With the transmitter full, UART_TX drains it (R372). -/
theorem runAgents_uartTx (hf : s.fault = none) (hx : s.uart.txe = false) (l : List Agent) :
    runAgents (.next s) (.uartTx :: l) = runAgents (.next (uartTxDrain s)) l := by
  have hen : enabled s .uartTx = true := by simp [enabled, uartTxEnabled, hf, hx]
  rw [runAgents, thenStep, if_pos hen, agentStep]

/-- Settles O37: the transmitter is empty, so the first poll sees TXE. -/
theorem sendCommandsStoreByte : Obligations.SendCommandsStoreByte := by
  intro s base b i hready ha hb hx hi
  refine ⟨isrValue s.uart s.nextDraw, (isrValue_bits s.uart s.nextDraw).2.2.trans hx, ?_⟩
  rw [runAgents_exec_send hready ha hb (.inl ⟨hi, rfl⟩),
    runAgents_send (by exact hready.1) (by exact ha) (by exact hb) (by exact hx) rfl]
  rfl

/-- A byte is sent, and drained. -/
theorem runAgents_send_drain (hf : s.fault = none) (ha : accepted s.cfg = true) (hb : ServesUart s.cfg.regtab base)
    (hx : s.uart.txe = true) (hc : s.cont = .sendPoll b rest) (l : List Agent) :
    runAgents (.next s) (.engine :: .engine :: .uartTx :: l) =
      runAgents (.next (uartTxDrain (afterSend (byteSent s base b) rest))) l := by
  rw [runAgents_send hf ha hb hx hc]
  cases rest with
  | nil => exact runAgents_uartTx (by exact hf) (by rfl) l
  | cons c cs => exact runAgents_uartTx (by exact hf) (by rfl) l

/-- Sends that are drained each put their bytes into OUT in order, and end the command (R317, R372). -/
theorem runAgents_sendSchedule (hf : s.fault = none) (ha : accepted s.cfg = true) (hb : ServesUart s.cfg.regtab base)
    (hx : s.uart.txe = true) (hc : s.cont = .sendPoll b rest) :
    ∃ t, runAgents (.next s) (sendSchedule (rest.length + 1)) = .next t ∧
      t.uart.output = s.uart.output ++ b :: rest ∧ t.uart.txe = true ∧ t.lb = s.lb ∧ t.x = s.x ∧ t.status = 0#32 ∧
      t.pc = s.pc + 1 ∧ t.cont = .none ∧ t.fault = none := by
  induction rest generalizing s b with
  | nil => exact ⟨_, runAgents_send_drain hf ha hb hx hc [], rfl, rfl, rfl, rfl, rfl, rfl, rfl, hf⟩
  | cons c cs ih =>
    obtain ⟨t, hrun, hout, hend⟩ := ih (s := uartTxDrain { byteSent s base b with cont := .sendPoll c cs }) (b := c)
      hf ha hb rfl rfl
    exact ⟨t, (runAgents_send_drain hf ha hb hx hc _).trans hrun, hout.trans (List.append_assoc _ [b] _), hend⟩

/-- Settles O42: the bytes by induction on those of LB; an empty LB needs no transaction. -/
theorem usendlSendsBuffer : Obligations.UsendlSendsBuffer := by
  refine ⟨fun s hd hl => ?_, fun s base b rest hready ha hb hx hl => ?_⟩
  · simp only [exec, execUsendl, outsideGroup_none hd, hl, commit_ok]
    rw [← hl]
    rfl
  · rw [runAgents_exec_send hready ha hb (.inr ⟨rfl, hl⟩), hl]
    have hsend := runAgents_sendSchedule (s := { s with cont := .sendPoll b rest }) hready.1 ha hb hx rfl
    exact hl ▸ hsend

end Sys2Proof.Machine

/-! ### A UART command part-way in a fair run (60_exceptions.md R374) -/

namespace Sys2Proof.Machine

open Sys2Proof.Config

variable {s t : State} {base : Word} {pc : Nat} {c : Cont}

/-- A command part-way at index `pc` makes the transaction that `c` says next. -/
structure Underway (base : Word) (pc : Nat) (c : Cont) (s : State) : Prop where
  accepted : accepted s.cfg = true
  serves : ServesUart s.cfg.regtab base
  fault : s.fault = none
  cont : s.cont = c
  pc : s.pc = pc

/-- The steps of the devices leave a command where it is. -/
theorem Underway.of_deviceStep (h : Underway base pc c s) (ht : DeviceStep s t) : Underway base pc c t :=
  ⟨by rw [ht.cfg]; exact h.accepted, by rw [ht.cfg]; exact h.serves, ht.fault.trans h.fault, ht.cont.trans h.cont,
    ht.pc.trans h.pc⟩

/-- From its `k`-th state on, a run faults or comes to a state of `Q`. -/
def LeadsTo (σ : Nat → State) (k : Nat) (Q : State → Prop) : Prop := ∃ j, k ≤ j ∧ ((σ j).fault ≠ none ∨ Q (σ j))

theorem LeadsTo.trans {σ : Nat → State} {k : Nat} {P Q : State → Prop} (h : LeadsTo σ k P)
    (hnext : ∀ j, P (σ j) → LeadsTo σ j Q) : LeadsTo σ k Q := by
  obtain ⟨j, hj, hfault | hp⟩ := h
  · exact ⟨j, hj, .inl hfault⟩
  · obtain ⟨l, hl, hq⟩ := hnext j hp
    exact ⟨l, hj.trans hl, hq⟩

/-- PROGRESS OF A UART COMMAND (R374): while the UART satisfies `I`, agent `a` is enabled; a step of the ENGINE reaches
`Q`, or leaves the command and the UART as they are, `a` being another agent; and a device's step reaches `Q`, or is not
`a`'s and keeps `I`. Then a fair run reaches `Q`, or something faults. -/
theorem Underway.leads {σ : Nat → State} (hr : IsRun σ) (hw : WeaklyFair σ) {k : Nat} {I : Uart → Prop}
    {Q : State → Prop} (a : Agent) (hk : Underway base pc c (σ k)) (hI : I (σ k).uart) (hc : c ≠ .none)
    (henabled : ∀ s, Underway base pc c s → I s.uart → enabled s a = true)
    (hengine : ∀ s, Underway base pc c s → I s.uart →
      ∃ t, engineStep s = .next t ∧ (Q t ∨ Underway base pc c t ∧ t.uart = s.uart ∧ a ≠ .engine))
    (hdevice : ∀ s t b, Underway base pc c t → I s.uart → b ≠ .engine → agentStep s b = .next t → DeviceStep s t →
      Q t ∨ I t.uart ∧ b ≠ a) :
    LeadsTo σ k Q := by
  refine hw.leads hr (fun s => Underway base pc c s ∧ I s.uart) Q a ?_ ?_ ⟨hk, hI⟩
  · rintro s ⟨hs, hi⟩
    exact ⟨hs.fault, ended_of_cont (hs.cont ▸ hc), henabled s hs hi⟩
  · rintro s b ⟨hs, hi⟩ hen
    have hs' : Underway base pc c (takeTurn s) := hs.of_deviceStep (takeTurn_deviceStep s)
    by_cases hb : b = .engine
    · subst hb
      obtain ⟨t, ht, hq | ⟨hu, hux, hne⟩⟩ := hengine _ hs' hi
      · exact ⟨t, ht, .inr (.inl hq)⟩
      · exact ⟨t, ht, .inr (.inr ⟨⟨hu, hux ▸ hi⟩, hne.symm⟩)⟩
    · obtain ⟨t, ht⟩ : ∃ t, agentStep (takeTurn s) b = .next t := by
        cases b with
        | engine => exact absurd rfl hb
        | timer | uartTx | uartRx => exact ⟨_, rfl⟩
      have hen' : enabled (takeTurn s) b = true := by cases b <;> exact hen
      rcases agentStep_device hb hen' ht with hf | hd
      · exact ⟨t, ht, .inl hf⟩
      · have hu := hs'.of_deviceStep hd
        exact ⟨t, ht, .inr ((hdevice (takeTurn s) t b hu hi hb ht hd).imp_right fun h => ⟨⟨hu, h.1⟩, h.2⟩)⟩

/-- A transaction of the ENGINE that no device prevents is made in a fair run, or something faults (R374). -/
theorem Underway.leads_by_engine {σ : Nat → State} (hr : IsRun σ) (hw : WeaklyFair σ) {k : Nat} {I : Uart → Prop}
    {Q : State → Prop} (hk : Underway base pc c (σ k)) (hI : I (σ k).uart) (hc : c ≠ .none)
    (hstays : ∀ s t, DeviceStep s t → I s.uart → I t.uart)
    (hengine : ∀ s, Underway base pc c s → I s.uart → ∃ t, engineStep s = .next t ∧ Q t) :
    LeadsTo σ k Q :=
  hk.leads hr hw .engine hI hc (fun _ hs _ => enabled_engine hs.fault (hs.cont ▸ hc))
    (fun s hs hi => (hengine s hs hi).imp fun _ h => ⟨h.1, .inl h.2⟩)
    fun s t _ _ hi hb _ hd => .inr ⟨hstays s t hd hi, hb⟩

end Sys2Proof.Machine

/-! ### A send waits for the transmitter (45_uart.md R310, R317, 60_exceptions.md R374) -/

namespace Sys2Proof.Machine

open Sys2Proof.Config

variable {base : Word} {pc : Nat} {b : Byte} {σ : Nat → State} {k : Nat}

/-- The send of a last byte `b` at index `pc` has completed (R310, R312). -/
def SendDone (b : Byte) (pc : Nat) (s : State) : Prop :=
  s.uart.tdr = b ∧ s.uart.txe = false ∧ s.status = 0#32 ∧ s.cont = .none ∧ s.pc = pc + 1

/-- In a fair run the transmitter of a send part-way drains (R372). -/
theorem Underway.leads_to_empty (hr : IsRun σ) (hw : WeaklyFair σ) (hk : Underway base pc (.sendPoll b []) (σ k))
    (hx : (σ k).uart.txe = false) :
    LeadsTo σ k fun s => Underway base pc (.sendPoll b []) s ∧ s.uart.txe = true := by
  refine hk.leads hr hw .uartTx (I := fun u => u.txe = false) hx nofun ?_ ?_ ?_
  · intro s hs hx
    simp [enabled, uartTxEnabled, hs.fault, hx]
  · intro s hs hx
    have hp : UartPolling base s := ⟨hs.accepted, hs.serves, hs.fault, .inl ⟨⟨b, [], hs.cont⟩, hx⟩⟩
    exact ⟨_, hp.engineStep_eq, .inr ⟨⟨hs.accepted, hs.serves, hs.fault, hs.cont, hs.pc⟩, rfl, nofun⟩⟩
  · intro s t a hu _ _ ht _
    cases hx : t.uart.txe with
    | true => exact .inl ⟨hu, rfl⟩
    | false =>
      refine .inr ⟨rfl, ?_⟩
      rintro rfl
      cases ht
      exact absurd hx (by simp [uartTxDrain])

/-- In a fair run a send of a last byte completes once the transmitter is empty: the poll, then the store (R310). -/
theorem Underway.leads_to_sent (hr : IsRun σ) (hw : WeaklyFair σ) (hk : Underway base pc (.sendPoll b []) (σ k))
    (hx : (σ k).uart.txe = true) : LeadsTo σ k (SendDone b pc) := by
  have hpoll : LeadsTo σ k fun s => Underway base pc (.sendStore b []) s ∧ s.uart.txe = true :=
    hk.leads_by_engine hr hw (I := fun u => u.txe = true) hx nofun (fun _ _ hd => hd.txe) fun s hs hx =>
      ⟨_, engineStep_sendPoll_empty hs.accepted hs.serves hx hs.cont,
        ⟨hs.accepted, hs.serves, hs.fault, rfl, hs.pc⟩, hx⟩
  refine hpoll.trans fun j ⟨hs, hx⟩ => ?_
  exact hs.leads_by_engine hr hw (I := fun u => u.txe = true) hx nofun (fun _ _ hd => hd.txe) fun s hs hx =>
    ⟨_, engineStep_sendStore hs.accepted hs.serves hx hs.cont, rfl, rfl, rfl, rfl, congrArg (· + 1) hs.pc⟩

/-- Settles O38: the polls, then the drain and the send; in a fair run UART_TX drains, and then the ENGINE polls and
stores. -/
theorem sendWaitsForEmpty : Obligations.SendWaitsForEmpty := by
  constructor
  · intro s base b rest i hready ha hb hx hi k
    have hp : UartPolling base { s with cont := .sendPoll b rest } := ⟨ha, hb, hready.1, .inl ⟨⟨b, rest, rfl⟩, hx⟩⟩
    have hpolls := fun l => (runAgents_exec_send hready ha hb hi (List.replicate k Agent.engine ++ l)).trans
      (hp.runAgents_engine (k + 1) l)
    refine ⟨isrWords s.uart s.draws (k + 1), isrValue (uartTxDrain s).uart (draw (s.draws + (k + 1))),
      isrWords_length .., fun w hw => (isrWords_flags hw).2.trans hx, (isrValue_bits _ _).2.2, ?_, ?_⟩
    · exact (congrArg _ (List.append_nil _).symm).trans (hpolls [])
    · rw [hpolls, runAgents_uartTx (by exact hready.1) (by exact hx),
        runAgents_send (b := b) (rest := rest) (by exact hready.1) (by exact ha) (by exact hb) rfl rfl]
      cases rest <;> rfl
  · intro σ base b k hr hw ha hb hf hc
    have hk : Underway base (σ k).pc (.sendPoll b []) (σ k) := ⟨ha, hb, hf, hc, rfl⟩
    cases hx : (σ k).uart.txe with
    | true => exact hk.leads_to_sent hr hw hx
    | false => exact (hk.leads_to_empty hr hw hx).trans fun j ⟨hs, hx⟩ => hs.leads_to_sent hr hw hx

end Sys2Proof.Machine

/-! ### A receive waits for a byte (45_uart.md R311, R314, 60_exceptions.md R374) -/

namespace Sys2Proof.Machine

open Sys2Proof.Config

variable {s : State} {base : Word} {pc : Nat} {d : RegIx} {σ : Nat → State} {k : Nat}

/-- URECV begins as its poll does (R314). -/
theorem runAgents_exec_urecv (hready : Ready s) (ha : accepted s.cfg = true) (hb : ServesUart s.cfg.regtab base)
    (d : RegIx) (l : List Agent) :
    runAgents (exec (.urecv d) s) l = runAgents (.next { s with cont := .recvPoll (.byte d) none }) (.engine :: l) := by
  rw [runAgents_engine (by exact hready.1) (by nofun), engineStep_recvPoll (by exact ha) (by exact hb) rfl]
  simp only [exec, execUrecv, outsideGroup_none hready.2, recvPoll_profile ha hb, commit_ok, polled]
  rfl

/-- With a byte received, a receive part-way polls once and loads RDR (R311). -/
theorem runAgents_recv (hf : s.fault = none) (ha : accepted s.cfg = true) (hb : ServesUart s.cfg.regtab base)
    (hx : s.uart.rxne = true) {r : Receive} {kept : Option Byte} (hc : s.cont = .recvPoll r kept) (l : List Agent) :
    runAgents (.next s) (.engine :: .engine :: l) =
      runAgents (.next (received (loaded (polled s base r kept) base) (s.uart.rdr.extractLsb' 0 8) r)) l := by
  have hload : (polled s base r kept).cont = .recvLoad r := if_pos hx
  rw [runAgents_engine hf (by simp [hc]), engineStep_recvPoll ha hb hc,
    runAgents_engine (by exact hf) (by simp [hload]), engineStep_recvLoad (by exact ha) (by exact hb) hload]
  rfl

/-- The URECV at index `pc` has completed with the byte of RDR (R311, R314). -/
def ReceiveDone (d : RegIx) (pc : Nat) (s : State) : Prop :=
  s.xAt d = some ((s.uart.rdr.extractLsb' 0 8).setWidth 32) ∧ s.uart.rxne = false ∧ s.status = 0#32 ∧
    s.cont = .none ∧ s.pc = pc + 1

/-- In a fair run the receiver of a URECV part-way delivers a byte of IN (R373). -/
theorem Underway.leads_to_byte (hr : IsRun σ) (hw : WeaklyFair σ)
    (hk : Underway base pc (.recvPoll (.byte d) none) (σ k)) (hx : (σ k).uart.rxne = false)
    (hin : (σ k).uart.input ≠ []) :
    LeadsTo σ k fun s => Underway base pc (.recvPoll (.byte d) none) s ∧ s.uart.rxne = true := by
  refine hk.leads hr hw .uartRx (I := fun u => u.rxne = false ∧ u.input ≠ []) ⟨hx, hin⟩ nofun ?_ ?_ ?_
  · rintro s hs ⟨hx, hin⟩
    simp [enabled, uartRxEnabled, hs.fault, hx, hin]
  · rintro s hs ⟨hx, -⟩
    have hp : UartPolling base s := ⟨hs.accepted, hs.serves, hs.fault, .inr ⟨⟨.byte d, hs.cont⟩, hx⟩⟩
    exact ⟨_, hp.engineStep_eq, .inr ⟨⟨hs.accepted, hs.serves, hs.fault, hs.cont, hs.pc⟩, rfl, nofun⟩⟩
  · rintro s t a hu ⟨hsx, hin⟩ _ ht hd
    cases hx : t.uart.rxne with
    | true => exact .inl ⟨hu, rfl⟩
    | false =>
      have harriving := hd.arriving
      simp only [arriving, hsx, hx, Bool.false_eq_true, if_false] at harriving
      refine .inr ⟨⟨rfl, harriving ▸ hin⟩, ?_⟩
      rintro rfl
      cases ht
      obtain ⟨b, rest, hb⟩ := List.exists_cons_of_ne_nil hin
      exact absurd hx (by simp [uartRxArrive, hb, hsx])

/-- In a fair run a URECV completes once a byte has been received: the poll, then the load of RDR (R311). -/
theorem Underway.leads_to_received (hr : IsRun σ) (hw : WeaklyFair σ)
    (hk : Underway base pc (.recvPoll (.byte d) none) (σ k)) (hx : (σ k).uart.rxne = true) :
    LeadsTo σ k (ReceiveDone d pc) := by
  have hpoll : LeadsTo σ k (Underway base pc (.recvLoad (.byte d))) :=
    hk.leads_by_engine hr hw (I := fun u => u.rxne = true) hx nofun (fun _ _ hd => hd.rxne) fun s hs hx =>
      ⟨_, engineStep_recvPoll hs.accepted hs.serves hs.cont, hs.accepted, hs.serves, hs.fault, by simp [polled, hx],
        hs.pc⟩
  refine hpoll.trans fun j hs => ?_
  exact hs.leads_by_engine hr hw (I := fun _ => True) trivial nofun (fun _ _ _ => id) fun s hs _ =>
    ⟨_, engineStep_recvLoad hs.accepted hs.serves hs.cont, Vector.getElem_set_self .., rfl, rfl, rfl,
      congrArg (· + 1) hs.pc⟩

/-- Settles O39: the poll and the load of a byte received; the polls, then its arrival; in a fair run UART_RX delivers a
byte, and then the ENGINE polls and loads. -/
theorem urecvReceivesByte : Obligations.UrecvReceivesByte := by
  constructor
  · intro s base d hready ha hb
    have hbegin := runAgents_exec_urecv hready ha hb d
    refine ⟨fun hx => ?_, fun hx k => ?_⟩
    · refine ⟨isrValue s.uart s.nextDraw, (isrValue_bits s.uart s.nextDraw).2.1.trans hx, ?_⟩
      rw [hbegin, runAgents_recv (by exact hready.1) (by exact ha) (by exact hb) (by exact hx) rfl]
      simp [runAgents, received, loaded, polled, State.setX, State.complete, State.nextDraw, statusWord_ok]
    · have hp : UartPolling base { s with cont := .recvPoll (.byte d) none } :=
        ⟨ha, hb, hready.1, .inr ⟨⟨.byte d, rfl⟩, hx⟩⟩
      have hpolls := fun l => (hbegin (List.replicate k Agent.engine ++ l)).trans (hp.runAgents_engine (k + 1) l)
      refine ⟨isrWords s.uart s.draws (k + 1), isrWords_length .., fun w hw => (isrWords_flags hw).1.trans hx, ?_, ?_⟩
      · exact (congrArg _ (List.append_nil _).symm).trans (hpolls [])
      · intro b rest hin
        refine ⟨isrValue (arrived s b rest).uart (draw (s.draws + (k + 1))), (isrValue_bits _ _).2.1, ?_⟩
        rw [hpolls, runAgents_receive (r := .byte d) (kept := none) (by exact hready.1) (by exact ha) (by exact hb)
          rfl (by exact hx) (by exact hin)]
        simp [received, loaded, polled, arrived, afterPolls, State.setX, State.complete, State.nextDraw, statusWord_ok,
          Nat.add_assoc]
  · intro σ base d k hr hw ha hb hf hc hbyte
    have hk : Underway base (σ k).pc (.recvPoll (.byte d) none) (σ k) := ⟨ha, hb, hf, hc, rfl⟩
    cases hx : (σ k).uart.rxne with
    | true => exact hk.leads_to_received hr hw hx
    | false =>
      have hin : (σ k).uart.input ≠ [] := hbyte.resolve_left (by simp [hx])
      exact (hk.leads_to_byte hr hw hx hin).trans fun j ⟨hs, hx⟩ => hs.leads_to_received hr hw hx

end Sys2Proof.Machine

/-! ### The step at a decodable word, and the device agents (60_exceptions.md R350, R370, R372, R373) -/

namespace Sys2Proof.Machine

open Sys2Proof.Config

variable {s : State}

/-- With a word to fetch, a run that has not faulted goes on (R381). -/
theorem ended_of_word {w : Word} (hw : s.prog[s.pc]? = some w) : ended s = false := by
  by_contra h
  obtain ⟨-, hpc, -⟩ := ended_iff.1 (by simpa using h)
  simp [List.getElem?_eq_none hpc] at hw

/-- Settles O6: the agent that steps is the ENGINE, between commands, and the word it fetches decodes. -/
theorem stepRunsDecodedCommand : Obligations.StepRunsDecodedCommand := by
  intro s w i hf hc hw hi ha
  have hrun : engineStep (takeTurn s) = exec i (takeTurn s) := engineStep_fetched hc hw hi
  simp only [step, machineStep, hf, ended_of_word hw, ha, agentStep, hrun]
  rfl

theorem enabled_timer_iff : enabled s .timer = true ↔ s.fault = none ∧ s.tim.cen = true ∧ s.tim.arr ≠ 0#16 := by
  simp [enabled, timerEnabled, and_assoc]

theorem enabled_uartTx_iff : enabled s .uartTx = true ↔ s.fault = none ∧ s.uart.txe = false := by
  simp [enabled, uartTxEnabled]

theorem enabled_uartRx_iff : enabled s .uartRx = true ↔
    s.fault = none ∧ s.uart.input ≠ [] ∧ (s.cfg.rxPaced = false ∨ s.uart.rxne = false) := by
  simp [enabled, uartRxEnabled, and_assoc]

/-- Ticks that stay below the period count themselves and do nothing else (R370). -/
theorem runAgents_ticks (hf : s.fault = none) (hcen : s.tim.cen = true) (k : Nat)
    (hk : s.tim.cnt.toNat + k < s.tim.arr.toNat) :
    runAgents (.next s) (List.replicate k .timer) =
      .next { s with tim := { s.tim with cnt := BitVec.ofNat 16 (s.tim.cnt.toNat + k) } } := by
  induction k generalizing s with
  | zero => simp [runAgents]
  | succ k ih =>
    obtain ⟨htick, hcnt⟩ := tickTimer_of_lt (tm := s.tim) (by omega)
    rw [List.replicate_succ, runAgents_timer hf hcen (by omega), htick,
      ih (by exact hf) (by exact hcen) (by simp only [hcnt]; omega)]
    simp only [hcnt, Nat.add_assoc, Nat.add_comm 1 k]

/-- Settles O44: one tick by where the count stands, and ticks below the period by induction. -/
theorem timerTickCounts : Obligations.TimerTickCounts := by
  refine fun s => ⟨enabled_timer_iff, fun _ hle => ?_, fun hen hlast => ?_, fun hen k hk => ?_⟩
  · rw [agentStep, timerTick_of_le hle]
    rfl
  · obtain ⟨-, hcen, -⟩ := enabled_timer_iff.1 hen
    rw [agentStep, timerTick_of_lt (by omega), tickTimer_last hlast, hcen, Bool.true_and]
  · obtain ⟨hf, hcen, -⟩ := enabled_timer_iff.1 hen
    exact runAgents_ticks hf hcen k hk

/-- An arrival while RXNE is 0 (R373). -/
theorem uartRxArrive_empty {b : Byte} {rest : List Byte} (hin : s.uart.input = b :: rest) (hx : s.uart.rxne = false) :
    uartRxArrive s = arrived s b rest := by
  simp [uartRxArrive, hin, hx, arrived]

/-- An arrival while RXNE is 1 (R373). -/
theorem uartRxArrive_overrun {b : Byte} {rest : List Byte} (hin : s.uart.input = b :: rest)
    (hx : s.uart.rxne = true) : uartRxArrive s = s.raise (.uartOverrun b) := by
  simp [uartRxArrive, hin, hx]

/-- Settles O45: the enabling conditions, the drain, and an arrival by RXNE. -/
theorem uartAgentsMoveBytes : Obligations.UartAgentsMoveBytes := by
  refine fun s => ⟨enabled_uartTx_iff, enabled_uartRx_iff, fun _ => rfl, fun b rest hin => ⟨fun hx => ?_, fun hx =>
    ⟨?_, fun hp => ?_⟩⟩⟩
  · rw [agentStep, uartRxArrive_empty hin hx]
    rfl
  · rw [agentStep, uartRxArrive_overrun hin hx]
    rfl
  · simp [enabled, uartRxEnabled, hp, hx]

end Sys2Proof.Machine

/-! ### What a step can raise (60_exceptions.md R356, R357) -/

namespace Sys2Proof.Machine

open Sys2Proof.Config

variable {s t u : State} {k : FaultKind} {P : FaultKind → Prop}

/-- A fault kind that is no bus fault and no overwrite or overrun of the UART: UnmodelledDeviceMode, UnwrittenRegister,
IllegalCommand or IllFormedGroup (R357). -/
abbrev Quiet (k : FaultKind) : Prop := faultCode k = 4 ∨ 7 ≤ faultCode k

/-- A computation that begins in `s` keeps FAULT where it succeeds, and raises only kinds of `P`. -/
def Raises (s : State) (P : FaultKind → Prop) (e : Except Stop State) : Prop :=
  (∀ t, e = .ok t → t.fault = s.fault) ∧ ∀ k, e = .error (.raise k) → P k

/-- A step from `s` keeps FAULT, or records a kind of `P` and changes nothing else. -/
def StepRaises (s : State) (P : FaultKind → Prop) (o : Stepped) : Prop :=
  ∀ t, o = .next t → t.fault = s.fault ∨ ∃ k, P k ∧ t = s.raise k

theorem Raises.ok (h : t.fault = s.fault) : Raises s P (.ok t) :=
  ⟨fun _ hu => Except.ok.inj hu ▸ h, nofun⟩

/-- A sequenced computation raises what one of its parts does. -/
theorem Raises.bind {α : Type} {x : Except Stop α} {f : α → Except Stop State}
    (hx : ∀ k, x = .error (.raise k) → P k) (hf : ∀ a, x = .ok a → Raises s P (f a)) : Raises s P (x >>= f) := by
  refine ⟨fun t h => ?_, fun k h => ?_⟩
  · obtain ⟨a, ha, h⟩ := bind_ok.1 h
    exact (hf a ha).1 t h
  · rcases bind_error.1 h with h | ⟨a, ha, h⟩
    · exact hx k h
    · exact (hf a ha).2 k h

theorem StepRaises.mono {o : Stepped} {Q : FaultKind → Prop} (h : StepRaises s P o) (hPQ : ∀ k, P k → Q k) :
    StepRaises s Q o :=
  fun t ht => (h t ht).imp_right fun ⟨k, hk, hr⟩ => ⟨k, hPQ k hk, hr⟩

theorem StepRaises.raise (hk : P k) : StepRaises s P (.next (s.raise k)) := by
  rintro _ ⟨⟩
  exact .inr ⟨k, hk, rfl⟩

theorem StepRaises.commit {e : Except Stop State} (h : Raises s P e) : StepRaises s P (commit s e) := by
  intro t ht
  rcases commit_next ht with he | ⟨k, he, rfl⟩
  · exact .inl (h.1 t he)
  · exact .inr ⟨k, h.2 k he, rfl⟩

theorem quiet_illFormedGroup (w : Option Word) : Quiet (.illFormedGroup w) := .inr (by simp [faultCode])

theorem quiet_illegalCommand (w : Word) : Quiet (.illegalCommand w) := .inr (by simp [faultCode])

/-- A command outside a group raises IllFormedGroup, or what its own computation does (R219). -/
theorem StepRaises.outsideGroup {i : Instr} {e : Except Stop State} (hq : ∀ k, Quiet k → P k) (h : Raises s P e) :
    StepRaises s P (outsideGroup s i e) := by
  unfold Machine.outsideGroup
  split
  · exact .commit h
  · exact .raise (hq _ (quiet_illFormedGroup _))

/-- A command of a group raises IllFormedGroup, or what its own computation does (R219). -/
theorem StepRaises.insideGroup {i : Instr} {f : Option Reg → List StagedOp → Option Cause → Except Stop State}
    (hq : ∀ k, Quiet k → P k) (h : ∀ r ops p, s.desc = .opened r ops p → Raises s P (f r ops p)) :
    StepRaises s P (insideGroup s i f) := by
  unfold Machine.insideGroup
  split
  · exact .raise (hq _ (quiet_illFormedGroup _))
  · rename_i r ops p hd
    exact .commit (h r ops p hd)

/-- Reading an operand raises UnwrittenRegister alone (R31). -/
theorem getX_raise {i : RegIx} (h : getX s i = .error (.raise k)) : Quiet k := by
  unfold getX at h
  split at h
  · cases h
  · cases h
    exact .inr (Nat.le_refl 7)

theorem needReg_raise {n : RegName} : needReg s n ≠ .error (.raise k) := by
  unfold needReg
  split <;> nofun

theorem needField_raise {r : Reg} {n : FieldName} : needField r n ≠ .error (.raise k) := by
  unfold needField
  split <;> nofun

/-! #### The computations keep FAULT where they succeed -/

theorem memRead_fault {a : Word} {n : Width} {v : Word} (h : memRead s a n = .ok (v, u)) : u.fault = s.fault := by
  obtain ⟨k, rx, -, rfl⟩ := memRead_frame h
  rfl

theorem memWrite_fault {a : Word} {n : Width} {v : Word} (h : memWrite s a n v = .ok u) : u.fault = s.fault := by
  obtain ⟨r, w, -, -, -, -, -, rfl⟩ := memWrite_frame h
  rfl

theorem modifyLoad_fault {r : Reg} {ops : List StagedOp} {next : AfterModify} (h : modifyLoad s r ops next = .ok t) :
    t.fault = s.fault := by
  obtain ⟨v, u, hm, rfl⟩ := modifyLoad_next h
  exact (memRead_fault hm :)

theorem afterModify_fault (u : State) (next : AfterModify) : (afterModify u next).fault = u.fault := by
  match next with
  | .group | .started false | .started true | .acknowledged => rfl

theorem modifyStore_fault {r : Reg} {ops : List StagedOp} {v : Word} {next : AfterModify}
    (h : modifyStore s r ops v next = .ok t) : t.fault = s.fault := by
  obtain ⟨u, hm, rfl⟩ := modifyStore_next h
  exact (afterModify_fault u next).trans (memWrite_fault hm)

theorem startTimer_fault {n : Word} {delay : Bool} (h : startTimer s n delay = .ok t) : t.fault = s.fault := by
  obtain ⟨r, f, u, -, -, hm, rfl⟩ := startTimer_next h
  exact (memWrite_fault hm :)

theorem checkedStart_fault {n : Word} {delay : Bool} (h : checkedStart s n delay = .ok t) : t.fault = s.fault := by
  rcases checkedStart_next h with rfl | rfl | hm
  · rfl
  · rfl
  · exact startTimer_fault hm

theorem startModify_fault {delay : Bool} (h : startModify s delay = .ok t) : t.fault = s.fault := by
  obtain ⟨r, fo, fe, -, -, -, hm⟩ := startModify_next h
  exact modifyLoad_fault hm

theorem pollUif_fault {delay : Bool} (h : pollUif s delay = .ok t) : t.fault = s.fault := by
  obtain ⟨r, f, v, u, -, -, hm, ht⟩ := pollUif_next h
  have hu : u.fault = s.fault := (memRead_fault hm).trans (by cases delay <;> rfl)
  rcases ht with ⟨-, rfl⟩ | ⟨-, ⟨-, rfl⟩ | ⟨-, rfl⟩⟩ <;> exact hu

theorem ackLoad_fault (h : ackLoad s = .ok t) : t.fault = s.fault := by
  obtain ⟨r, f, -, -, hm⟩ := ackLoad_next h
  exact modifyLoad_fault hm

theorem pinStore_fault {p : Half} {bit : Nat} (h : pinStore s p bit = .ok t) : t.fault = s.fault := by
  rcases pinStore_next h with ⟨-, rfl⟩ | ⟨r, u, -, -, hm, rfl⟩
  · rfl
  · unfold completePin
    split
    · exact (memWrite_fault hm :)
    · exact (memWrite_fault hm :)

theorem sendPoll_fault {b : Byte} {rest : List Byte} (h : sendPoll s b rest = .ok t) : t.fault = s.fault := by
  obtain ⟨r, f, v, u, -, -, hm, rfl⟩ := sendPoll_next h
  exact (memRead_fault hm :)

theorem sendStore_fault {b : Byte} {rest : List Byte} (h : sendStore s b rest = .ok t) : t.fault = s.fault := by
  obtain ⟨r, f, u, -, -, hm, ⟨-, rfl⟩ | ⟨c, cs, -, rfl⟩⟩ := sendStore_next h
  · exact (memWrite_fault hm :)
  · exact (memWrite_fault hm :)

theorem recvPoll_fault {r : Receive} {kept : Option Byte} (h : recvPoll s r kept = .ok t) : t.fault = s.fault := by
  obtain ⟨q, f, v, u, -, -, hm, rfl⟩ := recvPoll_next h
  cases kept with
  | none => exact (memRead_fault hm :)
  | some b => exact (memRead_fault hm :)

theorem received_fault (u : State) (b : Byte) (r : Receive) : (received u b r).fault = u.fault := by
  unfold received
  split
  · rfl
  · split
    · rfl
    · split <;> rfl

theorem recvLoad_fault {r : Receive} (h : recvLoad s r = .ok t) : t.fault = s.fault := by
  obtain ⟨q, f, v, u, -, -, hm, rfl⟩ := recvLoad_next h
  exact (received_fault u _ r).trans (memRead_fault hm)

/-! #### A command's first step, and every step -/

/-- What the first step of command `i` can raise: a kind of its own checks, or what its transaction raises (R88 to R99,
R350). -/
def FirstRaises (s : State) (i : Instr) (k : FaultKind) : Prop :=
  Quiet k ∨
  match i with
  | .ldv _ _ _ => ∃ a n, memRead s a n = .error (.raise k)
  | .stv _ _ _ => ∃ a n v, memWrite s a n v = .error (.raise k)
  | .rread _ _ | .rfield _ _ _ =>
    ∃ r ∈ regsOf s.cfg.regtab, memRead s (addrOf r) r.decl.width = .error (.raise k)
  | .write => ∃ r ops, s.desc = .opened (some r) ops none ∧ canWrite r = true ∧
      writeReg { s with desc := .none } r ops = .error (.raise k)
  | .modify => ∃ r ops, s.desc = .opened (some r) ops none ∧
      modifyLoad { s with desc := .none } r ops .group = .error (.raise k)
  | .tstart _ | .delay _ => ∃ n delay, checkedStart s n delay = .error (.raise k)
  | .tstarti _ | .delayi _ => ∃ n delay, startTimer s n delay = .error (.raise k)
  | .tpoll => pollUif s false = .error (.raise k)
  | .tack => ackLoad s = .error (.raise k)
  | .pon _ | .poff _ => ∃ p bit, pinStore s p bit = .error (.raise k)
  | .usend _ | .usendi _ | .usendl => ∃ b rest, sendPoll s b rest = .error (.raise k)
  | .urecv d => recvPoll s (.byte d) none = .error (.raise k)
  | .uline d => recvPoll { s with lb := [] } (.line d 0) none = .error (.raise k)
  | .li _ _ | .lih _ _ | .gets _ | .dbegin _ | .dset _ _ | .dseti _ _ | .dxor _ _ | .dbits _ | .lrev => False

/-- The part of a command that follows the reading of its operand (R31). -/
theorem Raises.getX {i : RegIx} {f : Word → Except Stop State} (hq : ∀ k, Quiet k → P k)
    (hf : ∀ v, Raises s P (f v)) : Raises s P (getX s i >>= f) :=
  .bind (fun _ h => hq _ (getX_raise h)) fun v _ => hf v

/-- What each command can raise in its first step, by its own computation; the cases follow `exec` (R350). -/
theorem exec_raises (i : Instr) (s : State) : StepRaises s (FirstRaises s i) (exec i s) := by
  have hq : ∀ k, Quiet k → FirstRaises s i k := fun _ => .inl
  cases i with
  | li d imm => exact .outsideGroup hq (.ok rfl)
  | lih d imm => exact .outsideGroup hq (.getX hq fun _ => .ok rfl)
  | gets d => exact .outsideGroup hq (.ok rfl)
  | ldv d b wc =>
    simp only [exec, execLdv]
    split
    · exact .raise (hq _ (quiet_illegalCommand _))
    · exact .outsideGroup hq (.getX hq fun a => .bind (fun _ h => .inr ⟨a, _, h⟩) fun p h => .ok (memRead_fault h :))
  | stv v b wc =>
    simp only [exec, execStv]
    split
    · exact .raise (hq _ (quiet_illegalCommand _))
    · refine .outsideGroup hq (.getX hq fun a => .getX hq fun w => ?_)
      split
      · exact .ok rfl
      · exact .bind (fun _ h => .inr ⟨a, _, w, h⟩) fun u h => .ok (memWrite_fault h :)
  | rread d sel =>
    refine .outsideGroup hq ?_
    split
    · exact .ok rfl
    · rename_i r hr
      split
      · exact .ok rfl
      · exact .bind (fun _ h => .inr ⟨r, resolve_mem hr, h⟩) fun p h => .ok (memRead_fault h :)
  | rfield d sel fld =>
    refine .outsideGroup hq ?_
    split
    · exact .ok rfl
    · rename_i r hr
      split
      · exact .ok rfl
      · split
        · exact .ok rfl
        · split
          · exact .ok rfl
          · exact .bind (fun _ h => .inr ⟨r, resolve_mem hr, h⟩) fun p h => .ok (memRead_fault h :)
  | dbegin sel =>
    refine .outsideGroup hq ?_
    split
    · exact .ok rfl
    · exact .ok rfl
  | dset v fld => exact .insideGroup hq fun _ _ _ _ => .getX hq fun _ => .ok rfl
  | dseti fld imm => exact .insideGroup hq fun _ _ _ _ => .ok rfl
  | dxor v fld => exact .insideGroup hq fun _ _ _ _ => .getX hq fun _ => .ok rfl
  | dbits v => exact .insideGroup hq fun _ _ _ _ => .getX hq fun _ => .ok rfl
  | write =>
    refine .insideGroup hq fun r ops p hd => ?_
    split
    · exact .ok rfl
    · rename_i r
      split
      · exact .ok rfl
      · rename_i hw
        split
        · exact .ok rfl
        · exact .bind (fun _ h => .inr ⟨r, ops, hd, by simpa using hw, h⟩) fun u h => .ok (memWrite_fault h :)
  | modify =>
    refine .insideGroup hq fun r ops p hd => ?_
    split
    · exact .ok rfl
    · rename_i r
      split
      · exact .ok rfl
      · split
        · exact .ok rfl
        · exact ⟨fun t h => (modifyLoad_fault h :), fun _ h => .inr ⟨r, ops, hd, h⟩⟩
  | tstart v =>
    exact .outsideGroup hq (.getX hq fun n => ⟨fun _ => checkedStart_fault, fun _ h => .inr ⟨n, false, h⟩⟩)
  | tstarti imm => exact .outsideGroup hq ⟨fun _ => startTimer_fault, fun _ h => .inr ⟨_, false, h⟩⟩
  | tpoll => exact .outsideGroup hq ⟨fun _ => pollUif_fault, fun _ => .inr⟩
  | tack => exact .outsideGroup hq ⟨fun _ => ackLoad_fault, fun _ => .inr⟩
  | delay v =>
    exact .outsideGroup hq (.getX hq fun n => ⟨fun _ => checkedStart_fault, fun _ h => .inr ⟨n, true, h⟩⟩)
  | delayi imm =>
    refine .outsideGroup hq ?_
    split
    · exact .ok rfl
    · exact ⟨fun _ => startTimer_fault, fun _ h => .inr ⟨_, true, h⟩⟩
  | pon imm => exact .outsideGroup hq ⟨fun _ => pinStore_fault, fun _ h => .inr ⟨_, _, h⟩⟩
  | poff imm => exact .outsideGroup hq ⟨fun _ => pinStore_fault, fun _ h => .inr ⟨_, _, h⟩⟩
  | usend v =>
    refine .outsideGroup hq (.getX hq fun w => ?_)
    split
    · exact .ok rfl
    · exact ⟨fun _ => sendPoll_fault, fun _ h => .inr ⟨_, _, h⟩⟩
  | usendi b => exact .outsideGroup hq ⟨fun _ => sendPoll_fault, fun _ h => .inr ⟨_, _, h⟩⟩
  | urecv d => exact .outsideGroup hq ⟨fun _ => recvPoll_fault, fun _ => .inr⟩
  | uline d => exact .outsideGroup hq ⟨fun _ h => (recvPoll_fault h :), fun _ => .inr⟩
  | lrev => exact .outsideGroup hq (.ok rfl)
  | usendl =>
    refine .outsideGroup hq ?_
    split
    · exact .ok rfl
    · exact ⟨fun _ => sendPoll_fault, fun _ h => .inr ⟨_, _, h⟩⟩

/-- What a step of the ENGINE can raise: the faults of a fetch and of the command's first step, or what the transaction
of a command part-way raises (R350). -/
def EngineRaises (s : State) (k : FaultKind) : Prop :=
  match s.cont with
  | .none => Quiet k ∨ ∃ w i, s.prog[s.pc]? = some w ∧ decode w = .ok i ∧ FirstRaises s i k
  | .modifyStore r ops v next => modifyStore s r ops v next = .error (.raise k)
  | .startModify delay => startModify s delay = .error (.raise k)
  | .pollUif delay => pollUif s delay = .error (.raise k)
  | .ackModify => ackModify s = .error (.raise k)
  | .sendPoll b rest => sendPoll s b rest = .error (.raise k)
  | .sendStore b rest => sendStore s b rest = .error (.raise k)
  | .recvPoll r kept => recvPoll s r kept = .error (.raise k)
  | .recvLoad r => recvLoad s r = .error (.raise k)

/-- A fetch raises IllFormedGroup or IllegalCommand, or what the first step of the command does (R219, R138). -/
theorem fetchStep_raises (hq : ∀ k, Quiet k → P k)
    (hfirst : ∀ w i, s.prog[s.pc]? = some w → decode w = .ok i → ∀ k, FirstRaises s i k → P k) :
    StepRaises s P (fetchStep s) := by
  unfold fetchStep
  split
  · split
    · rintro _ ⟨⟩
    · exact .raise (hq _ (quiet_illFormedGroup _))
  · rename_i w hw
    split
    · exact .raise (hq _ (quiet_illegalCommand _))
    · rename_i i hi
      exact (exec_raises i s).mono (hfirst w i hw hi)

theorem engineStep_raises (s : State) : StepRaises s (EngineRaises s) (engineStep s) := by
  unfold engineStep EngineRaises
  cases s.cont with
  | none => exact fetchStep_raises (fun _ => .inl) fun w i hw hi _ hk => .inr ⟨w, i, hw, hi, hk⟩
  | modifyStore r ops v next => exact .commit ⟨fun _ => modifyStore_fault, fun _ => id⟩
  | startModify delay => exact .commit ⟨fun _ => startModify_fault, fun _ => id⟩
  | pollUif delay => exact .commit ⟨fun _ => pollUif_fault, fun _ => id⟩
  | ackModify => exact .commit ⟨fun _ => ackLoad_fault (s := { s with tst := .expired }), fun _ => id⟩
  | sendPoll b rest => exact .commit ⟨fun _ => sendPoll_fault, fun _ => id⟩
  | sendStore b rest => exact .commit ⟨fun _ => sendStore_fault, fun _ => id⟩
  | recvPoll r kept => exact .commit ⟨fun _ => recvPoll_fault, fun _ => id⟩
  | recvLoad r => exact .commit ⟨fun _ => recvLoad_fault, fun _ => id⟩

/-- What a step of an agent can raise (R356, R370, R373). -/
def AgentRaises (s : State) (k : FaultKind) : Agent → Prop
  | .engine => EngineRaises s k
  | .timer => Quiet k
  | .uartTx => False
  | .uartRx => s.uart.rxne = true ∧ ∃ b, k = .uartOverrun b

theorem agentStep_raises (s : State) (a : Agent) : StepRaises s (AgentRaises s · a) (agentStep s a) := by
  cases a with
  | engine => exact engineStep_raises s
  | timer =>
    rintro _ ⟨⟩
    by_cases hlt : s.tim.cnt.toNat < s.tim.arr.toNat
    · exact .inl (by rw [timerTick_of_lt hlt])
    · exact .inr ⟨_, .inl rfl, timerTick_of_le (Nat.le_of_not_lt hlt)⟩
  | uartTx =>
    rintro _ ⟨⟩
    exact .inl rfl
  | uartRx =>
    rintro _ ⟨⟩
    unfold uartRxArrive
    split
    · exact .inl rfl
    · rename_i b rest _
      split
      · rename_i hx
        exact .inr ⟨_, ⟨hx, b, rfl⟩, rfl⟩
      · exact .inl rfl

/-- A step that faults is an enabled agent's, and records its kind and the pc alone, beside the model's schedule
(R356). -/
theorem step_raises (h : step s = .next t) (hf : t.fault ≠ none) :
    ∃ a k, enabled s a = true ∧ AgentRaises (takeTurn s) k a ∧ t = (takeTurn s).raise k := by
  obtain ⟨hs, -, a, ha, ht⟩ := step_next h
  rcases agentStep_raises _ a t ht with hkeep | ⟨k, hk, hraise⟩
  · exact absurd (hkeep.trans hs) hf
  · exact ⟨a, k, nextAgent_enabled ha, hk, hraise⟩

theorem enabled_of_fault (hf : s.fault ≠ none) (a : Agent) : enabled s a = false := by
  have hn : s.fault.isNone = false := by simpa [Option.isSome_iff_ne_none] using hf
  cases a <;> simp [enabled, timerEnabled, uartTxEnabled, uartRxEnabled, hn]

theorem step_of_fault (hf : s.fault ≠ none) : step s = .fault .halted := by
  obtain ⟨f, hf⟩ := Option.ne_none_iff_exists'.1 hf
  simp [step, machineStep, hf]

/-- Settles O10: a step that faults is its agent's `raise`, and a fault disables every agent. -/
theorem faultsArePrecise : Obligations.FaultsArePrecise := by
  refine fun s => ⟨fun t h hf => ?_, fun hf => ⟨step_of_fault hf, enabled_of_fault hf⟩⟩
  obtain ⟨a, k, -, -, ht⟩ := step_raises h hf
  exact ⟨k, ht⟩

end Sys2Proof.Machine

/-! ### Where bus faults come from, with the default profile (60_exceptions.md R357, R358) -/

namespace Sys2Proof.Machine

open Sys2Proof.Config

variable {s : State} {k : FaultKind} {a v tb ub : Word} {n : Width} {r : Reg} {i : Instr}

/-! #### What a transaction raises (20_memory.md R88 to R98) -/

theorem classify_raise {c : Params} {dir : Dir} (h : classify c a n dir = .error (.raise k)) :
    faultCode k = 1 ∨ faultCode k = 2 := by
  unfold classify at h
  split at h
  · cases h
    exact .inl rfl
  · split at h
    · cases h
      exact .inl rfl
    · split at h
      · split at h <;> cases h
        exact .inr rfl
      · cases h

theorem deviceLoad_raise : deviceLoad s r ≠ .error (.raise k) := by
  unfold deviceLoad
  cases r.decl.name <;> nofun

/-- A load raises HardFault or UnmodelledAccess alone (R88, R90). -/
theorem memRead_raise (h : memRead s a n = .error (.raise k)) : faultCode k = 1 ∨ faultCode k = 2 := by
  unfold memRead at h
  split at h
  · rename_i e hc
    cases h
    exact classify_raise hc
  · cases h
  · split at h
    · rename_i e hd
      cases h
      exact absurd hd deviceLoad_raise
    · cases h

/-- A device store raises UnmodelledDeviceMode, or TxOverwrite at TDR while TXE is 0 (R93, R98). -/
theorem deviceStore_raise (h : deviceStore s r v = .error (.raise k)) :
    Quiet k ∨ faultCode k = 5 ∧ r.decl.name = .uartTdr ∧ s.uart.txe = false := by
  unfold deviceStore at h
  cases hn : r.decl.name with
  | timCr1 =>
    simp only [hn] at h
    split at h <;> cases h
    exact .inl (.inl rfl)
  | uartTdr =>
    simp only [hn] at h
    split at h
    · rename_i hx
      cases h
      exact .inr ⟨rfl, rfl, hx⟩
    · split at h <;> cases h
      exact .inl (.inl rfl)
  | timSr | timPsc | timArr | gpioOdr | gpioBsrr | uartIsr | uartRdr | other l =>
    simp only [hn] at h
    cases h

/-- A store raises a fault of the bus, or what its device store does (R88, R91). -/
theorem memWrite_raise (h : memWrite s a n v = .error (.raise k)) :
    1 ≤ faultCode k ∧ faultCode k ≤ 3 ∨ ∃ r, deviceStore s r v = .error (.raise k) := by
  unfold memWrite at h
  split at h
  · rename_i e hc
    cases h
    have := classify_raise hc
    omega
  · cases h
    exact .inl (by simp [faultCode])
  · rename_i r _
    split at h
    · cases h
      exact .inl (by simp [faultCode])
    · split at h
      · cases h
        exact .inl (by simp [faultCode])
      · split at h
        · rename_i e hd
          cases h
          exact .inr ⟨r, hd⟩
        · cases h

/-- At a writable declared register of an accepted table, a store of no reserved bit raises only what the device guards
raise (R91). -/
theorem memWrite_declared_raise (ha : accepted s.cfg = true) (hr : r ∈ regsOf s.cfg.regtab) (hw : canWrite r = true)
    (hz : v &&& reservedMask r = 0#32) (h : memWrite s (addrOf r) r.decl.width v = .error (.raise k)) :
    Quiet k ∨ faultCode k = 5 ∧ r.decl.name = .uartTdr ∧ s.uart.txe = false := by
  have hp := perm_ne_ro_of_canWrite hw
  cases hd : deviceStore s r v with
  | ok u =>
    rw [memWrite_declared ha hr hp hz hd] at h
    cases h
  | error e =>
    simp only [memWrite, classify_declared ha hr, hp, hz, hd, ne_eq, not_true_eq_false, if_false] at h
    cases h
    exact deviceStore_raise hd

/-! #### With the registers of the default profile -/

/-- The table of `s` is an accepted default profile (R45 to R49). -/
structure OnProfile (tb ub : Word) (s : State) : Prop where
  accepted : accepted s.cfg = true
  table : s.cfg.regtab = profile tb ub

namespace OnProfile

variable (h : OnProfile tb ub s)
include h

theorem timer : ServesTimer s.cfg.regtab tb := h.table ▸ ⟨rfl, rfl, rfl⟩

theorem gpio : ServesGpio s.cfg.regtab gpioBase := h.table ▸ rfl

theorem uart : ServesUart s.cfg.regtab ub := h.table ▸ ⟨rfl, rfl, rfl⟩

/-- Every register of the profile is a device register, and TDR alone of them is written and never read (R46 to R49). -/
theorem register (hr : r ∈ regsOf s.cfg.regtab) : DeviceReg r ∧ (canRead r = true → r.decl.name ≠ .uartTdr) := by
  rw [h.table] at hr
  have hdecl : r.decl ∈ [timCr1, timSr, timPsc, timArr, gpioOdr, gpioBsrr, uartIsr, uartRdr, uartTdr] :=
    List.mem_map_of_mem (f := Reg.decl) hr
  have hall : ∀ d ∈ [timCr1, timSr, timPsc, timArr, gpioOdr, gpioBsrr, uartIsr, uartRdr, uartTdr],
      namesDevice d.name = true ∧ (readable d.perm = true → d.name ≠ .uartTdr) := by decide
  exact hall _ hdecl

/-- A load at a declared register raises nothing (R88, R92). -/
theorem memRead_raise (hr : r ∈ regsOf s.cfg.regtab) : memRead s (addrOf r) r.decl.width ≠ .error (.raise k) := by
  obtain ⟨v, u, -, -, -, hm⟩ := memRead_device h.accepted hr (h.register hr).1
  rw [hm]
  nofun

theorem modifyLoad_raise (hr : r ∈ regsOf s.cfg.regtab) {ops : List StagedOp} {next : AfterModify} :
    modifyLoad s r ops next ≠ .error (.raise k) := fun he => by
  rcases bind_error.1 he with he | ⟨p, -, he⟩
  · exact h.memRead_raise hr he
  · cases he

/-- A start stores a period that fits ARR, so it raises nothing that the bus does (R260). -/
theorem startTimer_raise {x : Word} {delay : Bool} (he : startTimer s x delay = .error (.raise k)) : Quiet k := by
  obtain he | ⟨r, hr, he⟩ := bind_error.1 he
  · exact absurd he needReg_raise
  cases (needReg_ok.1 hr).symm.trans h.timer.2.2
  obtain he | ⟨f, hf, he⟩ := bind_error.1 he
  · exact absurd he needField_raise
  cases needField_ok.1 hf
  obtain he | ⟨u, -, he⟩ := bind_error.1 he
  · have hmem := regNamed_mem h.timer.2.2
    have hops : OpsLegal ⟨tb, timArr⟩ [.set ⟨.arr, 0, 15, .rw⟩ (periodFor s ⟨.arr, 0, 15, .rw⟩ x)] := by
      intro o ho
      cases List.mem_singleton.1 ho
      exact ⟨by simp [timArr], rfl, periodFor_fits s (by decide) x⟩
    exact (memWrite_declared_raise h.accepted hmem rfl (applyOps_unreserved hops (wdef_unreserved h.accepted hmem))
      he).resolve_right fun hx => nomatch hx.2.1
  · cases he

theorem checkedStart_raise {x : Word} {delay : Bool} (he : checkedStart s x delay = .error (.raise k)) : Quiet k := by
  rw [checkedStart_profile h.timer] at he
  split at he
  · cases he
  · split at he
    · cases he
    · exact h.startTimer_raise he

theorem startModify_raise {delay : Bool} : startModify s delay ≠ .error (.raise k) := fun he => by
  obtain he | ⟨r, hr, he⟩ := bind_error.1 he
  · exact needReg_raise he
  obtain he | ⟨fo, -, he⟩ := bind_error.1 he
  · exact needField_raise he
  obtain he | ⟨fe, -, he⟩ := bind_error.1 he
  · exact needField_raise he
  · exact h.modifyLoad_raise (regNamed_mem (needReg_ok.1 hr)) he

theorem pollUif_raise {delay : Bool} : pollUif s delay ≠ .error (.raise k) := by
  rw [pollUif_profile h.accepted h.timer]
  nofun

theorem ackLoad_raise : ackLoad s ≠ .error (.raise k) := by
  rw [ackLoad_profile h.accepted h.timer]
  nofun

theorem pinStore_raise {p : Half} {bit : Nat} : pinStore s p bit ≠ .error (.raise k) := by
  by_cases hp : p.toNat < 16
  · rw [pinStore_profile h.accepted h.gpio hp]
    nofun
  · rw [pinStore, if_pos (Nat.le_of_not_lt hp)]
    nofun

theorem sendPoll_raise {b : Byte} {rest : List Byte} : sendPoll s b rest ≠ .error (.raise k) := by
  rw [sendPoll_profile h.accepted h.uart]
  nofun

/-- A send stores to TDR only where TXE is 1 (R310). -/
theorem sendStore_raise {b : Byte} {rest : List Byte} (hx : s.uart.txe = true) :
    sendStore s b rest ≠ .error (.raise k) := by
  rw [sendStore_profile h.accepted h.uart hx]
  nofun

theorem recvPoll_raise {q : Receive} {kept : Option Byte} : recvPoll s q kept ≠ .error (.raise k) := by
  rw [recvPoll_profile h.accepted h.uart]
  nofun

theorem recvLoad_raise {q : Receive} : recvLoad s q ≠ .error (.raise k) := by
  rw [recvLoad_profile h.accepted h.uart]
  nofun

/-- The store of a modify is of a readable register, so never of TDR, and sets no reserved bit (R207, R218). -/
theorem modifyStore_raise (hr : r ∈ regsOf s.cfg.regtab) {ops : List StagedOp} (hlegal : ModifyLegal r ops)
    {next : AfterModify} (he : modifyStore s r ops v next = .error (.raise k)) : Quiet k := by
  obtain ⟨hread, hwrite, hops⟩ := hlegal
  obtain he | ⟨u, -, he⟩ := bind_error.1 he
  · exact (memWrite_declared_raise h.accepted hr hwrite (applyOps_unreserved hops (modifyBase_unreserved r v))
      he).resolve_right fun hx => (h.register hr).2 hread hx.2.1
  · cases he

end OnProfile

/-- With UART `u`, a fault of the bus or TxOverwrite, of code `c`, can come from command `i` (R98, R357). -/
inductive CommandFaults (u : Uart) : Instr → Nat → Prop where
  | load {d b : RegIx} {wc : BitVec 2} {c : Nat} : c = 1 ∨ c = 2 → CommandFaults u (.ldv d b wc) c
  | store {d b : RegIx} {wc : BitVec 2} {c : Nat} : 1 ≤ c ∧ c ≤ 3 → CommandFaults u (.stv d b wc) c
  | overwriteStv {d b : RegIx} {wc : BitVec 2} : u.txe = false → CommandFaults u (.stv d b wc) 5
  | overwriteWrite : u.txe = false → CommandFaults u .write 5

namespace CommandFaults

variable {u : Uart} {c : Nat} (h : CommandFaults u i c)
include h

theorem bus (hc : c = 1 ∨ c = 2) : (∃ d b wc, i = .ldv d b wc) ∨ ∃ v b wc, i = .stv v b wc := by
  cases h with
  | load => exact .inl ⟨_, _, _, rfl⟩
  | store | overwriteStv => exact .inr ⟨_, _, _, rfl⟩
  | overwriteWrite => omega

theorem reserved (hc : c = 3) : ∃ v b wc, i = .stv v b wc := by
  cases h with
  | store | overwriteStv => exact ⟨_, _, _, rfl⟩
  | load | overwriteWrite => omega

theorem overwrite (hc : c = 5) : u.txe = false ∧ (i = .write ∨ ∃ v b wc, i = .stv v b wc) := by
  cases h with
  | load | store => omega
  | overwriteStv hx => exact ⟨hx, .inr ⟨_, _, _, rfl⟩⟩
  | overwriteWrite hx => exact ⟨hx, .inl rfl⟩

theorem no_overrun : c ≠ 6 := by
  cases h with
  | load | store => omega
  | overwriteStv | overwriteWrite => decide

end CommandFaults

/-- With the profile, the first step of a command raises a bus fault only at LDV and STV, and TxOverwrite only at STV
and WRITE (R357). -/
theorem FirstRaises.on_profile (hp : OnProfile tb ub s) (hi : Inv s) (h : FirstRaises s i k) :
    Quiet k ∨ CommandFaults s.uart i (faultCode k) := by
  refine h.elim .inl fun h => ?_
  cases i with
  | li | lih | gets | dbegin | dset | dseti | dxor | dbits | lrev => exact h.elim
  | ldv d b wc =>
    obtain ⟨a, n, h⟩ := h
    exact .inr (.load (memRead_raise h))
  | stv d b wc =>
    obtain ⟨a, n, v, h⟩ := h
    rcases memWrite_raise h with hc | ⟨r, hd⟩
    · exact .inr (.store hc)
    · exact (deviceStore_raise hd).imp_right fun ⟨hc, _, hx⟩ => hc ▸ .overwriteStv hx
  | rread | rfield =>
    obtain ⟨r, hr, h⟩ := h
    exact absurd h (hp.memRead_raise hr)
  | write =>
    obtain ⟨r, ops, hd, hw, h⟩ := h
    obtain ⟨hr, hops⟩ : DescLegal s.cfg.regtab (.opened (some r) ops none) := hd ▸ hi.desc
    have hz := applyOps_unreserved hops (wdef_unreserved hp.accepted hr)
    exact (memWrite_declared_raise (s := { s with desc := .none }) hp.accepted hr hw hz h).imp_right
      fun ⟨hc, _, hx⟩ => hc ▸ .overwriteWrite hx
  | modify =>
    obtain ⟨r, ops, hd, h⟩ := h
    obtain ⟨hr, -⟩ : DescLegal s.cfg.regtab (.opened (some r) ops none) := hd ▸ hi.desc
    exact absurd h (OnProfile.modifyLoad_raise (s := { s with desc := .none }) ⟨hp.accepted, hp.table⟩ hr)
  | tstart | delay =>
    obtain ⟨x, d, h⟩ := h
    exact .inl (hp.checkedStart_raise h)
  | tstarti | delayi =>
    obtain ⟨x, d, h⟩ := h
    exact .inl (hp.startTimer_raise h)
  | tpoll => exact absurd h hp.pollUif_raise
  | tack => exact absurd h hp.ackLoad_raise
  | pon | poff =>
    obtain ⟨p, bit, h⟩ := h
    exact absurd h hp.pinStore_raise
  | usend | usendi | usendl =>
    obtain ⟨b, rest, h⟩ := h
    exact absurd h hp.sendPoll_raise
  | urecv d => exact absurd h hp.recvPoll_raise
  | uline d => exact absurd h (OnProfile.recvPoll_raise (s := { s with lb := [] }) ⟨hp.accepted, hp.table⟩)

/-- With the profile, a step of the ENGINE raises a bus fault or TxOverwrite only in a command's first step (R310,
R357). -/
theorem EngineRaises.on_profile (hp : OnProfile tb ub s) (hi : Inv s) (h : EngineRaises s k) :
    Quiet k ∨
      s.cont = .none ∧ ∃ w i, s.prog[s.pc]? = some w ∧ decode w = .ok i ∧ CommandFaults s.uart i (faultCode k) := by
  obtain ⟨c, hc⟩ : ∃ c, s.cont = c := ⟨_, rfl⟩
  rw [EngineRaises, hc] at h
  cases c with
  | none =>
    obtain hq | ⟨w, i, hw, hd, h⟩ := h
    · exact .inl hq
    · exact (h.on_profile hp hi).imp_right fun h => ⟨hc, w, i, hw, hd, h⟩
  | modifyStore r ops v next =>
    have hlegal := hi.cont
    rw [hc] at hlegal
    exact .inl (hp.modifyStore_raise hlegal.1 (hi.modify tb r ops v next hp.accepted hp.timer hc) h)
  | startModify delay => exact absurd h hp.startModify_raise
  | pollUif delay => exact absurd h hp.pollUif_raise
  | ackModify => exact absurd h (OnProfile.ackLoad_raise (s := { s with tst := .expired }) ⟨hp.accepted, hp.table⟩)
  | sendPoll b rest => exact absurd h hp.sendPoll_raise
  | sendStore b rest => exact absurd h (hp.sendStore_raise (hi.send ub b rest hp.accepted hp.uart hc))
  | recvPoll q kept => exact absurd h hp.recvPoll_raise
  | recvLoad q => exact absurd h hp.recvLoad_raise

/-- With the profile, a step's fault is quiet, one of a command's first step, or the receiver's overrun (R357, R373). -/
theorem step_raises_on_profile {t : State} {f : FaultRecord} (hp : OnProfile tb ub s) (hi : Inv s)
    (h : step s = .next t) (hf : t.fault = some f) :
    Quiet f.kind ∨
      (s.cont = .none ∧ ∃ w i, s.prog[s.pc]? = some w ∧ decode w = .ok i ∧
        CommandFaults s.uart i (faultCode f.kind)) ∨
      faultCode f.kind = 6 ∧ s.uart.rxne = true ∧ s.cfg.rxPaced = false := by
  obtain ⟨a, k, hen, hk, rfl⟩ := step_raises h (by simp [hf])
  cases hf
  cases a with
  | engine =>
    exact (EngineRaises.on_profile (s := takeTurn s) ⟨hp.accepted, hp.table⟩ { hi with } hk).imp_right .inl
  | timer => exact .inl hk
  | uartTx => exact hk.elim
  | uartRx =>
    obtain ⟨hx, b, rfl⟩ := hk
    obtain ⟨-, -, hpaced⟩ := enabled_uartRx_iff.1 hen
    exact .inr (.inr ⟨rfl, hx, hpaced.resolve_right (by simpa using hx)⟩)

/-- Settles O59: a quiet fault has none of the codes, an overrun the last alone, and the others are a command's. -/
theorem busFaultsComeFromRawAccess : Obligations.BusFaultsComeFromRawAccess := by
  intro s t tb ub f hi ha htab h hf
  obtain hq | ⟨hc, w, i, hw, hd, hcmd⟩ | ⟨h6, hx, hp⟩ := step_raises_on_profile ⟨ha, htab⟩ hi h hf
  · refine ⟨?_, ?_, ?_, ?_⟩ <;> intro h <;> omega
  · refine ⟨fun h => ⟨w, i, hw, hd, hc, hcmd.bus h⟩, fun h => ?_, fun h => ?_, fun h => absurd h hcmd.no_overrun⟩
    · obtain ⟨v, b, wc, rfl⟩ := hcmd.reserved h
      exact ⟨w, v, b, wc, hw, hd, hc⟩
    · exact ⟨w, i, hw, hd, hc, hcmd.overwrite h⟩
  · refine ⟨?_, ?_, ?_, fun _ => ⟨hx, hp⟩⟩ <;> intro h <;> omega

end Sys2Proof.Machine
